-- ==== Sys2Proof/Word.lean ====
section
/-! DEFINITION. The two word types of the block (00_scope.md R13). -/

namespace Sys2Proof

/-- A byte: 8 bits, an unsigned value 0 to 255 (R13). -/
abbrev Byte := BitVec 8

/-- A 16-bit value: a frame field, a register pattern, the CRC accumulator (R13). -/
abbrev Word := BitVec 16

end Sys2Proof
end

