-- ==== Sys2Proof/Config.lean ====
section
/-! DEFINITION. The constants the source fixes (00_scope.md R10) and the parameters of R11 at the
defaults the spec gives them (DESIGN CHOICE, log entry 12). -/

namespace Sys2Proof.Config

/-- `CRC_INIT` (R10): the initial value of the CRC accumulator. -/
def crcInit : Word := 0xFFFF

/-- `CRC_POLY_R` (R10): exclusive-ored in after a shift that drops a 1 bit. -/
def crcPolyR : Word := 0xA001

/-- `OFFSET_HOLDING` (R10). -/
abbrev offsetHolding : Nat := 40001

/-- `OFFSET_INPUT` (R10). -/
abbrev offsetInput : Nat := 30001

/-- `COIL_ON` (R10). -/
def coilOn : Word := 0xFF00

/-- `COIL_OFF` (R10). -/
def coilOff : Word := 0x0000

/-- `WRITE_RSP_LEN` (R10): the length of every write confirmation. -/
abbrev writeRspLen : Nat := 8

/-- `READ_RSP_OVERHEAD` (R10): 3 header bytes and 2 CRC bytes of a read response. -/
abbrev readRspOverhead : Nat := 5

/-- `TX_CAP` (R11). -/
abbrev txCap : Nat := 264

/-- `RX_CAP` (R11). -/
abbrev rxCap : Nat := 260

/-- `WB_CAP` (R11). -/
abbrev wbCap : Nat := 2040

/-- `WR_CAP` (R11). -/
abbrev wrCap : Nat := 127

/-- `QMAX_RD_BITS` (R11). -/
abbrev qmaxRdBits : Nat := 2040

/-- `QMAX_RD_REGS` (R11). -/
abbrev qmaxRdRegs : Nat := 127

/-- The largest value of a 16-bit address field (R151). -/
abbrev fieldMax : Nat := 0xFFFF

/-- The value at which `RXLEN` saturates (R11, `RXLEN_W` = 16; R200). -/
abbrev rxlenMax : Nat := 0xFFFF

end Sys2Proof.Config
end

