-- ==== Sys2Proof/Machine/Bytes.lean ====
section
/-! DEFINITION. Byte order, bit order and the small arithmetic of the notation (00_scope.md R13,
20_memory.md R65). -/

namespace Sys2Proof

/-- `v[15:8]`. -/
def hiByte (v : Word) : Byte := (v >>> 8).setWidth 8

/-- `v[7:0]`. -/
def loByte (v : Word) : Byte := v.setWidth 8

/-- The 16-bit value whose high byte is `hi` and whose low byte is `lo`. -/
def word16 (hi lo : Byte) : Word := (hi.setWidth 16 <<< 8) ||| lo.setWidth 16

/-- `be16(v)`: most significant byte first (R13, R65). -/
def be16 (v : Word) : List Byte := [hiByte v, loByte v]

/-- `le16(v)`: least significant byte first, the order of the CRC alone (R13, R65). -/
def le16 (v : Word) : List Byte := [loByte v, hiByte v]

/-- `ceil_div(a, b)` for `b > 0` (R13). -/
def ceilDiv (a b : Nat) : Nat := (a + b - 1) / b

/-- A byte from its bits, bit 0 first; bits not given are 0 (R105). -/
def packByte (bits : List Bool) : Byte :=
  bits.foldr (fun b acc => (acc <<< 1) ||| (if b then 1 else 0)) 0

/-- The eight bits of a byte, bit 0 first. -/
def byteBits (b : Byte) : List Bool :=
  [b.getLsbD 0, b.getLsbD 1, b.getLsbD 2, b.getLsbD 3,
    b.getLsbD 4, b.getLsbD 5, b.getLsbD 6, b.getLsbD 7]

/-- `n` bytes packed from the front of a sequence of booleans. -/
def packN : Nat → List Bool → List Byte
  | 0, _ => []
  | n + 1, bits => packByte (bits.take 8) :: packN n (bits.drop 8)

/-- `pack(bits)` (41_encode.md R165): `ceil_div(len, 8)` bytes, value `i` in bit `i mod 8` of byte
`i div 8`, the bits beyond the last value 0. -/
def pack (bits : List Bool) : List Byte := packN (ceilDiv bits.length 8) bits

/-- The values of a byte sequence read as 16-bit fields, most significant byte first, one every two
bytes; a last odd byte forms no value (43_host_session_api.md R230). -/
def be16Values : List Byte → List Word
  | hi :: lo :: rest => word16 hi lo :: be16Values rest
  | [_] => []
  | [] => []

/-- The 16-bit pattern of a signed or unsigned number: `n mod 65536` (41_encode.md R152). -/
def regPattern (n : Int) : Word := BitVec.ofInt 16 n

end Sys2Proof
end

