-- ==== Sys2Proof/Machine/CrcEngine.lean ====
section
/-! DEFINITION. The CRC Engine: the pure functions of 40_crc.md section 1. -/

namespace Sys2Proof

/-- One of the eight iterations of R131: the low bit is tested before the shift. -/
def crcShift (acc : Word) : Word :=
  if acc.getLsbD 0 then (acc >>> 1) ^^^ Config.crcPolyR else acc >>> 1

/-- `n` iterations. -/
def crcShifts : Nat → Word → Word
  | 0, acc => acc
  | n + 1, acc => crcShifts n (crcShift acc)

/-- `crc_step(acc, b)` (R131). -/
def crcStep (acc : Word) (b : Byte) : Word := crcShifts 8 (acc ^^^ b.setWidth 16)

/-- `crc16_value(s)` (R132): no reflection and no exclusive-or at the end. -/
def crc16Value (s : List Byte) : Word := s.foldl crcStep Config.crcInit

/-- `crc16(s)` (R133): low byte first. -/
def crc16 (s : List Byte) : List Byte := le16 (crc16Value s)

end Sys2Proof
end

