-- ==== Sys2Proof/Syntax.lean ====
section
/-! DEFINITION. The instructions: one constructor for each of the 35 rows of
spec/opcode_table.json, the eight function codes, and the words instructions are encoded in. -/

namespace Sys2Proof

/-- The eight function codes (30_encoding.md R96), named by the suffix of the `ENC.*` mnemonic. -/
inductive FunctionCode where
  /-- 0x01, read coils. -/
  | rc
  /-- 0x02, read discrete inputs. -/
  | rdi
  /-- 0x03, read holding registers. -/
  | rhr
  /-- 0x04, read input registers. -/
  | rir
  /-- 0x05, write single coil. -/
  | wsc
  /-- 0x06, write single register. -/
  | wsr
  /-- 0x0F, write multiple coils. -/
  | wmc
  /-- 0x10, write multiple registers. -/
  | wmr
deriving DecidableEq, Repr

/-- The rows of the opcode table. The 19 commands have no operand fields (R90). A request frame
(R94, R95) carries its address, its first field and what follows; its CRC is computed (R107). A
response frame (R97, R98) carries the CRC it was received with. -/
inductive Instr where
  -- The 19 commands (R92).
  | nop
  | encRc
  | encRdi
  | encRhr
  | encRir
  | encWsc
  | encWsr
  | encWmc
  | encWmr
  | crcInit
  | crcByte
  | wbClr
  | wbPush
  | wrClr
  | wrPush
  | rxByte
  | validate
  | abort
  | reset
  -- The eight request frames; `first` is the field `F1`.
  | reqRc (addr : Byte) (first qty : Word)
  | reqRdi (addr : Byte) (first qty : Word)
  | reqRhr (addr : Byte) (first qty : Word)
  | reqRir (addr : Byte) (first qty : Word)
  | reqWsc (addr : Byte) (first : Word) (on : Bool)
  | reqWsr (addr : Byte) (first value : Word)
  | reqWmc (addr : Byte) (first : Word) (bits : List Bool)
  | reqWmr (addr : Byte) (first : Word) (vals : List Word)
  -- The eight response frames.
  | rspRc (addr : Byte) (data : List Byte) (crc : Word)
  | rspRdi (addr : Byte) (data : List Byte) (crc : Word)
  | rspRhr (addr : Byte) (data : List Byte) (crc : Word)
  | rspRir (addr : Byte) (data : List Byte) (crc : Word)
  | rspWsc (addr : Byte) (echo1 echo2 crc : Word)
  | rspWsr (addr : Byte) (echo1 echo2 crc : Word)
  | rspWmc (addr : Byte) (echo1 echo2 crc : Word)
  | rspWmr (addr : Byte) (echo1 echo2 crc : Word)
deriving DecidableEq, Repr

/-- What an instruction is encoded in: a command code written to `CMD` (R90), the bytes of a request
frame, or the bytes of a response frame, first byte first. The two frame kinds carry their direction
because one byte sequence can be a frame of either (R94 and R98 agree for function code 0x05; log
entry 6). -/
inductive CodeWord where
  | cmd (code : Byte)
  | request (bytes : List Byte)
  | response (bytes : List Byte)
deriving DecidableEq, Repr

end Sys2Proof
end

