-- ==== Sys2Proof/Machine/FrameCodec.lean ====
section
/-! DEFINITION. The frame formats and the pure functions of the encoder: function codes
(30_encoding.md R96), frame assembly and payloads (41_encode.md R150, R165), expected response
length (R155), lengths read from a frame (30_encoding.md R99). -/

namespace Sys2Proof

/-- The number of a function code (R96). -/
def FunctionCode.code : FunctionCode → Byte
  | .rc => 0x01
  | .rdi => 0x02
  | .rhr => 0x03
  | .rir => 0x04
  | .wsc => 0x05
  | .wsr => 0x06
  | .wmc => 0x0F
  | .wmr => 0x10

/-- The function code with a given number, if it is one of the eight (R96, R109). -/
def FunctionCode.ofByte (b : Byte) : Option FunctionCode :=
  match b.toNat with
  | 0x01 => some .rc
  | 0x02 => some .rdi
  | 0x03 => some .rhr
  | 0x04 => some .rir
  | 0x05 => some .wsc
  | 0x06 => some .wsr
  | 0x0F => some .wmc
  | 0x10 => some .wmr
  | _ => none

/-- The read family (R96); the other four codes are the write-confirmation family. -/
def FunctionCode.isRead : FunctionCode → Bool
  | .rc => true
  | .rdi => true
  | .rhr => true
  | .rir => true
  | .wsc => false
  | .wsr => false
  | .wmc => false
  | .wmr => false

/-- The offset subtracted from a register number; the bit operations subtract nothing (R100). -/
def FunctionCode.offset : FunctionCode → Nat
  | .rc => 0
  | .rdi => 0
  | .rhr => Config.offsetHolding
  | .rir => Config.offsetInput
  | .wsc => 0
  | .wsr => Config.offsetHolding
  | .wmc => 0
  | .wmr => Config.offsetHolding

/-- The largest quantity a read accepts; the writes have no such limit (R151). -/
def FunctionCode.quantityLimit : FunctionCode → Option Nat
  | .rc => some Config.qmaxRdBits
  | .rdi => some Config.qmaxRdBits
  | .rhr => some Config.qmaxRdRegs
  | .rir => some Config.qmaxRdRegs
  | .wsc => none
  | .wsr => none
  | .wmc => none
  | .wmr => none

/-- The expected response length after a request of quantity `qty` (R155). -/
def FunctionCode.expectedLen (op : FunctionCode) (qty : Nat) : Nat :=
  match op with
  | .rc => Config.readRspOverhead + ceilDiv qty 8
  | .rdi => Config.readRspOverhead + ceilDiv qty 8
  | .rhr => Config.readRspOverhead + 2 * qty
  | .rir => Config.readRspOverhead + 2 * qty
  | .wsc => Config.writeRspLen
  | .wsr => Config.writeRspLen
  | .wmc => Config.writeRspLen
  | .wmr => Config.writeRspLen

/-- `assemble(dev, fc, payload)` (R150). -/
def assemble (dev fc : Byte) (payload : List Byte) : List Byte :=
  let body := dev :: fc :: payload
  body ++ crc16 body

/-- `pl_read(a, q)` (R165). -/
def plRead (a q : Word) : List Byte := be16 a ++ be16 q

/-- The value field of write single coil (R102). -/
def coilField (on : Bool) : Word := if on then Config.coilOn else Config.coilOff

/-- `pl_wsc(a, b)` (R165). -/
def plWsc (a : Word) (on : Bool) : List Byte := be16 a ++ be16 (coilField on)

/-- `pl_wsr(a, v)` (R165). -/
def plWsr (a v : Word) : List Byte := be16 a ++ be16 v

/-- `pl_wmc(a, bits)` (R165). -/
def plWmc (a : Word) (bits : List Bool) : List Byte :=
  be16 a ++ be16 (BitVec.ofNat 16 bits.length)
    ++ [BitVec.ofNat 8 (ceilDiv bits.length 8)] ++ pack bits

/-- `pl_wmr(a, vals)` (R165). -/
def plWmr (a : Word) (vals : List Word) : List Byte :=
  be16 a ++ be16 (BitVec.ofNat 16 vals.length)
    ++ [BitVec.ofNat 8 (2 * vals.length)] ++ vals.flatMap be16

/-- The bytes of a read response (R97) whose CRC field is `crc`. -/
def readResponse (addr fc : Byte) (data : List Byte) (crc : Word) : List Byte :=
  addr :: fc :: BitVec.ofNat 8 data.length :: data ++ le16 crc

/-- The bytes of a write confirmation (R98) whose CRC field is `crc`. -/
def writeResponse (addr fc : Byte) (echo1 echo2 crc : Word) : List Byte :=
  addr :: fc :: be16 echo1 ++ be16 echo2 ++ le16 crc

/-- The length a reader of a request frame learns from its bytes (R99); none where the bytes do not
tell. -/
def requestLength (f : List Byte) : Option Nat :=
  match f[1]? with
  | none => none
  | some fc =>
    match FunctionCode.ofByte fc with
    | none => none
    | some .wmc => f[6]?.map (fun n => 9 + n.toNat)
    | some .wmr => f[6]?.map (fun n => 9 + n.toNat)
    | some .rc => some 8
    | some .rdi => some 8
    | some .rhr => some 8
    | some .rir => some 8
    | some .wsc => some 8
    | some .wsr => some 8

/-- The total length a response claims, by the expected function code and its byte 2 (R99, R193,
R194). -/
def FunctionCode.claimedLength (op : FunctionCode) (b2 : Byte) : Nat :=
  if op.isRead then Config.readRspOverhead + b2.toNat else Config.writeRspLen

end Sys2Proof
end

