-- ==== Sys2Proof/WellFormed.lean ====
section
/-! DEFINITION. Which instructions have an encoding: the bounds that the one-byte byte-count puts on
the data of a frame (30_encoding.md R95, R97, R104). -/

namespace Sys2Proof

/-- The data of the frame fits its byte-count: at most 2040 coil values and at most 127 register
values in a request (R104), at most 255 data bytes in a read response (R97). Commands and
fixed-length frames have no bound. -/
def Instr.wellFormed : Instr → Bool
  | .nop => true
  | .encRc => true
  | .encRdi => true
  | .encRhr => true
  | .encRir => true
  | .encWsc => true
  | .encWsr => true
  | .encWmc => true
  | .encWmr => true
  | .crcInit => true
  | .crcByte => true
  | .wbClr => true
  | .wbPush => true
  | .wrClr => true
  | .wrPush => true
  | .rxByte => true
  | .validate => true
  | .abort => true
  | .reset => true
  | .reqRc _ _ _ => true
  | .reqRdi _ _ _ => true
  | .reqRhr _ _ _ => true
  | .reqRir _ _ _ => true
  | .reqWsc _ _ _ => true
  | .reqWsr _ _ _ => true
  | .reqWmc _ _ bits => decide (bits.length ≤ Config.wbCap)
  | .reqWmr _ _ vals => decide (vals.length ≤ Config.wrCap)
  | .rspRc _ data _ => decide (data.length ≤ 255)
  | .rspRdi _ data _ => decide (data.length ≤ 255)
  | .rspRhr _ data _ => decide (data.length ≤ 255)
  | .rspRir _ data _ => decide (data.length ≤ 255)
  | .rspWsc _ _ _ _ => true
  | .rspWsr _ _ _ _ => true
  | .rspWmc _ _ _ _ => true
  | .rspWmr _ _ _ _ => true

end Sys2Proof
end

