-- ==== Sys2Proof/Decode.lean ====
section
/-! DEFINITION. The decoder, total on every code word, and after it the encoder. -/

namespace Sys2Proof

/-- The command table (30_encoding.md R92): an exact match of all eight bits; every other code is
unassigned (R108). -/
def decodeCommand (code : Byte) : Option Instr :=
  match code.toNat with
  | 0x00 => some .nop
  | 0x01 => some .encRc
  | 0x02 => some .encRdi
  | 0x03 => some .encRhr
  | 0x04 => some .encRir
  | 0x05 => some .encWsc
  | 0x06 => some .encWsr
  | 0x0F => some .encWmc
  | 0x10 => some .encWmr
  | 0x20 => some .crcInit
  | 0x21 => some .crcByte
  | 0x30 => some .wbClr
  | 0x31 => some .wbPush
  | 0x32 => some .wrClr
  | 0x33 => some .wrPush
  | 0x40 => some .rxByte
  | 0x41 => some .validate
  | 0x42 => some .abort
  | 0x7F => some .reset
  | _ => none

/-- The six request formats REQ-A (R94): a first and a second field. Only 0xFF00 and 0x0000 are
values of the second field of write single coil (R102). -/
def decodeRequestA (addr fc : Byte) (first second : Word) : Option Instr :=
  match FunctionCode.ofByte fc with
  | some .rc => some (.reqRc addr first second)
  | some .rdi => some (.reqRdi addr first second)
  | some .rhr => some (.reqRhr addr first second)
  | some .rir => some (.reqRir addr first second)
  | some .wsc =>
    if second = Config.coilOn then some (.reqWsc addr first true)
    else if second = Config.coilOff then some (.reqWsc addr first false)
    else none
  | some .wsr => some (.reqWsr addr first second)
  | some .wmc => none
  | some .wmr => none
  | none => none

/-- The two request formats REQ-B (R95): `q` values in `n` bytes of data. The byte-count is that of
R104 and the bits beyond the last value are 0 (R105, R111). -/
def decodeRequestB (addr fc : Byte) (first : Word) (q n : Nat) (data : List Byte) : Option Instr :=
  match FunctionCode.ofByte fc with
  | some .wmc =>
    let bits := data.flatMap byteBits
    if q ≤ Config.wbCap ∧ n = ceilDiv q 8 ∧ data.length = n ∧ (bits.drop q).all (fun b => !b) then
      some (.reqWmc addr first (bits.take q))
    else none
  | some .wmr =>
    if q ≤ Config.wrCap ∧ n = 2 * q ∧ data.length = n then
      some (.reqWmr addr first (be16Values data))
    else none
  | some .rc => none
  | some .rdi => none
  | some .rhr => none
  | some .rir => none
  | some .wsc => none
  | some .wsr => none
  | none => none

/-- A request frame without its CRC. -/
def decodeRequestBody (body : List Byte) : Option Instr :=
  match body with
  | addr :: fc :: f1h :: f1l :: f2h :: f2l :: rest =>
    match rest with
    | [] => decodeRequestA addr fc (word16 f1h f1l) (word16 f2h f2l)
    | n :: data => decodeRequestB addr fc (word16 f1h f1l) (word16 f2h f2l).toNat n.toNat data
  | _ => none

/-- A request frame: its last two bytes are the CRC of all earlier bytes (R93, R107). -/
def decodeRequest (f : List Byte) : Option Instr :=
  let body := f.take (f.length - 2)
  if f.drop (f.length - 2) = crc16 body then decodeRequestBody body else none

/-- A read response (R97): `n` data bytes and the two CRC bytes, low byte first. -/
def decodeReadResponse (mk : List Byte → Word → Instr) (rest : List Byte) : Option Instr :=
  match rest with
  | [] => none
  | n :: tail =>
    match tail.drop n.toNat with
    | [lo, hi] => some (mk (tail.take n.toNat) (word16 hi lo))
    | _ => none

/-- A write confirmation (R98): two echoed fields and the two CRC bytes, low byte first. -/
def decodeWriteResponse (mk : Word → Word → Word → Instr) (rest : List Byte) : Option Instr :=
  match rest with
  | [e1h, e1l, e2h, e2l, lo, hi] => some (mk (word16 e1h e1l) (word16 e2h e2l) (word16 hi lo))
  | _ => none

/-- A response frame, by its function code (R96 to R98). Its CRC is a field, right or wrong. -/
def decodeResponse (f : List Byte) : Option Instr :=
  match f with
  | addr :: fc :: rest =>
    match FunctionCode.ofByte fc with
    | some .rc => decodeReadResponse (.rspRc addr) rest
    | some .rdi => decodeReadResponse (.rspRdi addr) rest
    | some .rhr => decodeReadResponse (.rspRhr addr) rest
    | some .rir => decodeReadResponse (.rspRir addr) rest
    | some .wsc => decodeWriteResponse (.rspWsc addr) rest
    | some .wsr => decodeWriteResponse (.rspWsr addr) rest
    | some .wmc => decodeWriteResponse (.rspWmc addr) rest
    | some .wmr => decodeWriteResponse (.rspWmr addr) rest
    | none => none
  | _ => none

/-- The instruction a code word stands for, if any. -/
def decode : CodeWord → Option Instr
  | .cmd c => decodeCommand c
  | .request f => decodeRequest f
  | .response f => decodeResponse f

/-- The code word of an instruction, from the encodings of R92, R94, R95, R97 and R98. -/
def encode : Instr → CodeWord
  | .nop => .cmd 0x00
  | .encRc => .cmd 0x01
  | .encRdi => .cmd 0x02
  | .encRhr => .cmd 0x03
  | .encRir => .cmd 0x04
  | .encWsc => .cmd 0x05
  | .encWsr => .cmd 0x06
  | .encWmc => .cmd 0x0F
  | .encWmr => .cmd 0x10
  | .crcInit => .cmd 0x20
  | .crcByte => .cmd 0x21
  | .wbClr => .cmd 0x30
  | .wbPush => .cmd 0x31
  | .wrClr => .cmd 0x32
  | .wrPush => .cmd 0x33
  | .rxByte => .cmd 0x40
  | .validate => .cmd 0x41
  | .abort => .cmd 0x42
  | .reset => .cmd 0x7F
  | .reqRc a f q => .request (assemble a 0x01 (plRead f q))
  | .reqRdi a f q => .request (assemble a 0x02 (plRead f q))
  | .reqRhr a f q => .request (assemble a 0x03 (plRead f q))
  | .reqRir a f q => .request (assemble a 0x04 (plRead f q))
  | .reqWsc a f b => .request (assemble a 0x05 (plWsc f b))
  | .reqWsr a f v => .request (assemble a 0x06 (plWsr f v))
  | .reqWmc a f bits => .request (assemble a 0x0F (plWmc f bits))
  | .reqWmr a f vals => .request (assemble a 0x10 (plWmr f vals))
  | .rspRc a d c => .response (readResponse a 0x01 d c)
  | .rspRdi a d c => .response (readResponse a 0x02 d c)
  | .rspRhr a d c => .response (readResponse a 0x03 d c)
  | .rspRir a d c => .response (readResponse a 0x04 d c)
  | .rspWsc a e1 e2 c => .response (writeResponse a 0x05 e1 e2 c)
  | .rspWsr a e1 e2 c => .response (writeResponse a 0x06 e1 e2 c)
  | .rspWmc a e1 e2 c => .response (writeResponse a 0x0F e1 e2 c)
  | .rspWmr a e1 e2 c => .response (writeResponse a 0x10 e1 e2 c)

/-- `n` bytes from a number, the least significant byte first. PRESUMED (log entry 26): the spec does not
say how the bytes of a frame form one number; byte 0 of the frame is taken as bits 7 to 0, byte 1 as
bits 15 to 8, and so on, the numbering of table words that this model is asked for. -/
def tableBytes : Nat → Nat → List Byte
  | 0, _ => []
  | n + 1, w => BitVec.ofNat 8 w :: tableBytes n (w / 256)

/-- The code word that `nbits` bits of the opcode table's numbering stand for: at most 8 bits are a
command code, more are the bytes of a frame, byte 0 in the lowest bits (PRESUMED, log entry 26). Bytes that are a request frame are read
as one, all others as a response (log entry 6). -/
def tableCodeWord (nbits w : Nat) : CodeWord :=
  if nbits ≤ 8 then .cmd (BitVec.ofNat 8 w)
  else
    let bytes := tableBytes (ceilDiv nbits 8) w
    match decodeRequest bytes with
    | some _ => .request bytes
    | none => .response bytes

/-- The instruction the decoder reads from a word of the opcode table. -/
def decodeTableWord (nbits w : Nat) : Option Instr := decode (tableCodeWord nbits w)

end Sys2Proof
end

