-- ==== Sys2Proof/Machine/State.lean ====
section
/-! DEFINITION. Everything the spec gives the block (10_state.md R20), the host accesses that are its
inputs (20_memory.md R75), and the ways a step can stop. -/

namespace Sys2Proof.Machine

/-- `PHASE` (10_state.md R31). -/
inductive Phase where
  /-- 0: no exchange has been started since reset. -/
  | idle
  /-- 1: a request frame stands in `TXBUF`, response bytes are being collected. -/
  | await
  /-- 2: the response passed validation. -/
  | done
  /-- 3: the exchange ended in a failure, or an `ENC.*` was refused. -/
  | fail
deriving DecidableEq, Repr

/-- The nine values of `ERR` (60_exceptions.md R251); the other seven codes are never produced. -/
inductive ErrCode where
  | none
  | timeout
  | incompleteResponse
  | addressOrFunctionMismatch
  | lengthMismatch
  | checksumMismatch
  | refBelowOffset
  | refAboveRange
  | quantityOutOfRange
deriving DecidableEq, Repr

/-- The operand of a `HostWrite`: one of the six operand registers with a value of its width (R75). -/
inductive OperandWrite where
  | dev (v : Byte)
  | ref (v : BitVec 17)
  | qty (v : Word)
  | val (v : Word)
  | bval (v : Bool)
  | din (v : Byte)
deriving DecidableEq, Repr

/-- What a `HostRead` can name: every register and view but `CMD`, and the bytes of the two frame
buffers (R75). -/
inductive Loc where
  | dev | ref | qty | val | bval | din
  | phase | ok | cmderr | rxrdy
  | crc | crcLo | crcHi
  | expAddr | expFc | expLen | err | payoff | paylen
  | txlen | rxlen | wbcnt | wrcnt | status
  | txbuf (i : Nat)
  | rxbuf (i : Nat)
deriving DecidableEq, Repr

/-- One access of the host: the three primitives of R75 (`issue (.cmd c)` is `HostCmd(c)`), the
hardware reset input (70_reset_and_hazards.md R290), and the model's two compound accesses
`issue (.request f)` and `issue (.response f)` (log entries 4, 5). -/
inductive HostAccess where
  | write (w : OperandWrite)
  | read (l : Loc)
  | issue (x : CodeWord)
  | hardReset
deriving DecidableEq, Repr

/-- The state of the block, and two fields of the model's own (`pending`, `rdata`). A buffer is the
list of its entries that have a value, index 0 first (log entry 7). -/
structure State where
  /-- `DEV` (R21). -/
  dev : Byte
  /-- `REF` (R22). -/
  ref : BitVec 17
  /-- `QTY` (R23). -/
  qty : Word
  /-- `VAL` (R24). -/
  val : Word
  /-- `BVAL` (R25). -/
  bval : Bool
  /-- `DIN` (R26). -/
  din : Byte
  /-- `PHASE` (R31). -/
  phase : Phase
  /-- `OK` (R33). -/
  ok : Bool
  /-- `CMDERR` (R34). -/
  cmderr : Bool
  /-- `CRC` (R36). -/
  crc : Word
  /-- `EXP_ADDR` (R37). -/
  expAddr : Byte
  /-- `EXP_FC` (R38). -/
  expFc : Byte
  /-- `EXP_LEN` (R39). -/
  expLen : BitVec 9
  /-- `ERR` (R40). -/
  err : ErrCode
  /-- `PAYOFF` (R41). -/
  payoff : BitVec 2
  /-- `PAYLEN` (R42). -/
  paylen : BitVec 8
  /-- `TXLEN` (R43). -/
  txlen : BitVec 9
  /-- `RXLEN` (R44). -/
  rxlen : BitVec 16
  /-- `WBCNT` (R45). -/
  wbcnt : BitVec 11
  /-- `WRCNT` (R46). -/
  wrcnt : BitVec 7
  /-- `WBIT` (R48). -/
  wbit : List Bool
  /-- `WREG` (R49). -/
  wreg : List Word
  /-- `TXBUF` (R50). -/
  txbuf : List Byte
  /-- `RXBUF` (R51). -/
  rxbuf : List Byte
  /-- The host accesses not yet served, oldest first (R70; the model's own, log entry 1). -/
  pending : List HostAccess
  /-- What the latest `HostRead` returned (R75; the model's own, log entry 3). -/
  rdata : Option Nat
deriving DecidableEq, Repr

/-- The reset state (10_state.md R53), with no access pending and none yet read. -/
def State.reset : State where
  dev := 0x00
  ref := 0
  qty := 0
  val := 0x0000
  bval := false
  din := 0x00
  phase := .idle
  ok := false
  cmderr := false
  crc := 0xFFFF
  expAddr := 0x00
  expFc := 0x00
  expLen := 0
  err := .none
  payoff := 0
  paylen := 0
  txlen := 0
  rxlen := 0
  wbcnt := 0
  wrcnt := 0
  wbit := []
  wreg := []
  txbuf := []
  rxbuf := []
  pending := []
  rdata := none

/-- The canonical form of the buffers: each is within its capacity (20_memory.md R60), and its list
holds exactly the entries that have a value, as many as its count says (10_state.md R48 to R51). Being
lists of a prefix of the indexes, equal buffers are equal data. -/
abbrev Memory.wf (s : State) : Prop :=
  (s.txbuf.length = s.txlen.toNat ∧ s.rxbuf.length = min s.rxlen.toNat Config.rxCap ∧
    s.wbit.length = s.wbcnt.toNat ∧ s.wreg.length = s.wrcnt.toNat) ∧
  s.txbuf.length ≤ Config.txCap ∧ s.rxbuf.length ≤ Config.rxCap ∧
    s.wbit.length ≤ Config.wbCap ∧ s.wreg.length ≤ Config.wrCap

/-- Why the machine stops with a fault. The block's own failures are no faults: they are recorded in
state (60_exceptions.md). -/
inductive Fault where
  /-- Raised by `VALIDATE` where it would read a byte of `RXBUF` that has no value (R51). Safe: it
  happens only in states whose `RXLEN` and `RXBUF` disagree, which no run reaches. -/
  | byteWithoutValue
deriving DecidableEq, Repr

/-- Why a step is refused. -/
inductive Refusal where
  /-- Raised by `exec` for an instruction that has no meaning yet. Safe: nothing happens. -/
  | notModelled (mnemonic : String)
  /-- Raised by the step for a `HostRead` of `TXBUF[i]` or `RXBUF[i]` outside its valid range
  (20_memory.md R63: "a model gives it no meaning (it refuses the read)"). Safe. -/
  | readOutsideValidRange
  /-- Raised by `VALIDATE` where the expected function code is none of the eight or the expected
  length is below 5 (42_validate.md R199: "a model refuses such a call"). Safe: no run reaches it. -/
  | validatorOutsideDomain
  /-- Raised by the step for a compound request access whose bytes are no request frame the block can
  build (30_encoding.md R109). Safe: such an access is no primitive of R75. -/
  | notARequestFrame
  /-- Raised by the host's `exchange` (HostSession.lean) for device address 0, and by no step of the
  block: 93_implementation_defined.md U4 makes it "`refuse` on the host side" (70_reset_and_hazards.md
  R303). Safe: nothing is claimed of a broadcast. -/
  | broadcastExchange
deriving DecidableEq, Repr

end Sys2Proof.Machine
end

