-- ==== Sys2Proof/Machine/Flags.lean ====
section
/-! DEFINITION. The codes of `PHASE` and `ERR`, the derived flag `RXRDY` and the packed view `STATUS`
(10_state.md R31, R35, R40, R47). -/

namespace Sys2Proof.Machine

/-- The 2-bit value of `PHASE` (R31). -/
def Phase.code : Phase → BitVec 2
  | .idle => 0
  | .await => 1
  | .done => 2
  | .fail => 3

/-- The 4-bit value of `ERR` (60_exceptions.md R251). -/
def ErrCode.code : ErrCode → BitVec 4
  | .none => 0
  | .timeout => 1
  | .incompleteResponse => 2
  | .addressOrFunctionMismatch => 3
  | .lengthMismatch => 4
  | .checksumMismatch => 5
  | .refBelowOffset => 8
  | .refAboveRange => 9
  | .quantityOutOfRange => 10

/-- `RXRDY` (R35). -/
def State.rxrdy (s : State) : Bool :=
  decide (s.phase = .await ∧ s.expLen.toNat ≤ s.rxlen.toNat)

/-- A flag as one bit. -/
def flagBit (b : Bool) : BitVec 1 := if b then 1 else 0

/-- `STATUS` (R47), from bit 15 down to bit 0. -/
def State.status (s : State) : Word :=
  (0 : BitVec 4) ++ s.err.code ++ (0 : BitVec 3) ++ flagBit s.cmderr ++ flagBit s.rxrdy
    ++ flagBit s.ok ++ s.phase.code

/-- `CRC_LO` (R36). -/
def State.crcLo (s : State) : Byte := loByte s.crc

/-- `CRC_HI` (R36). -/
def State.crcHi (s : State) : Byte := hiByte s.crc

/-- The payload window `RXBUF[PAYOFF..PAYOFF+PAYLEN-1]` (R42). -/
def State.payload (s : State) : List Byte := (s.rxbuf.drop s.payoff.toNat).take s.paylen.toNat

end Sys2Proof.Machine
end

