-- ==== Sys2Proof/Machine/Operands.lean ====
section
/-! DEFINITION. Operands: the checks an `ENC.*` makes before anything else (41_encode.md R151, R153),
and the host's writes and reads of registers and buffer bytes (20_memory.md R75). -/

namespace Sys2Proof.Machine

/-- Checks 1 and 2 of R153, and the address field they leave (30_encoding.md R100). The subtraction is
made only after the check that it cannot underflow. -/
def addressField (op : FunctionCode) (ref : BitVec 17) : Except ErrCode Word :=
  if ref.toNat < op.offset then .error .refBelowOffset
  else if Config.fieldMax < ref.toNat - op.offset then .error .refAboveRange
  else .ok (BitVec.ofNat 16 (ref.toNat - op.offset))

/-- Check 3 of R153: read operations only. -/
def quantityTooLarge (op : FunctionCode) (qty : Word) : Bool :=
  match op.quantityLimit with
  | some limit => decide (limit < qty.toNat)
  | none => false

/-- The three checks of R153 in their order; the first that fails gives the cause. -/
def operandCheck (op : FunctionCode) (s : State) : Except ErrCode Word :=
  match addressField op s.ref with
  | .error cause => .error cause
  | .ok a => if quantityTooLarge op s.qty then .error .quantityOutOfRange else .ok a

/-- The value of `REF` whose address field is `first` (the inverse of R100). -/
def refOfField (op : FunctionCode) (first : Word) : BitVec 17 :=
  BitVec.ofNat 17 (first.toNat + op.offset)

/-- `HostWrite(reg, v)` (R75): no effect beyond the register (R67). -/
def hostWrite (w : OperandWrite) (s : State) : State :=
  match w with
  | .dev v => { s with dev := v }
  | .ref v => { s with ref := v }
  | .qty v => { s with qty := v }
  | .val v => { s with val := v }
  | .bval v => { s with bval := v }
  | .din v => { s with din := v }

/-- A byte of `TXBUF`; it has a value only below `TXLEN` (R63). -/
def txByteAt (s : State) (i : Nat) : Option Byte :=
  if i < s.txlen.toNat then s.txbuf[i]? else none

/-- A byte of `RXBUF`; it has a value only below `min(RXLEN, RX_CAP)` (R63). -/
def rxByteAt (s : State) (i : Nat) : Option Byte :=
  if i < min s.rxlen.toNat Config.rxCap then s.rxbuf[i]? else none

/-- What `HostRead(loc)` returns (R75), as an unsigned number; none outside the valid range (R63). -/
def hostRead (l : Loc) (s : State) : Option Nat :=
  match l with
  | .dev => some s.dev.toNat
  | .ref => some s.ref.toNat
  | .qty => some s.qty.toNat
  | .val => some s.val.toNat
  | .bval => some s.bval.toNat
  | .din => some s.din.toNat
  | .phase => some s.phase.code.toNat
  | .ok => some s.ok.toNat
  | .cmderr => some s.cmderr.toNat
  | .rxrdy => some s.rxrdy.toNat
  | .crc => some s.crc.toNat
  | .crcLo => some s.crcLo.toNat
  | .crcHi => some s.crcHi.toNat
  | .expAddr => some s.expAddr.toNat
  | .expFc => some s.expFc.toNat
  | .expLen => some s.expLen.toNat
  | .err => some s.err.code.toNat
  | .payoff => some s.payoff.toNat
  | .paylen => some s.paylen.toNat
  | .txlen => some s.txlen.toNat
  | .rxlen => some s.rxlen.toNat
  | .wbcnt => some s.wbcnt.toNat
  | .wrcnt => some s.wrcnt.toNat
  | .status => some s.status.toNat
  | .txbuf i => (txByteAt s i).map BitVec.toNat
  | .rxbuf i => (rxByteAt s i).map BitVec.toNat

end Sys2Proof.Machine
end

