-- ==== Sys2Proof/Machine/Ops.lean ====
section
/-! DEFINITION. The operations the commands share: raising a failure (60_exceptions.md R258, R262;
41_encode.md R153), accepting a frame (R154), appending to a buffer, admission by phase, reset. -/

namespace Sys2Proof.Machine

/-- The three failure classes (60_exceptions.md). -/
inductive Failure where
  /-- `ExchangeFailure(cause)` (R258). -/
  | exchange (cause : ErrCode)
  /-- `EncodeRefusal(cause)` (41_encode.md R153). -/
  | encode (cause : ErrCode)
  /-- `CommandError` (R262). -/
  | command
deriving DecidableEq, Repr

/-- `raise` of each class: what it writes, and nothing else. No state is saved and control goes
nowhere; there is no return operation (R258, R260). -/
def raise (f : Failure) (s : State) : State :=
  match f with
  | .exchange cause =>
    { s with payoff := 0, paylen := 0, ok := false, err := cause, phase := .fail }
  | .encode cause =>
    { s with
      txbuf := [], txlen := 0, rxbuf := [], rxlen := 0
      expAddr := 0x00, expFc := 0x00, expLen := 0
      payoff := 0, paylen := 0, ok := false, err := cause, phase := .fail }
  | .command => { s with cmderr := true }

/-- Acceptance of a frame `f` built for `op` (41_encode.md R154): bytes of `TXBUF` beyond it and all
of `RXBUF` lose their value. -/
def acceptFrame (op : FunctionCode) (f : List Byte) (expectedLen : Nat) (s : State) : State :=
  { s with
    txbuf := f, txlen := BitVec.ofNat 9 f.length
    expAddr := s.dev, expFc := op.code, expLen := BitVec.ofNat 9 expectedLen
    rxbuf := [], rxlen := 0, payoff := 0, paylen := 0, ok := false, err := .none, phase := .await }

/-- The common shape of the eight `ENC.*` (R153, R154): check the operands, then refuse, or build the
frame from the payload of the address field and accept it. -/
def buildFrame (op : FunctionCode) (payload : Word → List Byte) (s : State) : State :=
  match operandCheck op s with
  | .error cause => raise (.encode cause) s
  | .ok a =>
    acceptFrame op (assemble s.dev op.code (payload a)) (op.expectedLen s.qty.toNat) s

/-- The four read requests (R156 to R159). -/
def buildRead (op : FunctionCode) (s : State) : State :=
  buildFrame op (fun a => plRead a s.qty) s

/-- Write single coil (R160). -/
def buildCoil (s : State) : State := buildFrame .wsc (fun a => plWsc a s.bval) s

/-- Write single register (R161). -/
def buildRegister (s : State) : State := buildFrame .wsr (fun a => plWsr a s.val) s

/-- Write multiple coils (R162): the values are `WBIT[0..WBCNT-1]`. -/
def buildCoils (s : State) : State :=
  buildFrame .wmc (fun a => plWmc a (s.wbit.take s.wbcnt.toNat)) s

/-- Write multiple registers (R163): the values are `WREG[0..WRCNT-1]`. -/
def buildRegisters (s : State) : State :=
  buildFrame .wmr (fun a => plWmr a (s.wreg.take s.wrcnt.toNat)) s

/-- `buf[i] <- v` where `i` is the first index without a value (10_state.md R48 to R51). -/
def storeAt {α : Type} (buf : List α) (i : Nat) (v : α) : List α := buf.take i ++ [v]

/-- `WB.CLR` (R170). -/
def clearBits (s : State) : State := { s with wbit := [], wbcnt := 0 }

/-- `WB.PUSH` (R171). -/
def pushBit (s : State) : State :=
  if s.wbcnt.toNat = Config.wbCap then raise .command s
  else { s with wbit := storeAt s.wbit s.wbcnt.toNat s.bval, wbcnt := s.wbcnt + 1 }

/-- `WR.CLR` (R172). -/
def clearRegs (s : State) : State := { s with wreg := [], wrcnt := 0 }

/-- `WR.PUSH` (R173). -/
def pushReg (s : State) : State :=
  if s.wrcnt.toNat = Config.wrCap then raise .command s
  else { s with wreg := storeAt s.wreg s.wrcnt.toNat s.val, wrcnt := s.wrcnt + 1 }

/-- `RX.BYTE` (42_validate.md R200): outside `AWAIT` a command error; bytes at index 260 and above are
counted and not stored; the count saturates. -/
def receiveByte (s : State) : State :=
  if s.phase = .await then
    { s with
      rxbuf :=
        if s.rxlen.toNat < Config.rxCap then storeAt s.rxbuf s.rxlen.toNat s.din else s.rxbuf
      rxlen := if s.rxlen.toNat < Config.rxlenMax then s.rxlen + 1 else s.rxlen }
  else raise .command s

/-- `RX.BYTES` (30_encoding.md R114): for each byte in order, `SET DIN` and `CMD RX.BYTE`. -/
def receiveBytes (bytes : List Byte) (s : State) : State :=
  bytes.foldl (fun t b => receiveByte { t with din := b }) s

/-- `WB.LOAD` (R114): `CMD WB.CLR`, then for each value `SET BVAL` and `CMD WB.PUSH`. -/
def loadBits (bits : List Bool) (s : State) : State :=
  bits.foldl (fun t b => pushBit { t with bval := b }) (clearBits s)

/-- `WR.LOAD` (R114): `CMD WR.CLR`, then for each value `SET VAL` and `CMD WR.PUSH`. -/
def loadRegs (vals : List Word) (s : State) : State :=
  vals.foldl (fun t v => pushReg { t with val := v }) (clearRegs s)

/-- Every piece of the block's state at its reset value (70_reset_and_hazards.md R290); the accesses
the host has still to make and what it has read are the host's and stay. -/
def resetBlock (s : State) : State := { State.reset with pending := s.pending, rdata := s.rdata }

end Sys2Proof.Machine
end

