-- ==== Sys2Proof/Machine/CrcCommands.lean ====
section
/-! DEFINITION. The streaming CRC commands (40_crc.md section 2). -/

namespace Sys2Proof.Machine

/-- `CRC.INIT` (R135). -/
def execCrcInit (s : State) : Host.Outcome State Fault Refusal :=
  .next { s with crc := Config.crcInit }

/-- `CRC.BYTE` (R136). -/
def execCrcByte (s : State) : Host.Outcome State Fault Refusal :=
  .next { s with crc := crcStep s.crc s.din }

end Sys2Proof.Machine
end

