-- ==== Sys2Proof/Machine/EncodeCommands.lean ====
section
/-! DEFINITION. The eight `ENC.*` commands (41_encode.md section 3) and the four commands of the
write-data buffers (section 4). -/

namespace Sys2Proof.Machine

/-- `ENC.RC` (R156). -/
def execEncRc (s : State) : Host.Outcome State Fault Refusal := .next (buildRead .rc s)

/-- `ENC.RDI` (R157). -/
def execEncRdi (s : State) : Host.Outcome State Fault Refusal := .next (buildRead .rdi s)

/-- `ENC.RHR` (R158). -/
def execEncRhr (s : State) : Host.Outcome State Fault Refusal := .next (buildRead .rhr s)

/-- `ENC.RIR` (R159). -/
def execEncRir (s : State) : Host.Outcome State Fault Refusal := .next (buildRead .rir s)

/-- `ENC.WSC` (R160). -/
def execEncWsc (s : State) : Host.Outcome State Fault Refusal := .next (buildCoil s)

/-- `ENC.WSR` (R161). -/
def execEncWsr (s : State) : Host.Outcome State Fault Refusal := .next (buildRegister s)

/-- `ENC.WMC` (R162). -/
def execEncWmc (s : State) : Host.Outcome State Fault Refusal := .next (buildCoils s)

/-- `ENC.WMR` (R163). -/
def execEncWmr (s : State) : Host.Outcome State Fault Refusal := .next (buildRegisters s)

/-- `WB.CLR` (R170). -/
def execWbClr (s : State) : Host.Outcome State Fault Refusal := .next (clearBits s)

/-- `WB.PUSH` (R171). -/
def execWbPush (s : State) : Host.Outcome State Fault Refusal := .next (pushBit s)

/-- `WR.CLR` (R172). -/
def execWrClr (s : State) : Host.Outcome State Fault Refusal := .next (clearRegs s)

/-- `WR.PUSH` (R173). -/
def execWrPush (s : State) : Host.Outcome State Fault Refusal := .next (pushReg s)

end Sys2Proof.Machine
end

