-- ==== Sys2Proof/Machine/RequestFrames.lean ====
section
/-! DEFINITION. The eight request frames as instructions: the pseudo-instruction of 30_encoding.md
R114 whose frame it is, that is, the host's operand writes and then the command that the row's rule
names (R115; log entry 4). -/

namespace Sys2Proof.Machine

/-- `SET DEV` and `SET REF`, the reference being the one whose address field is `first`. -/
def setTarget (op : FunctionCode) (addr : Byte) (first : Word) (s : State) : State :=
  { s with dev := addr, ref := refOfField op first }

/-- `REQ.RC`: `ENC.RC dev, addr, qty` (R114, R156). -/
def execReqRc (addr : Byte) (first qty : Word) (s : State) : Host.Outcome State Fault Refusal :=
  .next (buildRead .rc { setTarget .rc addr first s with qty := qty })

/-- `REQ.RDI`: `ENC.RDI dev, addr, qty` (R114, R157). -/
def execReqRdi (addr : Byte) (first qty : Word) (s : State) : Host.Outcome State Fault Refusal :=
  .next (buildRead .rdi { setTarget .rdi addr first s with qty := qty })

/-- `REQ.RHR`: `ENC.RHR dev, reg, qty` (R114, R158). -/
def execReqRhr (addr : Byte) (first qty : Word) (s : State) : Host.Outcome State Fault Refusal :=
  .next (buildRead .rhr { setTarget .rhr addr first s with qty := qty })

/-- `REQ.RIR`: `ENC.RIR dev, reg, qty` (R114, R159). -/
def execReqRir (addr : Byte) (first qty : Word) (s : State) : Host.Outcome State Fault Refusal :=
  .next (buildRead .rir { setTarget .rir addr first s with qty := qty })

/-- `REQ.WSC`: `ENC.WSC dev, addr, b` (R114, R160). -/
def execReqWsc (addr : Byte) (first : Word) (on : Bool) (s : State) :
    Host.Outcome State Fault Refusal :=
  .next (buildCoil { setTarget .wsc addr first s with bval := on })

/-- `REQ.WSR`: `ENC.WSR dev, reg, v` (R114, R161). -/
def execReqWsr (addr : Byte) (first value : Word) (s : State) :
    Host.Outcome State Fault Refusal :=
  .next (buildRegister { setTarget .wsr addr first s with val := value })

/-- `REQ.WMC`: `WB.LOAD` of the values, then `ENC.WMC dev, addr` (R114, R162). -/
def execReqWmc (addr : Byte) (first : Word) (bits : List Bool) (s : State) :
    Host.Outcome State Fault Refusal :=
  .next (buildCoils (setTarget .wmc addr first (loadBits bits s)))

/-- `REQ.WMR`: `WR.LOAD` of the values, then `ENC.WMR dev, reg` (R114, R163). -/
def execReqWmr (addr : Byte) (first : Word) (vals : List Word) (s : State) :
    Host.Outcome State Fault Refusal :=
  .next (buildRegisters (setTarget .wmr addr first (loadRegs vals s)))

end Sys2Proof.Machine
end

