-- ==== Sys2Proof/Machine/Validator.lean ====
section
/-! DEFINITION. The response validator: the pure function of 42_validate.md section 1. -/

namespace Sys2Proof.Machine

/-- What the checks of R196 come to. -/
inductive Verdict where
  /-- All checks pass; the payload is `n` bytes from index `off`. -/
  | accepted (off n : Nat)
  /-- The first check that fails has this cause. -/
  | rejected (cause : ErrCode)
  /-- The call lies outside the function's domain (R199). -/
  | outsideDomain
  /-- A byte the checks read has no value (10_state.md R51). -/
  | noValue
deriving DecidableEq, Repr

/-- Check 5 (R195) on a response of length `len`: the CRC over all bytes but the last two, low byte
first. -/
def checksumAgrees (r : List Byte) (len : Nat) : Bool :=
  decide (crc16 (r.take (len - 2)) = (r.drop (len - 2)).take 2)

/-- Checks 1 to 5 in the order of R196, for the response of length `len` whose first bytes are `r`.
Where `len` exceeds the number of bytes in `r` the bytes beyond are not known, and by R198 no check
that is reached reads one. -/
def runChecks (op : FunctionCode) (r : List Byte) (len : Nat) (ea : Byte) (el : Nat) : Verdict :=
  if len < el then .rejected .incompleteResponse
  else
    match r[0]?, r[1]?, r[2]? with
    | some b0, some b1, some b2 =>
      if b0 ≠ ea ∨ b1 ≠ op.code then .rejected .addressOrFunctionMismatch
      else if len ≠ op.claimedLength b2 then .rejected .lengthMismatch
      else if r.length < len then .noValue
      else if checksumAgrees r len then
        .accepted (if op.isRead then 3 else 2) (if op.isRead then b2.toNat else 2)
      else .rejected .checksumMismatch
    | _, _, _ => .noValue

/-- The checks with the domain of R199: one of the eight function codes and an expected length of at
least 5. -/
def checkResponse (r : List Byte) (len : Nat) (ea ef : Byte) (el : Nat) : Verdict :=
  match FunctionCode.ofByte ef with
  | none => .outsideDomain
  | some op => if el < 5 then .outsideDomain else runChecks op r len ea el

/-- `validate_and_extract(r, ea, ef, el)` (R190, R196): the payload or a cause; none outside the
domain (R199). -/
def validateAndExtract (r : List Byte) (ea ef : Byte) (el : Nat) :
    Option (Except ErrCode (List Byte)) :=
  match checkResponse r r.length ea ef el with
  | .accepted off n => some (.ok ((r.drop off).take n))
  | .rejected cause => some (.error cause)
  | .outsideDomain => none
  | .noValue => none

/-- `VALIDATE` (R201): the checks over `RXBUF` and the counted length `RXLEN`. -/
def validateResponse (s : State) : Host.Outcome State Fault Refusal :=
  if s.phase = .await then
    match checkResponse s.rxbuf s.rxlen.toNat s.expAddr s.expFc s.expLen.toNat with
    | .accepted off n =>
      .next { s with
        payoff := BitVec.ofNat 2 off, paylen := BitVec.ofNat 8 n
        ok := true, err := .none, phase := .done }
    | .rejected cause => .next (raise (.exchange cause) s)
    | .outsideDomain => .refused .validatorOutsideDomain
    | .noValue => .fault .byteWithoutValue
  else .next (raise .command s)

/-- `ABORT` (R202). -/
def abortExchange (s : State) : State :=
  if s.phase = .await then raise (.exchange .timeout) s else raise .command s

/-- One pass of the host's loop (43_host_session_api.md R222, R223) in which the transport has the
bytes `bytes`: they are pushed, and `VALIDATE` is issued if `RXRDY` is then 1. -/
def deliverResponse (bytes : List Byte) (s : State) : Host.Outcome State Fault Refusal :=
  let t := receiveBytes bytes s
  if t.rxrdy then validateResponse t else .next t

end Sys2Proof.Machine
end

