-- ==== Sys2Proof/Machine/ResponseCommands.lean ====
section
/-! DEFINITION. The commands of the response side (42_validate.md section 2), admitted in `AWAIT`
only. -/

namespace Sys2Proof.Machine

/-- `RX.BYTE` (R200). -/
def execRxByte (s : State) : Host.Outcome State Fault Refusal := .next (receiveByte s)

/-- `VALIDATE` (R201). -/
def execValidate (s : State) : Host.Outcome State Fault Refusal := validateResponse s

/-- `ABORT` (R202). -/
def execAbort (s : State) : Host.Outcome State Fault Refusal := .next (abortExchange s)

end Sys2Proof.Machine
end

