-- ==== Sys2Proof/Machine/ResponseFrames.lean ====
section
/-! DEFINITION. The eight response frames as instructions: the host delivers the frame's bytes and
issues `VALIDATE` once `RXRDY` is 1 (43_host_session_api.md R222, R223; log entry 5). Which check
parses the frame follows from the expected function code (42_validate.md R193, R194). -/

namespace Sys2Proof.Machine

/-- `RSP.RC` (R97, R193). -/
def execRspRc (addr : Byte) (data : List Byte) (crc : Word) (s : State) :
    Host.Outcome State Fault Refusal :=
  deliverResponse (readResponse addr FunctionCode.rc.code data crc) s

/-- `RSP.RDI` (R97, R193). -/
def execRspRdi (addr : Byte) (data : List Byte) (crc : Word) (s : State) :
    Host.Outcome State Fault Refusal :=
  deliverResponse (readResponse addr FunctionCode.rdi.code data crc) s

/-- `RSP.RHR` (R97, R193). -/
def execRspRhr (addr : Byte) (data : List Byte) (crc : Word) (s : State) :
    Host.Outcome State Fault Refusal :=
  deliverResponse (readResponse addr FunctionCode.rhr.code data crc) s

/-- `RSP.RIR` (R97, R193). -/
def execRspRir (addr : Byte) (data : List Byte) (crc : Word) (s : State) :
    Host.Outcome State Fault Refusal :=
  deliverResponse (readResponse addr FunctionCode.rir.code data crc) s

/-- `RSP.WSC` (R98, R194). -/
def execRspWsc (addr : Byte) (echo1 echo2 crc : Word) (s : State) :
    Host.Outcome State Fault Refusal :=
  deliverResponse (writeResponse addr FunctionCode.wsc.code echo1 echo2 crc) s

/-- `RSP.WSR` (R98, R194). -/
def execRspWsr (addr : Byte) (echo1 echo2 crc : Word) (s : State) :
    Host.Outcome State Fault Refusal :=
  deliverResponse (writeResponse addr FunctionCode.wsr.code echo1 echo2 crc) s

/-- `RSP.WMC` (R98, R194). -/
def execRspWmc (addr : Byte) (echo1 echo2 crc : Word) (s : State) :
    Host.Outcome State Fault Refusal :=
  deliverResponse (writeResponse addr FunctionCode.wmc.code echo1 echo2 crc) s

/-- `RSP.WMR` (R98, R194). -/
def execRspWmr (addr : Byte) (echo1 echo2 crc : Word) (s : State) :
    Host.Outcome State Fault Refusal :=
  deliverResponse (writeResponse addr FunctionCode.wmr.code echo1 echo2 crc) s

end Sys2Proof.Machine
end

