-- ==== Sys2Proof/Machine/SystemCommands.lean ====
section
/-! DEFINITION. The system commands `NOP` and `RESET` (43_host_session_api.md section 3). -/

namespace Sys2Proof.Machine

/-- `NOP` (R234). -/
def execNop (s : State) : Host.Outcome State Fault Refusal := .next s

/-- `RESET` (R235). -/
def execReset (s : State) : Host.Outcome State Fault Refusal := .next (resetBlock s)

end Sys2Proof.Machine
end

