-- ==== Sys2Proof/Machine/Dispatch.lean ====
section
/-! DEFINITION. The meaning of every instruction, one arm per constructor. -/

namespace Sys2Proof.Machine

/-- What an instruction does to the block. -/
def exec (i : Instr) (s : State) : Host.Outcome State Fault Refusal :=
  match i with
  | .nop => Sys2Proof.Machine.execNop s
  | .encRc => Sys2Proof.Machine.execEncRc s
  | .encRdi => Sys2Proof.Machine.execEncRdi s
  | .encRhr => Sys2Proof.Machine.execEncRhr s
  | .encRir => Sys2Proof.Machine.execEncRir s
  | .encWsc => Sys2Proof.Machine.execEncWsc s
  | .encWsr => Sys2Proof.Machine.execEncWsr s
  | .encWmc => Sys2Proof.Machine.execEncWmc s
  | .encWmr => Sys2Proof.Machine.execEncWmr s
  | .crcInit => Sys2Proof.Machine.execCrcInit s
  | .crcByte => Sys2Proof.Machine.execCrcByte s
  | .wbClr => Sys2Proof.Machine.execWbClr s
  | .wbPush => Sys2Proof.Machine.execWbPush s
  | .wrClr => Sys2Proof.Machine.execWrClr s
  | .wrPush => Sys2Proof.Machine.execWrPush s
  | .rxByte => Sys2Proof.Machine.execRxByte s
  | .validate => Sys2Proof.Machine.execValidate s
  | .abort => Sys2Proof.Machine.execAbort s
  | .reset => Sys2Proof.Machine.execReset s
  | .reqRc addr first qty => Sys2Proof.Machine.execReqRc addr first qty s
  | .reqRdi addr first qty => Sys2Proof.Machine.execReqRdi addr first qty s
  | .reqRhr addr first qty => Sys2Proof.Machine.execReqRhr addr first qty s
  | .reqRir addr first qty => Sys2Proof.Machine.execReqRir addr first qty s
  | .reqWsc addr first on => Sys2Proof.Machine.execReqWsc addr first on s
  | .reqWsr addr first value => Sys2Proof.Machine.execReqWsr addr first value s
  | .reqWmc addr first bits => Sys2Proof.Machine.execReqWmc addr first bits s
  | .reqWmr addr first vals => Sys2Proof.Machine.execReqWmr addr first vals s
  | .rspRc addr data crc => Sys2Proof.Machine.execRspRc addr data crc s
  | .rspRdi addr data crc => Sys2Proof.Machine.execRspRdi addr data crc s
  | .rspRhr addr data crc => Sys2Proof.Machine.execRspRhr addr data crc s
  | .rspRir addr data crc => Sys2Proof.Machine.execRspRir addr data crc s
  | .rspWsc addr e1 e2 crc => Sys2Proof.Machine.execRspWsc addr e1 e2 crc s
  | .rspWsr addr e1 e2 crc => Sys2Proof.Machine.execRspWsr addr e1 e2 crc s
  | .rspWmc addr e1 e2 crc => Sys2Proof.Machine.execRspWmc addr e1 e2 crc s
  | .rspWmr addr e1 e2 crc => Sys2Proof.Machine.execRspWmr addr e1 e2 crc s

end Sys2Proof.Machine
end

