-- ==== Sys2Proof/Machine/HostPort.lean ====
section
/-! DEFINITION. Serving one host access (20_memory.md R75, 30_encoding.md R91). -/

namespace Sys2Proof.Machine

/-- A code word the decoder rejects. An unassigned command code is the command error (30_encoding.md
R108). Bytes that are no response frame are delivered like any others: the block sees only bytes
(42_validate.md R200; log entry 11). Bytes that are no request frame of the block are refused
(30_encoding.md R109; log entry 10). -/
def rejectWord (x : CodeWord) (s : State) : Host.Outcome State Fault Refusal :=
  match x with
  | .cmd _ => .next (raise .command s)
  | .request _ => .refused .notARequestFrame
  | .response bytes => deliverResponse bytes s

/-- Issue of a code word (R91). -/
def issueWord (x : CodeWord) (s : State) : Host.Outcome State Fault Refusal :=
  match decode x with
  | some i => exec i s
  | none => rejectWord x s

/-- One access, complete before the next (20_memory.md R67, R70). A read changes nothing of the block
and is refused outside the valid range (R63). -/
def serve (a : HostAccess) (s : State) : Host.Outcome State Fault Refusal :=
  match a with
  | .write w => .next (hostWrite w s)
  | .read l =>
    match hostRead l s with
    | some v => .next { s with rdata := some v }
    | none => .refused .readOutsideValidRange
  | .issue x => issueWord x s
  | .hardReset => .next (resetBlock s)

/-- A sequence of accesses, each complete before the next (R70), up to the first that stops. -/
def serveAll : List HostAccess → State → Host.Outcome State Fault Refusal
  | [], s => .next s
  | a :: rest, s =>
    match serve a s with
    | .next t => serveAll rest t
    | .fault f => .fault f
    | .refused r => .refused r

/-- The next access of the host, oldest first (R70). With none to serve the block changes nothing
(70_reset_and_hazards.md R305; log entry 2). -/
def serveNext (s : State) : Host.Outcome State Fault Refusal :=
  match s.pending with
  | [] => .next s
  | a :: rest => serve a { s with pending := rest }

end Sys2Proof.Machine
end

