-- ==== Sys2Proof/Machine/Step.lean ====
section
/-! DEFINITION. One step of the machine, and the placing of a table word where the next step takes
it. -/

namespace Sys2Proof.Machine

/-- One step: the block serves the host's next access. -/
def step (s : State) : Host.Outcome State Fault Refusal := serveNext s

/-- `s` with the instruction of an opcode-table word as the host's next access (log entry 1). -/
def State.withFetchWord (s : State) (nbits w : Nat) : State :=
  { s with pending := .issue (tableCodeWord nbits w) :: s.pending }

end Sys2Proof.Machine
end

