-- ==== Sys2Proof/Machine/Assembler.lean ====
section
/-! DEFINITION. The statements and pseudo-instructions of 30_encoding.md R113 and R114, as sequences
of host accesses. A statement `SET`, `CMD` or `GET` is a `HostAccess`; each pseudo-instruction is
exactly the sequence its row of R114 shows. -/

namespace Sys2Proof.Machine.Asm

/-- `SET <reg>, <value>` (R113). -/
def set (w : OperandWrite) : HostAccess := .write w

/-- `CMD <mnemonic>` (R113): the code of the mnemonic in the command table. -/
def cmd (i : Instr) : HostAccess := .issue (encode i)

/-- `GET <loc>` (R113). -/
def get (l : Loc) : HostAccess := .read l

/-- `ENC.RC`, `ENC.RDI`, `ENC.RHR`, `ENC.RIR dev, ref, qty`, by the command `enc` (R114). -/
def encRead (enc : Instr) (dev : Byte) (ref : BitVec 17) (qty : Word) : List HostAccess :=
  [set (.dev dev), set (.ref ref), set (.qty qty), cmd enc]

/-- `ENC.WSC dev, addr, b` (R114). -/
def encWsc (dev : Byte) (ref : BitVec 17) (b : Bool) : List HostAccess :=
  [set (.dev dev), set (.ref ref), set (.bval b), cmd .encWsc]

/-- `ENC.WSR dev, reg, v` (R114). -/
def encWsr (dev : Byte) (ref : BitVec 17) (v : Word) : List HostAccess :=
  [set (.dev dev), set (.ref ref), set (.val v), cmd .encWsr]

/-- `WB.LOAD b0, ..., bn` (R114). -/
def wbLoad (bits : List Bool) : List HostAccess :=
  cmd .wbClr :: bits.flatMap (fun b => [set (.bval b), cmd .wbPush])

/-- `WR.LOAD v0, ..., vn` (R114). -/
def wrLoad (vals : List Word) : List HostAccess :=
  cmd .wrClr :: vals.flatMap (fun v => [set (.val v), cmd .wrPush])

/-- `ENC.WMC dev, addr` (R114). -/
def encWmc (dev : Byte) (ref : BitVec 17) : List HostAccess :=
  [set (.dev dev), set (.ref ref), cmd .encWmc]

/-- `ENC.WMR dev, reg` (R114). -/
def encWmr (dev : Byte) (ref : BitVec 17) : List HostAccess :=
  [set (.dev dev), set (.ref ref), cmd .encWmr]

/-- `RX.BYTES x0, ..., xn` (R114). -/
def rxBytes (bytes : List Byte) : List HostAccess :=
  bytes.flatMap (fun x => [set (.din x), cmd .rxByte])

/-- `CRC.OF x0, ..., xn` (R114). -/
def crcOf (bytes : List Byte) : List HostAccess :=
  cmd .crcInit :: bytes.flatMap (fun x => [set (.din x), cmd .crcByte])

end Sys2Proof.Machine.Asm
end

