-- ==== Sys2Proof/Machine/HostSession.lean ====
section
/-! DEFINITION. The host that drives the block (43_host_session_api.md R220 to R233): the session that
sends a frame and collects its response, and the eight operations over it. It is outside the block
(00_scope.md R6); nothing in `step` depends on it. -/

namespace Sys2Proof.Machine

/-- The block and what the host has passed to the transport (log entry 23). -/
structure Session where
  block : State
  /-- The arguments of the calls of the transport's `write`, oldest first (R221). -/
  sent : List (List Byte)
deriving DecidableEq, Repr

/-! ## Transport Session -/

/-- `TXBUF[0..TXLEN-1]`, read byte by byte in index order (R221). -/
def txFrame (s : State) : List Byte := (List.range s.txlen.toNat).filterMap (txByteAt s)

/-- `transport.write(TXBUF[0..TXLEN-1])` (R221, R225): one call. -/
def sendFrame (ses : Session) : Session := { ses with sent := ses.sent ++ [txFrame ses.block] }

/-- The loop of R225 (R222, R223). `polls` holds, for each poll the host makes before its deadline, the
bytes the transport then has; when the list ends the timer has passed `HOST_TIMEOUT` and the host
issues `ABORT` (log entry 17). -/
def waitLoop (polls : List (List Byte)) (s : State) : Host.Outcome State Fault Refusal :=
  match polls with
  | [] => .next (abortExchange s)
  | bytes :: rest =>
    let t := receiveBytes bytes s
    if t.rxrdy then validateResponse t else waitLoop rest t

/-- One exchange after an accepted `ENC.*` (R220, R225): the frame is written to the transport once,
never again, and the response is awaited. An exchange with device address 0 is refused
(70_reset_and_hazards.md R303, 93_implementation_defined.md U4; log entry 18). -/
def exchange (polls : List (List Byte)) (ses : Session) : Host.Outcome Session Fault Refusal :=
  if ses.block.expAddr = 0 then .refused .broadcastExchange
  else
    let sentOnce := sendFrame ses
    match waitLoop polls sentOnce.block with
    | .next t => .next { sentOnce with block := t }
    | .fault f => .fault f
    | .refused r => .refused r

/-- What an exchange returns (R220, R225): the payload window, or the failure and its cause. -/
def exchangeResult (s : State) : Except ErrCode (List Byte) :=
  if s.ok then .ok s.payload else .error s.err

/-! ## Decoding of results -/

/-- Register reads (R230): signed 16-bit big-endian numbers, one every two bytes. -/
def registerValues (payload : List Byte) : List Int := (be16Values payload).map BitVec.toInt

/-- Bit `i` of a packed payload (R231), where its byte exists. -/
def payloadBit (payload : List Byte) (i : Nat) : Option Bool :=
  payload[i / 8]?.map (fun b => b.getLsbD (i % 8))

/-- The first `quantity` bits of a payload (R231). -/
def unpackBits (payload : List Byte) (quantity : Nat) : List (Option Bool) :=
  (List.range quantity).map (payloadBit payload)

/-- The result of a write (R232). -/
def writeSucceeded (s : State) : Bool := s.ok

/-! ## Master API -/

/-- The eight operations (R233, 00_scope.md R3), each with the operands its `ENC.*` takes. -/
inductive Operation where
  | readCoils (dev : Byte) (ref : BitVec 17) (qty : Word)
  | readDiscreteInputs (dev : Byte) (ref : BitVec 17) (qty : Word)
  | readHoldingRegisters (dev : Byte) (ref : BitVec 17) (qty : Word)
  | readInputRegisters (dev : Byte) (ref : BitVec 17) (qty : Word)
  | writeSingleCoil (dev : Byte) (ref : BitVec 17) (on : Bool)
  | writeSingleRegister (dev : Byte) (ref : BitVec 17) (value : Word)
  | writeMultipleCoils (dev : Byte) (ref : BitVec 17) (bits : List Bool)
  | writeMultipleRegisters (dev : Byte) (ref : BitVec 17) (vals : List Word)
deriving DecidableEq, Repr

/-- Encode (R233): the statements that write the operands and issue the `ENC.*` of the operation
(30_encoding.md R114). DESIGN CHOICE (log entry 25): the spec does not say what a multiple write does
with more values than its buffer holds (2040 coils, 127 registers); here all of them are pushed, the
pushes into the full buffer set `CMDERR` (R171, R173), and the request carries the values that fit. -/
def Operation.statements : Operation → List HostAccess
  | .readCoils dev ref qty => Asm.encRead .encRc dev ref qty
  | .readDiscreteInputs dev ref qty => Asm.encRead .encRdi dev ref qty
  | .readHoldingRegisters dev ref qty => Asm.encRead .encRhr dev ref qty
  | .readInputRegisters dev ref qty => Asm.encRead .encRir dev ref qty
  | .writeSingleCoil dev ref on => Asm.encWsc dev ref on
  | .writeSingleRegister dev ref value => Asm.encWsr dev ref value
  | .writeMultipleCoils dev ref bits => Asm.wbLoad bits ++ Asm.encWmc dev ref
  | .writeMultipleRegisters dev ref vals => Asm.wrLoad vals ++ Asm.encWmr dev ref

/-- What an operation returns. A bit read returns the payload bytes as the reference does, beside the
requested bits unpacked from them (R231); a write returns a boolean (R232); a read that fails returns
the cause (R225; log entry 24). -/
inductive ApiResult where
  | bits (raw : List Byte) (unpacked : List (Option Bool))
  | registers (values : List Int)
  | written (success : Bool)
  | failed (cause : ErrCode)
deriving DecidableEq, Repr

/-- The result of a read whose payload is decoded by `decodePayload`. -/
def readResult (decodePayload : List Byte → ApiResult) (s : State) : ApiResult :=
  match exchangeResult s with
  | .ok payload => decodePayload payload
  | .error cause => .failed cause

/-- Decode (R233): the state after the exchange, read as the operation's result (R230 to R232). -/
def Operation.result (op : Operation) (s : State) : ApiResult :=
  match op with
  | .readCoils _ _ qty => readResult (fun p => .bits p (unpackBits p qty.toNat)) s
  | .readDiscreteInputs _ _ qty => readResult (fun p => .bits p (unpackBits p qty.toNat)) s
  | .readHoldingRegisters _ _ _ => readResult (fun p => .registers (registerValues p)) s
  | .readInputRegisters _ _ _ => readResult (fun p => .registers (registerValues p)) s
  | .writeSingleCoil _ _ _ => .written (writeSucceeded s)
  | .writeSingleRegister _ _ _ => .written (writeSucceeded s)
  | .writeMultipleCoils _ _ _ => .written (writeSucceeded s)
  | .writeMultipleRegisters _ _ _ => .written (writeSucceeded s)

/-- One operation (R233, R225): encode, exchange, decode. A refused request sends nothing. -/
def masterCall (op : Operation) (polls : List (List Byte)) (ses : Session) :
    Host.Outcome (Session × ApiResult) Fault Refusal :=
  match serveAll op.statements ses.block with
  | .next t =>
    if t.phase = .fail then .next ({ ses with block := t }, op.result t)
    else
      match exchange polls { ses with block := t } with
      | .next u => .next (u, op.result u.block)
      | .fault f => .fault f
      | .refused r => .refused r
  | .fault f => .fault f
  | .refused r => .refused r

end Sys2Proof.Machine
end

