-- ==== Sys2Proof/Safety.lean ====
section
/-! DEFINITION. What counts as a safe state: the invariant that the rules of 10_state.md put on the
registers and buffers together. -/

namespace Sys2Proof

open Sys2Proof.Machine

/-- A byte that is one of the eight function codes (30_encoding.md R96). -/
abbrev knownCode (b : Byte) : Prop := (FunctionCode.ofByte b).isSome = true

/-- The relations that hold of the block's state between commands. -/
structure StateInv (s : State) : Prop where
  /-- The buffers are in canonical form: within their capacities (20_memory.md R60), and as long as
  `TXLEN`, `min(RXLEN, RX_CAP)`, `WBCNT` and `WRCNT` say (R43 to R46, R48 to R51). -/
  buffers : Memory.wf s
  /-- `OK` is 1 exactly when `PHASE = DONE` (R33). -/
  okDone : s.ok = true ↔ s.phase = .done
  /-- `ERR` holds a cause exactly in `FAIL` (R31, R40). -/
  errFail : s.err ≠ .none ↔ s.phase = .fail
  /-- The only values of `EXP_FC` (R38). -/
  expFcKnown : s.expFc = 0 ∨ knownCode s.expFc
  /-- `EXP_LEN` is 0 to 260 (R39). -/
  expLenBound : s.expLen.toNat ≤ Config.rxCap
  /-- During and after an accepted exchange the expectations lie in the validator's domain
  (42_validate.md R199). -/
  expected : s.phase = .await ∨ s.phase = .done → knownCode s.expFc ∧ 5 ≤ s.expLen.toNat
  /-- What stands in `TXBUF` is a whole frame for the expectations latched with it (R50, 41_encode.md
  R150, R154). -/
  frame : s.txbuf = [] ∨ ∃ payload, s.txbuf = assemble s.expAddr s.expFc payload
  /-- A frame stands in `TXBUF` while a response is awaited and after it (R31). -/
  framePresent : s.phase = .await ∨ s.phase = .done → s.txbuf ≠ []
  /-- Outside `DONE` the payload window is empty (R41, R42). -/
  noWindow : s.phase ≠ .done → s.payoff = 0 ∧ s.paylen = 0
  /-- In `DONE` the payload window lies in the received bytes, before the CRC (R41, R42). -/
  window : s.phase = .done → s.payoff.toNat + s.paylen.toNat + 2 ≤ s.rxbuf.length
  /-- In `IDLE` nothing has been built or received (R31). -/
  idleEmpty : s.phase = .idle → s.txbuf = [] ∧ s.rxlen = 0 ∧ s.expLen = 0

/-- The 19 commands among the instructions (30_encoding.md R92). -/
def Instr.isCommand (i : Instr) : Prop := ∃ c, encode i = .cmd c

end Sys2Proof
end

