-- ==== Sys2Proof/Certificates/Slice0/Obligations.lean ====
section
/-! DEFINITION. The statements for the provers, each formalising numbered rules of spec/, and the few
state updates they are written in. -/

open Sys2Proof Sys2Proof.Machine

/-- `body ++ crc16(body)`, the CRC low byte first (41_encode.md R150, 40_crc.md R133). -/
def Sys2Proof.framed (body : List Byte) : List Byte :=
  body ++ [(crc16Value body).setWidth 8, (crc16Value body >>> 8).setWidth 8]

/-- The writes of acceptance (41_encode.md R154). -/
def Sys2Proof.afterAccept (s : State) (fc : Byte) (f : List Byte) (len : Nat) : State :=
  { s with
    txbuf := f, txlen := BitVec.ofNat 9 f.length
    expAddr := s.dev, expFc := fc, expLen := BitVec.ofNat 9 len
    rxbuf := [], rxlen := 0, payoff := 0, paylen := 0, ok := false, err := .none, phase := .await }

/-- The writes of a refusal (41_encode.md R153). -/
def Sys2Proof.afterRefusal (s : State) (cause : ErrCode) : State :=
  { s with
    txbuf := [], txlen := 0, rxbuf := [], rxlen := 0
    expAddr := 0x00, expFc := 0x00, expLen := 0
    payoff := 0, paylen := 0, ok := false, err := cause, phase := .fail }

/-- The writes of an exchange failure (60_exceptions.md R258). -/
def Sys2Proof.afterFailure (s : State) (cause : ErrCode) : State :=
  { s with payoff := 0, paylen := 0, ok := false, err := cause, phase := .fail }

/-! ## Reset, decoding and the step -/

/-- 10_state.md R53: the whole reset table; no byte of a frame buffer can be read. -/
def Obligations.ResetHoldsStatedValues : Prop :=
  let s := State.reset
  s.dev = 0x00 ∧ s.ref = 0 ∧ s.qty = 0 ∧ s.val = 0x0000 ∧ s.bval = false ∧ s.din = 0x00 ∧
  s.phase = .idle ∧ s.ok = false ∧ s.cmderr = false ∧ s.crc = 0xFFFF ∧
  s.expAddr = 0x00 ∧ s.expFc = 0x00 ∧ s.expLen = 0 ∧ s.err = .none ∧ s.payoff = 0 ∧ s.paylen = 0 ∧
  s.txlen = 0 ∧ s.rxlen = 0 ∧ s.wbcnt = 0 ∧ s.wrcnt = 0 ∧ s.wbit = [] ∧ s.wreg = [] ∧
  s.rxrdy = false ∧ s.status = 0x0000 ∧
  ∀ i, hostRead (.txbuf i) s = none ∧ hostRead (.rxbuf i) s = none

/-- The invariant of Safety.lean holds at reset. -/
def Obligations.ResetSatisfiesTheInvariant : Prop := StateInv State.reset

/-- Every step keeps the invariant, whatever access the host makes. -/
def Obligations.StepKeepsTheInvariant : Prop :=
  ∀ s t : State, StateInv s → step s = .next t → StateInv t

/-- Decoding an encoded well-formed instruction gives it back, for all 35 constructors and every
operand. -/
def Obligations.DecodeInvertsEncode : Prop :=
  ∀ i : Instr, i.wellFormed = true → decode (encode i) = some i

/-- The other direction: a code word that decodes is the encoding of what it decodes to, which is
well formed. Two code words never stand for one instruction. -/
def Obligations.EncodeInvertsDecode : Prop :=
  ∀ (x : CodeWord) (i : Instr), decode x = some i → i.wellFormed = true ∧ encode i = x

/-- Words written out from 30_encoding.md R92, R94, R95, R97 and R98 decode to what they stand for. -/
def Obligations.SpecWordsDecode : Prop :=
  decode (.cmd 0x00) = some .nop ∧ decode (.cmd 0x03) = some .encRhr ∧
  decode (.cmd 0x0F) = some .encWmc ∧ decode (.cmd 0x21) = some .crcByte ∧
  decode (.cmd 0x33) = some .wrPush ∧ decode (.cmd 0x41) = some .validate ∧
  decode (.cmd 0x7F) = some .reset ∧
  decode (.request [0x11, 0x03, 0x00, 0x6B, 0x00, 0x03, 0x76, 0x87])
    = some (.reqRhr 0x11 0x006B 0x0003) ∧
  decode (.request [0x11, 0x05, 0x00, 0xAC, 0xFF, 0x00, 0x4E, 0x8B])
    = some (.reqWsc 0x11 0x00AC true) ∧
  decode (.response [0x01, 0x03, 0x04, 0x30, 0x39, 0x1A, 0x85, 0xEF, 0xFD])
    = some (.rspRhr 0x01 [0x30, 0x39, 0x1A, 0x85] 0xFDEF) ∧
  decode (.response [0x11, 0x06, 0x12, 0x34, 0x56, 0x78, 0xF0, 0x6E])
    = some (.rspWsr 0x11 0x1234 0x5678 0x6EF0)

/-- 30_encoding.md R108: an unassigned command code sets `CMDERR` and changes nothing else. -/
def Obligations.UnassignedCodeRaisesCommandError : Prop :=
  ∀ (s : State) (c : Byte) (rest : List HostAccess),
    s.pending = .issue (.cmd c) :: rest →
    (0x07 ≤ c.toNat ∧ c.toNat ≤ 0x0E) ∨ (0x11 ≤ c.toNat ∧ c.toNat ≤ 0x1F) ∨
      (0x22 ≤ c.toNat ∧ c.toNat ≤ 0x2F) ∨ (0x34 ≤ c.toNat ∧ c.toNat ≤ 0x3F) ∨
      (0x43 ≤ c.toNat ∧ c.toNat ≤ 0x7E) ∨ (0x80 ≤ c.toNat ∧ c.toNat ≤ 0xFF) →
    step s = .next { s with pending := rest, cmderr := true }

/-- A step on a code word that decodes runs exactly that instruction, once the access has left the
queue. For a command this is 30_encoding.md R91. The queue (log entry 1), that a request or response
word is one access at all (log entries 4, 5) and how the three kinds of word are told apart (log
entry 6) are the model's. -/
def Obligations.StepRunsTheDecodedInstruction : Prop :=
  ∀ (s : State) (x : CodeWord) (i : Instr) (rest : List HostAccess),
    s.pending = .issue x :: rest → decode x = some i →
    step s = exec i { s with pending := rest }

/-- A command placed by `withFetchWord` is what the next step runs, in every state. -/
def Obligations.PlacedCommandIsRunNext : Prop :=
  ∀ (s : State) (c : Byte) (i : Instr), encode i = .cmd c →
    decodeTableWord 8 c.toNat = some i ∧ step (s.withFetchWord 8 c.toNat) = exec i s

/-- 20_memory.md R75, R67: a `HostWrite` writes its register and nothing else. -/
def Obligations.HostWriteSetsOneRegister : Prop :=
  ∀ (s : State) (rest : List HostAccess),
    (∀ v, s.pending = .write (.dev v) :: rest → step s = .next { s with pending := rest, dev := v }) ∧
    (∀ v, s.pending = .write (.ref v) :: rest → step s = .next { s with pending := rest, ref := v }) ∧
    (∀ v, s.pending = .write (.qty v) :: rest → step s = .next { s with pending := rest, qty := v }) ∧
    (∀ v, s.pending = .write (.val v) :: rest → step s = .next { s with pending := rest, val := v }) ∧
    (∀ v, s.pending = .write (.bval v) :: rest →
      step s = .next { s with pending := rest, bval := v }) ∧
    (∀ v, s.pending = .write (.din v) :: rest → step s = .next { s with pending := rest, din := v })

/-- 20_memory.md R75, R67: a `HostRead` of a register or view returns its value and changes nothing of
the block. -/
def Obligations.HostReadReturnsRegister : Prop :=
  ∀ (s : State) (rest : List HostAccess),
    ∀ p ∈ [(Loc.dev, s.dev.toNat), (.ref, s.ref.toNat), (.qty, s.qty.toNat), (.val, s.val.toNat),
        (.bval, s.bval.toNat), (.din, s.din.toNat), (.phase, s.phase.code.toNat), (.ok, s.ok.toNat),
        (.cmderr, s.cmderr.toNat), (.rxrdy, s.rxrdy.toNat), (.crc, s.crc.toNat),
        (.crcLo, s.crc.toNat % 256), (.crcHi, s.crc.toNat / 256), (.expAddr, s.expAddr.toNat),
        (.expFc, s.expFc.toNat), (.expLen, s.expLen.toNat), (.err, s.err.code.toNat),
        (.payoff, s.payoff.toNat), (.paylen, s.paylen.toNat), (.txlen, s.txlen.toNat),
        (.rxlen, s.rxlen.toNat), (.wbcnt, s.wbcnt.toNat), (.wrcnt, s.wrcnt.toNat),
        (.status, s.status.toNat)],
      s.pending = .read p.1 :: rest →
      step s = .next { s with pending := rest, rdata := some p.2 }

/-- 20_memory.md R63: a byte of a frame buffer is read inside the valid range, and refused outside; a
host write changes neither buffer. -/
def Obligations.HostReadOfBufferHasValidRange : Prop :=
  ∀ (s : State) (rest : List HostAccess) (i : Nat), StateInv s →
    (s.pending = .read (.txbuf i) :: rest →
      (∀ h : i < s.txbuf.length, i < s.txlen.toNat ∧
        step s = .next { s with pending := rest, rdata := some (s.txbuf[i]).toNat }) ∧
      (s.txlen.toNat ≤ i → step s = .refused .readOutsideValidRange)) ∧
    (s.pending = .read (.rxbuf i) :: rest →
      (∀ h : i < s.rxbuf.length, i < min s.rxlen.toNat 260 ∧
        step s = .next { s with pending := rest, rdata := some (s.rxbuf[i]).toNat }) ∧
      (min s.rxlen.toNat 260 ≤ i → step s = .refused .readOutsideValidRange)) ∧
    (∀ (w : OperandWrite) (t : State), s.pending = .write w :: rest → step s = .next t →
      t.txbuf = s.txbuf ∧ t.rxbuf = s.rxbuf)

/-- With no access to serve the block changes nothing (the model's reading of 20_memory.md R70 and
70_reset_and_hazards.md R305, log entry 2). -/
def Obligations.NoAccessNoChange : Prop :=
  ∀ s : State, s.pending = [] → step s = .next s

/-- 70_reset_and_hazards.md R290, 43_host_session_api.md R235: the reset input and the `RESET` command
have one effect, every piece of the block's state at its reset value. That the reset input is an
access, and that what the host has still to issue and has read stays, is the model's reading (log
entry 15). -/
def Obligations.ResetInputAndResetCommandAgree : Prop :=
  ∀ (s : State) (rest : List HostAccess),
    exec .reset s = .next { State.reset with pending := s.pending, rdata := s.rdata } ∧
    (s.pending = .hardReset :: rest →
      step s = .next { State.reset with pending := rest, rdata := s.rdata })

/-- 43_host_session_api.md R234. -/
def Obligations.NopLeavesTheStateUnchanged : Prop := ∀ s : State, exec .nop s = .next s

/-! ## The CRC Engine -/

/-- 40_crc.md R131 to R133: the step algorithm, the fold from 0xFFFF, the low byte first. -/
def Obligations.CrcIsComputedAsStated : Prop :=
  (∀ (acc : Word) (b : Byte), crcStep acc b =
    Nat.iterate (fun a : Word => if a.getLsbD 0 then (a >>> 1) ^^^ 0xA001#16 else a >>> 1) 8
      (acc ^^^ b.setWidth 16)) ∧
  crc16Value [] = 0xFFFF#16 ∧
  (∀ (s : List Byte) (b : Byte), crc16Value (s ++ [b]) = crcStep (crc16Value s) b) ∧
  ∀ s : List Byte,
    crc16 s = [(crc16Value s).setWidth 8, (crc16Value s >>> 8).setWidth 8]

/-- 40_crc.md R134, its clauses (a) to (f) in order. Clause (e) is stated for frames of every length. -/
def Obligations.CrcLaws : Prop :=
  (crc16Value [] = 0xFFFF ∧ crc16 [] = [0xFF, 0xFF]) ∧
  (∀ s t : List Byte, s = t → crc16 s = crc16 t) ∧
  (∀ s t : List Byte, crc16Value (s ++ t) = t.foldl crcStep (crc16Value s)) ∧
  (∀ s : List Byte, crc16Value (s ++ crc16 s) = 0x0000) ∧
  (∀ (s : List Byte) (k j : Nat) (h : k < (s ++ crc16 s).length), j < 8 →
    let r := (s ++ crc16 s).set k ((s ++ crc16 s)[k] ^^^ (1#8 <<< j))
    crc16 (r.take s.length) ≠ r.drop s.length) ∧
  (crc16Value [0x00] = 0x40BF ∧ crc16Value [0x00] = crcStep (crc16Value []) 0x00)

/-- 40_crc.md R138: the accumulator after each byte of the source's example. -/
def Obligations.CrcTraceOfTheSourceExample : Prop :=
  crcStep 0xFFFF 0x01 = 0x807E ∧ crcStep 0x807E 0x03 = 0x2140 ∧ crcStep 0x2140 0x00 = 0xF020 ∧
  crcStep 0xF020 0x00 = 0xD8F1 ∧ crcStep 0xD8F1 0x00 = 0x8419 ∧ crcStep 0x8419 0x01 = 0x0A84 ∧
  crc16Value [0x01, 0x03, 0x00, 0x00, 0x00, 0x01] = 0x0A84 ∧
  crc16 [0x01, 0x03, 0x00, 0x00, 0x00, 0x01] = [0x84, 0x0A] ∧
  (List.range 8).map (fun n => crcShifts (n + 1) 0xFFFE)
    = [0x7FFF, 0x9FFE, 0x4FFF, 0x87FE, 0x43FF, 0x81FE, 0x40FF, 0x807E]

/-- 40_crc.md R135, R136: the two streaming commands, a run of them over a sequence of bytes, and the two
views of the accumulator. -/
def Obligations.CrcCommandsStreamTheCrc : Prop :=
  (∀ s : State, exec .crcInit s = .next { s with crc := 0xFFFF }) ∧
  (∀ s : State, exec .crcByte s = .next { s with crc := crcStep s.crc s.din }) ∧
  (∀ (s : State) (bytes : List Byte) (rest : List HostAccess),
    core.run (1 + 2 * bytes.length) { s with pending := Asm.crcOf bytes ++ rest } =
      .next { s with
        pending := rest, din := bytes.getLastD s.din, crc := crc16Value bytes }) ∧
  ∀ (s : State) (bytes : List Byte), s.crc = crc16Value bytes → [s.crcLo, s.crcHi] = crc16 bytes

/-- 40_crc.md R137: no `ENC.*` and no `VALIDATE` reads or writes `CRC`. -/
def Obligations.CodecNeitherReadsNorWritesCrc : Prop :=
  ∀ i ∈ [Instr.encRc, .encRdi, .encRhr, .encRir, .encWsc, .encWsr, .encWmc, .encWmr, .validate],
    ∀ s t : State, exec i s = .next t →
      t.crc = s.crc ∧ ∀ c : Word, exec i { s with crc := c } = .next { t with crc := c }

/-! ## The encoder -/

/-- 41_encode.md R156, R157: `ENC.RC` and `ENC.RDI`, with their refusals in order. -/
def Obligations.ReadBitsRequestIsBuilt : Prop :=
  ∀ p ∈ [(Instr.encRc, (0x01 : Byte)), (.encRdi, 0x02)], ∀ s : State,
    let a : Word := BitVec.ofNat 16 s.ref.toNat
    (s.ref.toNat ≤ 0xFFFF → s.qty.toNat ≤ 2040 →
      exec p.1 s = .next (afterAccept s p.2
        (framed [s.dev, p.2, hiByte a, loByte a, hiByte s.qty, loByte s.qty])
        (5 + (s.qty.toNat + 7) / 8))) ∧
    (0xFFFF < s.ref.toNat → exec p.1 s = .next (afterRefusal s .refAboveRange)) ∧
    (s.ref.toNat ≤ 0xFFFF → 2040 < s.qty.toNat →
      exec p.1 s = .next (afterRefusal s .quantityOutOfRange))

/-- 41_encode.md R158, R159: `ENC.RHR` and `ENC.RIR`, with their refusals in order. -/
def Obligations.ReadRegistersRequestIsBuilt : Prop :=
  ∀ p ∈ [(Instr.encRhr, (0x03 : Byte), 40001), (.encRir, 0x04, 30001)], ∀ s : State,
    let a : Word := BitVec.ofNat 16 (s.ref.toNat - p.2.2)
    (p.2.2 ≤ s.ref.toNat → s.ref.toNat ≤ p.2.2 + 0xFFFF → s.qty.toNat ≤ 127 →
      exec p.1 s = .next (afterAccept s p.2.1
        (framed [s.dev, p.2.1, hiByte a, loByte a, hiByte s.qty, loByte s.qty])
        (5 + 2 * s.qty.toNat))) ∧
    (s.ref.toNat < p.2.2 → exec p.1 s = .next (afterRefusal s .refBelowOffset)) ∧
    (p.2.2 + 0xFFFF < s.ref.toNat → exec p.1 s = .next (afterRefusal s .refAboveRange)) ∧
    (p.2.2 ≤ s.ref.toNat → s.ref.toNat ≤ p.2.2 + 0xFFFF → 127 < s.qty.toNat →
      exec p.1 s = .next (afterRefusal s .quantityOutOfRange))

/-- 41_encode.md R160, R161: `ENC.WSC` and `ENC.WSR`. -/
def Obligations.SingleWriteRequestIsBuilt : Prop :=
  ∀ s : State,
    (let a : Word := BitVec.ofNat 16 s.ref.toNat
     (s.ref.toNat ≤ 0xFFFF →
       exec .encWsc s = .next (afterAccept s 0x05
         (framed [s.dev, 0x05, hiByte a, loByte a, if s.bval then 0xFF else 0x00, 0x00]) 8)) ∧
     (0xFFFF < s.ref.toNat → exec .encWsc s = .next (afterRefusal s .refAboveRange))) ∧
    (let a : Word := BitVec.ofNat 16 (s.ref.toNat - 40001)
     (40001 ≤ s.ref.toNat → s.ref.toNat ≤ 105536 →
       exec .encWsr s = .next (afterAccept s 0x06
         (framed [s.dev, 0x06, hiByte a, loByte a, hiByte s.val, loByte s.val]) 8)) ∧
     (s.ref.toNat < 40001 → exec .encWsr s = .next (afterRefusal s .refBelowOffset)) ∧
     (105536 < s.ref.toNat → exec .encWsr s = .next (afterRefusal s .refAboveRange)))

/-- 41_encode.md R162, R163: `ENC.WMC` and `ENC.WMR`, whose values are all of `WBIT` and `WREG`. -/
def Obligations.MultipleWriteRequestIsBuilt : Prop :=
  ∀ s : State, StateInv s →
    (let a : Word := BitVec.ofNat 16 s.ref.toNat
     let q : Word := BitVec.ofNat 16 s.wbcnt.toNat
     (s.ref.toNat ≤ 0xFFFF →
       exec .encWmc s = .next (afterAccept s 0x0F
         (framed ([s.dev, 0x0F, hiByte a, loByte a, hiByte q, loByte q,
           BitVec.ofNat 8 ((s.wbcnt.toNat + 7) / 8)] ++ pack s.wbit)) 8)) ∧
     (0xFFFF < s.ref.toNat → exec .encWmc s = .next (afterRefusal s .refAboveRange))) ∧
    (let a : Word := BitVec.ofNat 16 (s.ref.toNat - 40001)
     let q : Word := BitVec.ofNat 16 s.wrcnt.toNat
     (40001 ≤ s.ref.toNat → s.ref.toNat ≤ 105536 →
       exec .encWmr s = .next (afterAccept s 0x10
         (framed ([s.dev, 0x10, hiByte a, loByte a, hiByte q, loByte q,
           BitVec.ofNat 8 (2 * s.wrcnt.toNat)] ++ s.wreg.flatMap be16)) 8)) ∧
     (s.ref.toNat < 40001 → exec .encWmr s = .next (afterRefusal s .refBelowOffset)) ∧
     (105536 < s.ref.toNat → exec .encWmr s = .next (afterRefusal s .refAboveRange)))

/-- 41_encode.md R166: the frame is a function of the operands alone, so nothing of an earlier exchange
enters it; and issuing the same `ENC.*` twice gives the same frame, indeed the same state. -/
def Obligations.FrameIsAFunctionOfTheOperands : Prop :=
  ∀ i ∈ [Instr.encRc, .encRdi, .encRhr, .encRir, .encWsc, .encWsr, .encWmc, .encWmr],
    (∀ s t : State, exec i s = .next t → exec i t = .next t) ∧
    ∀ s s' t t' : State,
      s.dev = s'.dev → s.ref = s'.ref → s.qty = s'.qty → s.val = s'.val → s.bval = s'.bval →
      s.wbit = s'.wbit → s.wbcnt = s'.wbcnt → s.wreg = s'.wreg → s.wrcnt = s'.wrcnt →
      exec i s = .next t → exec i s' = .next t' →
      t.txbuf = t'.txbuf ∧ t.txlen = t'.txlen ∧ t.expAddr = t'.expAddr ∧ t.expFc = t'.expFc ∧
      t.expLen = t'.expLen ∧ t.err = t'.err ∧ t.phase = t'.phase

/-- 41_encode.md R164: the length of every accepted request frame, which `TXBUF` can hold. -/
def Obligations.RequestLengthIsBounded : Prop :=
  ∀ s t : State, StateInv s → t.phase = .await →
    (∀ i ∈ [Instr.encRc, .encRdi, .encRhr, .encRir, .encWsc, .encWsr],
      exec i s = .next t → t.txlen = 8 ∧ t.txbuf.length = 8) ∧
    (exec .encWmc s = .next t → t.txbuf.length = t.txlen.toNat ∧
      t.txlen.toNat = 9 + (s.wbcnt.toNat + 7) / 8 ∧ t.txlen.toNat ≤ 264) ∧
    (exec .encWmr s = .next t → t.txbuf.length = t.txlen.toNat ∧
      t.txlen.toNat = 9 + 2 * s.wrcnt.toNat ∧ t.txlen.toNat ≤ 263)

/-- 30_encoding.md R105: value `8k + j` is bit `j` of data byte `k`; the bits beyond the last value are
0; the data has `ceil_div(quantity, 8)` bytes; bit `i` of a response's data in this layout is value
`i`. -/
def Obligations.PackedBitsAreLsbFirst : Prop :=
  ∀ bits : List Bool,
    (pack bits).length = (bits.length + 7) / 8 ∧
    (∀ (k j : Nat) (h : k < (pack bits).length), j < 8 →
      (pack bits)[k].getLsbD j = bits.getD (8 * k + j) false) ∧
    ∀ (i : Nat) (h : i < bits.length), payloadBit (pack bits) i = some bits[i]

/-- 30_encoding.md R106: value `k` stands at data bytes `2k` and `2k + 1`, high byte first; a response's
data in this layout is read as the same values. -/
def Obligations.RegisterDataIsBigEndian : Prop :=
  ∀ vals : List Word,
    (∀ (k : Nat) (h : k < vals.length),
      (vals.flatMap be16)[2 * k]? = some ((vals[k] >>> 8).setWidth 8) ∧
      (vals.flatMap be16)[2 * k + 1]? = some (vals[k].setWidth 8)) ∧
    be16Values (vals.flatMap be16) = vals

/-- 41_encode.md R170, R172: the clears. -/
def Obligations.ClearEmptiesTheWriteBuffer : Prop :=
  ∀ s : State,
    exec .wbClr s = .next { s with wbcnt := 0, wbit := [] } ∧
    exec .wrClr s = .next { s with wrcnt := 0, wreg := [] }

/-- 41_encode.md R171, R173: the pushes append one value; a push into a full buffer sets `CMDERR` and
nothing else. -/
def Obligations.PushAppendsOneValue : Prop :=
  ∀ s : State, StateInv s →
    (s.wbcnt.toNat < 2040 → exec .wbPush s = .next
      { s with wbit := s.wbit ++ [s.bval], wbcnt := BitVec.ofNat 11 (s.wbcnt.toNat + 1) }) ∧
    (s.wbcnt.toNat = 2040 → exec .wbPush s = .next { s with cmderr := true }) ∧
    (s.wrcnt.toNat < 127 → exec .wrPush s = .next
      { s with wreg := s.wreg ++ [s.val], wrcnt := BitVec.ofNat 7 (s.wrcnt.toNat + 1) }) ∧
    (s.wrcnt.toNat = 127 → exec .wrPush s = .next { s with cmderr := true })

/-! ## The validator and the response commands -/

/-- 42_validate.md R196 and R199: the checks in their order, the first failure deciding, the payload
only when all pass, no result outside the domain. -/
def Obligations.ValidatorMakesTheChecksInOrder : Prop :=
  ∀ (r : List Byte) (ea ef : Byte) (el : Nat),
    let L := r.length
    let read : Prop := ef = 0x01 ∨ ef = 0x02 ∨ ef = 0x03 ∨ ef = 0x04
    let write : Prop := ef = 0x05 ∨ ef = 0x06 ∨ ef = 0x0F ∨ ef = 0x10
    ((¬ (read ∨ write) ∨ el < 5) → validateAndExtract r ea ef el = none) ∧
    (read ∨ write → 5 ≤ el →
      (L < el → validateAndExtract r ea ef el = some (.error .incompleteResponse)) ∧
      (el ≤ L → ∀ b0 b1 b2 : Byte, r[0]? = some b0 → r[1]? = some b1 → r[2]? = some b2 →
        (b0 ≠ ea ∨ b1 ≠ ef →
          validateAndExtract r ea ef el = some (.error .addressOrFunctionMismatch)) ∧
        (b0 = ea → b1 = ef → (read ∧ L ≠ 5 + b2.toNat ∨ write ∧ L ≠ 8) →
          validateAndExtract r ea ef el = some (.error .lengthMismatch)) ∧
        (b0 = ea → b1 = ef → (read ∧ L = 5 + b2.toNat ∨ write ∧ L = 8) →
          crc16 (r.take (L - 2)) ≠ r.drop (L - 2) →
          validateAndExtract r ea ef el = some (.error .checksumMismatch)) ∧
        (b0 = ea → b1 = ef → read → L = 5 + b2.toNat → crc16 (r.take (L - 2)) = r.drop (L - 2) →
          validateAndExtract r ea ef el = some (.ok ((r.drop 3).take b2.toNat))) ∧
        (b0 = ea → b1 = ef → write → L = 8 → crc16 (r.take (L - 2)) = r.drop (L - 2) →
          validateAndExtract r ea ef el = some (.ok ((r.drop 2).take 2)))))

/-- 42_validate.md R204, R196: flipping any one bit of a response that passes makes validation fail,
with the cause that the position of the bit gives. -/
def Obligations.SingleBitCorruptionIsRejected : Prop :=
  ∀ (r : List Byte) (ea ef : Byte) (el : Nat) (data : List Byte),
    validateAndExtract r ea ef el = some (.ok data) →
    ∀ (k j : Nat) (h : k < r.length), j < 8 →
      validateAndExtract (r.set k (r[k] ^^^ (1#8 <<< j))) ea ef el =
        some (.error
          (if k < 2 then .addressOrFunctionMismatch
           else if k = 2 ∧ ef.toNat ≤ 4 then .lengthMismatch
           else .checksumMismatch))

/-- 42_validate.md R200: `RX.BYTE`. -/
def Obligations.ReceivedByteIsAppended : Prop :=
  ∀ s : State, StateInv s →
    (s.phase = .await → s.rxlen.toNat < 260 → exec .rxByte s = .next
      { s with rxbuf := s.rxbuf ++ [s.din], rxlen := BitVec.ofNat 16 (s.rxlen.toNat + 1) }) ∧
    (s.phase = .await → 260 ≤ s.rxlen.toNat → s.rxlen.toNat < 0xFFFF → exec .rxByte s = .next
      { s with rxlen := BitVec.ofNat 16 (s.rxlen.toNat + 1) }) ∧
    (s.phase = .await → s.rxlen.toNat = 0xFFFF → exec .rxByte s = .next s) ∧
    (s.phase ≠ .await → exec .rxByte s = .next { s with cmderr := true })

/-- 42_validate.md R201: `VALIDATE` records the result of the validator on any sequence of length
`RXLEN` that begins with the bytes of `RXBUF`; outside `AWAIT` it is a command error. In a state that
meets the invariant the validator always has a result. -/
def Obligations.ValidateRecordsTheResult : Prop :=
  ∀ s : State, StateInv s →
    (s.phase = .await → ∀ r : List Byte, r.length = s.rxlen.toNat → r.take 260 = s.rxbuf →
      (∀ data, validateAndExtract r s.expAddr s.expFc s.expLen.toNat = some (.ok data) →
        exec .validate s = .next { s with
          payoff := if s.expFc.toNat ≤ 4 then 3 else 2
          paylen := BitVec.ofNat 8 data.length
          ok := true, err := .none, phase := .done }) ∧
      (∀ cause, validateAndExtract r s.expAddr s.expFc s.expLen.toNat = some (.error cause) →
        exec .validate s = .next (afterFailure s cause)) ∧
      validateAndExtract r s.expAddr s.expFc s.expLen.toNat ≠ none) ∧
    (s.phase ≠ .await → exec .validate s = .next { s with cmderr := true })

/-- 42_validate.md R193 to R195, R201: `VALIDATE` accepts a received frame that has the expected
address and function code, its right length and its right CRC, and exposes its data, or for a write
confirmation its echoed address. -/
def Obligations.ValidateAcceptsASoundResponse : Prop :=
  ∀ s : State, StateInv s → s.phase = .await →
    (∀ data : List Byte, s.expFc.toNat ≤ 4 → data.length ≤ 255 →
      s.expLen.toNat ≤ 5 + data.length →
      s.rxbuf = framed ([s.expAddr, s.expFc, BitVec.ofNat 8 data.length] ++ data) →
      s.rxlen.toNat = 5 + data.length →
      ∃ t, exec .validate s = .next t ∧ t.payload = data ∧
        t = { s with payoff := 3, paylen := BitVec.ofNat 8 data.length, ok := true, err := .none,
                     phase := .done }) ∧
    (∀ b2 b3 b4 b5 : Byte, 5 ≤ s.expFc.toNat → s.expLen.toNat ≤ 8 →
      s.rxbuf = framed [s.expAddr, s.expFc, b2, b3, b4, b5] → s.rxlen.toNat = 8 →
      ∃ t, exec .validate s = .next t ∧ t.payload = [b2, b3] ∧
        t = { s with payoff := 2, paylen := 2, ok := true, err := .none, phase := .done })

/-- 42_validate.md R202: `ABORT`. -/
def Obligations.AbortRecordsTheTimeout : Prop :=
  ∀ s : State,
    (s.phase = .await → exec .abort s = .next (afterFailure s .timeout)) ∧
    (s.phase ≠ .await → exec .abort s = .next { s with cmderr := true })

/-- 42_validate.md R198, 92_eei_decisions.md D8: the block agrees with the validator on the whole
sequence of bytes received, however long it is, although it stores 260 bytes and its count
saturates. -/
def Obligations.FiniteResponseBufferIsExact : Prop :=
  ∀ (s : State) (r : List Byte) (rest : List HostAccess),
    StateInv s → s.phase = .await → s.rxlen = 0 →
    ∃ t : State,
      core.run (2 * r.length + 1)
        { s with pending := Asm.rxBytes r ++ .issue (.cmd 0x41) :: rest } = .next t ∧
      t.pending = rest ∧
      (∀ data, validateAndExtract r s.expAddr s.expFc s.expLen.toNat = some (.ok data) →
        t.phase = .done ∧ t.ok = true ∧ t.err = .none ∧ t.payload = data) ∧
      (∀ cause, validateAndExtract r s.expAddr s.expFc s.expLen.toNat = some (.error cause) →
        t.phase = .fail ∧ t.ok = false ∧ t.err = cause ∧ t.payload = [])

/-! ## Request and response frames -/

/-- The four read requests as frames (30_encoding.md R94, R114; log entry 4): the operand registers
hold the fields, and `TXBUF` holds exactly the bytes of the frame; a quantity beyond the limit of
41_encode.md R151 is refused. -/
def Obligations.ReadRequestFrameIsReproduced : Prop :=
  ∀ (s : State) (addr : Byte) (first qty : Word),
    (∀ p ∈ [(Instr.reqRc addr first qty, (0x01 : Byte)), (.reqRdi addr first qty, 0x02)],
      let u : State := { s with dev := addr, ref := BitVec.ofNat 17 first.toNat, qty := qty }
      let f := framed [addr, p.2, hiByte first, loByte first, hiByte qty, loByte qty]
      encode p.1 = .request f ∧
      (qty.toNat ≤ 2040 →
        exec p.1 s = .next (afterAccept u p.2 f (5 + (qty.toNat + 7) / 8))) ∧
      (2040 < qty.toNat → exec p.1 s = .next (afterRefusal u .quantityOutOfRange))) ∧
    (∀ p ∈ [(Instr.reqRhr addr first qty, (0x03 : Byte), 40001),
        (.reqRir addr first qty, 0x04, 30001)],
      let u : State :=
        { s with dev := addr, ref := BitVec.ofNat 17 (first.toNat + p.2.2), qty := qty }
      let f := framed [addr, p.2.1, hiByte first, loByte first, hiByte qty, loByte qty]
      encode p.1 = .request f ∧
      (qty.toNat ≤ 127 → exec p.1 s = .next (afterAccept u p.2.1 f (5 + 2 * qty.toNat))) ∧
      (127 < qty.toNat → exec p.1 s = .next (afterRefusal u .quantityOutOfRange)))

/-- The two single writes as frames (30_encoding.md R94, R102, R103, R114; log entry 4). -/
def Obligations.SingleWriteFrameIsReproduced : Prop :=
  ∀ (s : State) (addr : Byte) (first value : Word) (on : Bool),
    (let f := framed [addr, 0x05, hiByte first, loByte first, if on then 0xFF else 0x00, 0x00]
     encode (.reqWsc addr first on) = .request f ∧
     exec (.reqWsc addr first on) s = .next (afterAccept
       { s with dev := addr, ref := BitVec.ofNat 17 first.toNat, bval := on } 0x05 f 8)) ∧
    (let f := framed [addr, 0x06, hiByte first, loByte first, hiByte value, loByte value]
     encode (.reqWsr addr first value) = .request f ∧
     exec (.reqWsr addr first value) s = .next (afterAccept
       { s with dev := addr, ref := BitVec.ofNat 17 (first.toNat + 40001), val := value } 0x06 f 8))

/-- The two multiple writes as frames (30_encoding.md R95, R114; log entry 4): the values also stand in
the write-data buffer afterwards. -/
def Obligations.MultipleWriteFrameIsReproduced : Prop :=
  ∀ (s : State) (addr : Byte) (first : Word),
    (∀ bits : List Bool, bits.length ≤ 2040 →
      ∃ f, encode (.reqWmc addr first bits) = .request f ∧
        exec (.reqWmc addr first bits) s = .next (afterAccept
          { s with
            dev := addr, ref := BitVec.ofNat 17 first.toNat, bval := bits.getLastD s.bval
            wbit := bits, wbcnt := BitVec.ofNat 11 bits.length } 0x0F f 8)) ∧
    (∀ vals : List Word, vals.length ≤ 127 →
      ∃ f, encode (.reqWmr addr first vals) = .request f ∧
        exec (.reqWmr addr first vals) s = .next (afterAccept
          { s with
            dev := addr, ref := BitVec.ofNat 17 (first.toNat + 40001), val := vals.getLastD s.val
            wreg := vals, wrcnt := BitVec.ofNat 7 vals.length } 0x10 f 8))

/-- Each request frame does what its pseudo-instruction of 30_encoding.md R114 does, statement by
statement, as a run of the host's accesses. That a request frame is executed so, and in one step, is
the model's choice (log entries 4, 20). -/
def Obligations.RequestFrameRefinesItsStatements : Prop :=
  ∀ (s : State) (rest : List HostAccess) (addr : Byte) (first x : Word) (on : Bool)
    (bits : List Bool) (vals : List Word),
    let bitRef : BitVec 17 := BitVec.ofNat 17 first.toNat
    let holdingRef : BitVec 17 := BitVec.ofNat 17 (first.toNat + 40001)
    let inputRef : BitVec 17 := BitVec.ofNat 17 (first.toNat + 30001)
    let runs := fun (stmts : List HostAccess) (i : Instr) =>
      core.run stmts.length { s with pending := stmts ++ rest } = exec i { s with pending := rest }
    runs (Asm.encRead .encRc addr bitRef x) (.reqRc addr first x) ∧
    runs (Asm.encRead .encRdi addr bitRef x) (.reqRdi addr first x) ∧
    runs (Asm.encRead .encRhr addr holdingRef x) (.reqRhr addr first x) ∧
    runs (Asm.encRead .encRir addr inputRef x) (.reqRir addr first x) ∧
    runs (Asm.encWsc addr bitRef on) (.reqWsc addr first on) ∧
    runs (Asm.encWsr addr holdingRef x) (.reqWsr addr first x) ∧
    runs (Asm.wbLoad bits ++ Asm.encWmc addr bitRef) (.reqWmc addr first bits) ∧
    runs (Asm.wrLoad vals ++ Asm.encWmr addr holdingRef) (.reqWmr addr first vals)

/-- 43_host_session_api.md R222, R223: a response frame does what the host's loop does with its bytes:
each is written to `DIN` and pushed, and `VALIDATE` follows when `RXRDY` is 1. That a response frame is
executed so, and in one step, is the model's choice (log entries 5, 20). -/
def Obligations.ResponseFrameRefinesItsStatements : Prop :=
  ∀ (s : State) (rest : List HostAccess) (i : Instr) (f : List Byte), encode i = .response f →
    ∃ t : State,
      core.run (2 * f.length) { s with pending := Asm.rxBytes f ++ rest } = .next t ∧
      t.pending = rest ∧
      exec i { s with pending := rest } = (if t.rxrdy then exec .validate t else .next t)

/-- 30_encoding.md R97, 42_validate.md R193: a read response with the expected address and function
code, enough data and the right CRC, delivered into an empty `RXBUF`, ends the exchange in `DONE` with
its data as the payload. -/
def Obligations.ReadResponseFrameCompletes : Prop :=
  ∀ (s : State) (data : List Byte) (crc : Word), StateInv s → s.phase = .await → s.rxlen = 0 →
    data.length ≤ 255 → s.expLen.toNat ≤ 5 + data.length →
    ∀ p ∈ [(Instr.rspRc s.expAddr data crc, (0x01 : Byte)), (.rspRdi s.expAddr data crc, 0x02),
        (.rspRhr s.expAddr data crc, 0x03), (.rspRir s.expAddr data crc, 0x04)],
      s.expFc = p.2 →
      crc = crc16Value ([s.expAddr, p.2, BitVec.ofNat 8 data.length] ++ data) →
      ∃ t, exec p.1 s = .next t ∧ t.payload = data ∧
        t = { s with
          din := hiByte crc
          rxbuf := framed ([s.expAddr, p.2, BitVec.ofNat 8 data.length] ++ data)
          rxlen := BitVec.ofNat 16 (5 + data.length)
          payoff := 3, paylen := BitVec.ofNat 8 data.length
          ok := true, err := .none, phase := .done }

/-- 30_encoding.md R98, 42_validate.md R194: the same for a write confirmation, whose payload is the
echoed address; the second echoed field is not compared with anything. -/
def Obligations.WriteResponseFrameCompletes : Prop :=
  ∀ (s : State) (e1 e2 crc : Word), StateInv s → s.phase = .await → s.rxlen = 0 →
    s.expLen.toNat ≤ 8 →
    ∀ p ∈ [(Instr.rspWsc s.expAddr e1 e2 crc, (0x05 : Byte)),
        (.rspWsr s.expAddr e1 e2 crc, 0x06), (.rspWmc s.expAddr e1 e2 crc, 0x0F),
        (.rspWmr s.expAddr e1 e2 crc, 0x10)],
      let body := [s.expAddr, p.2, hiByte e1, loByte e1, hiByte e2, loByte e2]
      s.expFc = p.2 → crc = crc16Value body →
      ∃ t, exec p.1 s = .next t ∧ t.payload = [hiByte e1, loByte e1] ∧
        t = { s with
          din := hiByte crc, rxbuf := framed body, rxlen := 8
          payoff := 2, paylen := 2, ok := true, err := .none, phase := .done }

/-- 42_validate.md R200, 60_exceptions.md R262: delivered outside `AWAIT`, a response frame of any kind
leaves only `DIN` and `CMDERR` changed. -/
def Obligations.ResponseFrameOutsideAwaitIsCommandError : Prop :=
  ∀ (s : State) (i : Instr) (f : List Byte), encode i = .response f → s.phase ≠ .await →
    exec i s = .next { s with din := f.getLastD s.din, cmderr := true }

/-- The source's round trip (95_test_vectors.md E2), for every device but 0, register and list of values
that the rules admit: request, response, decode gives back the values. That device 0 takes no part is
93_implementation_defined.md U4 (70_reset_and_hazards.md R303); that the two frames are instructions is
the model's choice (log entries 4, 5). -/
def Obligations.RegisterReadRoundTrips : Prop :=
  ∀ (s : State) (addr : Byte) (first : Word) (vals : List Word), addr ≠ 0 → vals.length ≤ 127 →
    let data := vals.flatMap be16
    let q : Word := BitVec.ofNat 16 vals.length
    let crc := fun fc : Byte => crc16Value ([addr, fc, BitVec.ofNat 8 data.length] ++ data)
    ∀ p ∈ [(Instr.reqRhr addr first q, Instr.rspRhr addr data (crc 0x03)),
        (.reqRir addr first q, .rspRir addr data (crc 0x04))],
      ∃ t u : State, exec p.1 s = .next t ∧ exec p.2 t = .next u ∧ u.phase = .done ∧
        u.expLen = u.rxlen.setWidth 9 ∧ registerValues u.payload = vals.map BitVec.toInt

/-- The same for the bit reads (30_encoding.md R105, 43_host_session_api.md R231): the host unpacks the
bits the responder packed (device 0 takes no part: U4; log entries 4, 5). -/
def Obligations.BitReadRoundTrips : Prop :=
  ∀ (s : State) (addr : Byte) (first : Word) (bits : List Bool), addr ≠ 0 → bits.length ≤ 2040 →
    let data := pack bits
    let q : Word := BitVec.ofNat 16 bits.length
    let crc := fun fc : Byte => crc16Value ([addr, fc, BitVec.ofNat 8 data.length] ++ data)
    ∀ p ∈ [(Instr.reqRc addr first q, Instr.rspRc addr data (crc 0x01)),
        (.reqRdi addr first q, .rspRdi addr data (crc 0x02))],
      ∃ t u : State, exec p.1 s = .next t ∧ exec p.2 t = .next u ∧ u.phase = .done ∧
        unpackBits u.payload bits.length = bits.map some

/-! ## The whole machine -/

/-- 10_state.md R32: how `PHASE` changes, command by command. -/
def Obligations.PhaseChangesOnlyAsTheTableSays : Prop :=
  (∀ i ∈ [Instr.encRc, .encRdi, .encRhr, .encRir, .encWsc, .encWsr, .encWmc, .encWmr],
    ∀ s t : State, exec i s = .next t →
      (t.err = .none ∧ t.txbuf ≠ [] ∧ t.phase = .await) ∨
      (t.err ≠ .none ∧ t.txbuf = [] ∧ t.phase = .fail)) ∧
  (∀ s t : State, exec .rxByte s = .next t → t.phase = s.phase) ∧
  (∀ s t : State, exec .validate s = .next t →
    (s.phase = .await → (t.ok = true ∧ t.phase = .done) ∨ (t.ok = false ∧ t.phase = .fail)) ∧
    (s.phase ≠ .await → t.phase = s.phase)) ∧
  (∀ s t : State, exec .abort s = .next t →
    (s.phase = .await → t.phase = .fail) ∧ (s.phase ≠ .await → t.phase = s.phase)) ∧
  (∀ s t : State, exec .reset s = .next t → t.phase = .idle) ∧
  (∀ i ∈ [Instr.nop, .crcInit, .crcByte, .wbClr, .wbPush, .wrClr, .wrPush],
    ∀ s t : State, exec i s = .next t → t.phase = s.phase) ∧
  (∀ (s t : State) (c : Byte) (rest : List HostAccess), s.pending = .issue (.cmd c) :: rest →
    decode (.cmd c) = none → step s = .next t → t.phase = s.phase)

/-- 60_exceptions.md R264: in `FAIL` a command is an `ENC.*`, which ends in `AWAIT` with `ERR = NONE` or
in `FAIL` with a new cause, or a reset, or it leaves `FAIL`, its cause and the empty window as they
are. -/
def Obligations.FailuresDoNotNest : Prop :=
  ∀ (i : Instr) (s t : State), i.isCommand → s.phase = .fail → exec i s = .next t →
    (i ∈ [Instr.encRc, .encRdi, .encRhr, .encRir, .encWsc, .encWsr, .encWmc, .encWmr] ∧
      (t.phase = .await ∧ t.err = .none ∨
        t.phase = .fail ∧ t.err ∈ [.refBelowOffset, .refAboveRange, .quantityOutOfRange])) ∨
    (i = .reset ∧ t.phase = .idle) ∨
    (i ∉ [Instr.encRc, .encRdi, .encRhr, .encRir, .encWsc, .encWsr, .encWmc, .encWmr] ∧
      t.phase = .fail ∧ t.err = s.err ∧ t.ok = s.ok ∧ t.payoff = s.payoff ∧ t.paylen = s.paylen)

/-- 10_state.md R34: what sets `CMDERR`, and that a reset and nothing else clears it. -/
def Obligations.CommandErrorIsSticky : Prop :=
  State.reset.cmderr = false ∧
  (∀ (i : Instr) (s t : State), i.isCommand → i ≠ .reset → exec i s = .next t →
    (t.cmderr = true ↔ s.cmderr = true ∨
      ((i = .rxByte ∨ i = .validate ∨ i = .abort) ∧ s.phase ≠ .await) ∨
      (i = .wbPush ∧ s.wbcnt.toNat = 2040) ∨ (i = .wrPush ∧ s.wrcnt.toNat = 127))) ∧
  (∀ s : State, ∃ t, exec .reset s = .next t ∧ t.cmderr = false) ∧
  (∀ (s : State) (rest : List HostAccess), s.pending = .hardReset :: rest →
    ∃ t, step s = .next t ∧ t.cmderr = false) ∧
  (∀ s t : State, step s = .next t → s.cmderr = true → t.cmderr = false →
    s.pending.head? = some .hardReset ∨ s.pending.head? = some (.issue (.cmd 0x7F))) ∧
  (∀ (s : State) (c : Byte) (rest : List HostAccess), s.pending = .issue (.cmd c) :: rest →
    decode (.cmd c) = none → step s = .next { s with pending := rest, cmderr := true })

/-- 10_state.md R21 to R26, R20: no command but `RESET` writes an operand register, and none touches
what is the host's. -/
def Obligations.CommandsDoNotWriteOperands : Prop :=
  ∀ (i : Instr) (s t : State), i.isCommand → i ≠ .reset → exec i s = .next t →
    t.dev = s.dev ∧ t.ref = s.ref ∧ t.qty = s.qty ∧ t.val = s.val ∧ t.bval = s.bval ∧
    t.din = s.din ∧ t.pending = s.pending ∧ t.rdata = s.rdata

/-- 10_state.md R45, R46, R48, R49: the write-data buffers and their counts change only by their own
push and clear commands and by `RESET`. -/
def Obligations.WriteBuffersChangeOnlyByTheirCommands : Prop :=
  ∀ (i : Instr) (s t : State), i.isCommand → i ≠ .reset → exec i s = .next t →
    (i ≠ .wbClr → i ≠ .wbPush → t.wbit = s.wbit ∧ t.wbcnt = s.wbcnt) ∧
    (i ≠ .wrClr → i ≠ .wrPush → t.wreg = s.wreg ∧ t.wrcnt = s.wrcnt)

/-- 20_memory.md R73: a built frame and its expectations change only by an `ENC.*` (a command or a
request frame) or a reset. -/
def Obligations.BuiltFrameIsImmutable : Prop :=
  ∀ s t : State, step s = .next t →
    s.pending.head? ≠ some .hardReset →
    (∀ x i, s.pending.head? = some (.issue x) → decode x = some i →
      i ∉ [Instr.encRc, .encRdi, .encRhr, .encRir, .encWsc, .encWsr, .encWmc, .encWmr, .reset] ∧
      ∀ f, encode i ≠ .request f) →
    t.txbuf = s.txbuf ∧ t.txlen = s.txlen ∧ t.expAddr = s.expAddr ∧ t.expFc = s.expFc ∧
    t.expLen = s.expLen

/-- 10_state.md R50, R51, read one byte at a time: a command that builds no frame leaves every byte of
`TXBUF`; one that is also not `RX.BYTE` leaves every byte of `RXBUF`; `RX.BYTE` stores `DIN` at index
`RXLEN` if that is below 260 and leaves every other byte. -/
def Obligations.BufferBytesFrame : Prop :=
  ∀ (i : Instr) (s t : State), StateInv s → i.isCommand → exec i s = .next t →
    i ∉ [Instr.encRc, .encRdi, .encRhr, .encRir, .encWsc, .encWsr, .encWmc, .encWmr, .reset] →
    (∀ k, txByteAt t k = txByteAt s k) ∧
    (i ≠ .rxByte → ∀ k, rxByteAt t k = rxByteAt s k) ∧
    (i = .rxByte → s.phase = .await →
      (s.rxlen.toNat < 260 → rxByteAt t s.rxlen.toNat = some s.din) ∧
      ∀ k, k ≠ s.rxlen.toNat → rxByteAt t k = rxByteAt s k)

/-- 10_state.md R47, R35, R31, 60_exceptions.md R251: the fields of `STATUS`. -/
def Obligations.StatusPacksTheFlags : Prop :=
  State.reset.status = 0x0000 ∧
  ∀ s : State,
    s.status.extractLsb' 0 2 =
      (match s.phase with | .idle => 0 | .await => 1 | .done => 2 | .fail => 3) ∧
    s.status.getLsbD 2 = s.ok ∧
    (s.status.getLsbD 3 = true ↔ s.phase = .await ∧ s.expLen.toNat ≤ s.rxlen.toNat) ∧
    s.status.getLsbD 4 = s.cmderr ∧
    s.status.extractLsb' 5 3 = 0 ∧
    s.status.extractLsb' 8 4 =
      (match s.err with
       | .none => 0 | .timeout => 1 | .incompleteResponse => 2 | .addressOrFunctionMismatch => 3
       | .lengthMismatch => 4 | .checksumMismatch => 5 | .refBelowOffset => 8 | .refAboveRange => 9
       | .quantityOutOfRange => 10) ∧
    s.status.extractLsb' 12 4 = 0

/-! ## The host -/

/-- 43_host_session_api.md R230: the host's reading of a register payload. -/
def Obligations.RegisterPayloadIsSignedBigEndian : Prop :=
  ∀ p : List Byte,
    (registerValues p).length = p.length / 2 ∧
    ∀ (k : Nat) (h : 2 * k + 1 < p.length),
      (registerValues p)[k]? = some
        (let v : Int := p[2 * k].toNat * 256 + p[2 * k + 1].toNat
         if v < 32768 then v else v - 65536)

/-- 43_host_session_api.md R223, R225, 95_test_vectors.md E5: when the transport never delivers a byte,
the host's exchange ends in `TIMEOUT`, after however many polls (the list of polls is log entry 17). -/
def Obligations.SilentTransportEndsInTimeout : Prop :=
  ∀ (ses : Session) (n : Nat), ses.block.expAddr ≠ 0 → ses.block.phase = .await →
    ses.block.rxlen.toNat < ses.block.expLen.toNat →
    ∃ t : Session, exchange (List.replicate n []) ses = .next t ∧
      t.block = afterFailure ses.block .timeout

/-- 43_host_session_api.md R223: the exchange always ends, and as the session validates no short buffer
it never ends in `INCOMPLETE_RESPONSE` (the list of polls is log entry 17; device 0 is refused: U4). -/
def Obligations.SessionNeverValidatesAShortBuffer : Prop :=
  ∀ (ses : Session) (polls : List (List Byte)), StateInv ses.block → ses.block.phase = .await →
    ses.block.expAddr ≠ 0 →
    ∃ t : Session, exchange polls ses = .next t ∧ t.block.err ≠ .incompleteResponse ∧
      (t.block.phase = .done ∨ t.block.phase = .fail)

/-- 43_host_session_api.md R221: an exchange writes the built frame to the transport in one call, and
makes no other call, whatever the polls find. With device address 0 there is no exchange
(93_implementation_defined.md U4, 70_reset_and_hazards.md R303; log entry 18). -/
def Obligations.ExchangeSendsTheFrameOnce : Prop :=
  ∀ (polls : List (List Byte)) (ses : Session),
    (StateInv ses.block → ses.block.phase = .await → ses.block.expAddr ≠ 0 →
      ∃ t : Session, exchange polls ses = .next t ∧ t.sent = ses.sent ++ [ses.block.txbuf] ∧
        t.block.txbuf = ses.block.txbuf) ∧
    (ses.block.expAddr = 0 → exchange polls ses = .refused .broadcastExchange)

/-- The device and the function code of an operation (30_encoding.md R96). -/
def Sys2Proof.operationTarget : Operation → Byte × Byte
  | .readCoils dev _ _ => (dev, 0x01)
  | .readDiscreteInputs dev _ _ => (dev, 0x02)
  | .readHoldingRegisters dev _ _ => (dev, 0x03)
  | .readInputRegisters dev _ _ => (dev, 0x04)
  | .writeSingleCoil dev _ _ => (dev, 0x05)
  | .writeSingleRegister dev _ _ => (dev, 0x06)
  | .writeMultipleCoils dev _ _ => (dev, 0x0F)
  | .writeMultipleRegisters dev _ _ => (dev, 0x10)

/-- What a read operation makes of the outcome of its exchange. -/
def Sys2Proof.readOutcome (decodePayload : List Byte → ApiResult) :
    Except ErrCode (List Byte) → ApiResult
  | .ok payload => decodePayload payload
  | .error cause => .failed cause

/-- What each operation makes of the outcome of its exchange (43_host_session_api.md R230 to R232; the
form of the results is the model's choice, log entry 24). -/
def Sys2Proof.operationOutcome (op : Operation) (v : Except ErrCode (List Byte)) : ApiResult :=
  let bitsOf := fun (qty : Word) (p : List Byte) =>
    ApiResult.bits p ((List.range qty.toNat).map fun i => p[i / 8]?.map fun b => b.getLsbD (i % 8))
  match op with
  | .readCoils _ _ qty => readOutcome (bitsOf qty) v
  | .readDiscreteInputs _ _ qty => readOutcome (bitsOf qty) v
  | .readHoldingRegisters _ _ _ => readOutcome (fun p => .registers (registerValues p)) v
  | .readInputRegisters _ _ _ => readOutcome (fun p => .registers (registerValues p)) v
  | .writeSingleCoil _ _ _ => .written v.isOk
  | .writeSingleRegister _ _ _ => .written v.isOk
  | .writeMultipleCoils _ _ _ => .written v.isOk
  | .writeMultipleRegisters _ _ _ => .written v.isOk

/-- 43_host_session_api.md R233, R225: each of the eight operations encodes, exchanges and decodes. Its
statements always complete. A refused request sends nothing and fails with its cause. An accepted one
for a device other than 0 sends its frame once, and then: if too few bytes arrive in time it fails with
`TIMEOUT`; if `last` is the poll that completes the expected length, the result is the decoding of the
validator's verdict on all bytes received by then. The model's choices in it are the list of polls (log
entry 17), the record of what is sent (log entry 23), the form of the results (raw bytes beside the
unpacked bits, an absent bit where no byte carries it, a cause for a failed read and only a boolean for
a failed write: log entry 24), and a multiple write of more values than its buffer holds (log
entry 25); that device 0 is refused is U4 (log entry 18). -/
def Obligations.OperationEncodesExchangesDecodes : Prop :=
  ∀ (op : Operation) (polls : List (List Byte)) (ses : Session), StateInv ses.block →
    ∃ t : State, serveAll op.statements ses.block = .next t ∧
      ((t.phase = .fail ∧
          masterCall op polls ses = .next ({ ses with block := t }, operationOutcome op (.error t.err))) ∨
       (t.phase = .await ∧ (t.expAddr, t.expFc) = operationTarget op ∧
        ((operationTarget op).1 = 0 → masterCall op polls ses = .refused .broadcastExchange) ∧
        ((operationTarget op).1 ≠ 0 →
          (polls.flatten.length < t.expLen.toNat → ∃ u : Session,
            masterCall op polls ses = .next (u, operationOutcome op (.error .timeout)) ∧
            u.sent = ses.sent ++ [t.txbuf]) ∧
          (∀ (before : List (List Byte)) (last : List Byte) (after : List (List Byte)),
            polls = before ++ last :: after → before.flatten.length < t.expLen.toNat →
            t.expLen.toNat ≤ (before.flatten ++ last).length →
            ∃ (u : Session) (v : Except ErrCode (List Byte)),
              validateAndExtract (before.flatten ++ last) t.expAddr t.expFc t.expLen.toNat = some v ∧
              masterCall op polls ses = .next (u, operationOutcome op v) ∧
              u.sent = ses.sent ++ [t.txbuf]))))
end

