-- ==== Sys2Proof/Laws/Bytes.lean ====
section
/-! SUPPORT. Byte order, packing and unpacking: each function's own laws. -/

namespace Sys2Proof

theorem be16_length (v : Word) : (be16 v).length = 2 := rfl
theorem le16_length (v : Word) : (le16 v).length = 2 := rfl

theorem word16_hiByte_loByte (v : Word) : word16 (hiByte v) (loByte v) = v := by
  apply BitVec.eq_of_getLsbD_eq
  intro i h
  simp only [word16, hiByte, loByte, BitVec.getLsbD_or, BitVec.getLsbD_shiftLeft, BitVec.getLsbD_setWidth,
    BitVec.getLsbD_ushiftRight]
  by_cases h8 : i < 8
  · simp [h, h8]
  · have e : 8 + (i - 8) = i := by omega
    have h9 : i - 8 < 8 := by omega
    have h10 : i - 8 < 16 := by omega
    simp [h, h8, e, h9, h10]
theorem hiByte_word16 (hi lo : Byte) : hiByte (word16 hi lo) = hi := by
  apply BitVec.eq_of_getLsbD_eq
  intro i h
  have h1 : 8 + i < 16 := by omega
  have h2 : ¬ 8 + i < 8 := by omega
  have h3 : lo.getLsbD (8 + i) = false := BitVec.getLsbD_of_ge _ _ (by omega)
  simp only [word16, hiByte, BitVec.getLsbD_or, BitVec.getLsbD_shiftLeft, BitVec.getLsbD_setWidth,
    BitVec.getLsbD_ushiftRight]
  simp [h, h1]
  omega
theorem loByte_word16 (hi lo : Byte) : loByte (word16 hi lo) = lo := by
  apply BitVec.eq_of_getLsbD_eq
  intro i h
  have h1 : i < 16 := by omega
  simp only [word16, loByte, BitVec.getLsbD_or, BitVec.getLsbD_shiftLeft, BitVec.getLsbD_setWidth]
  simp [h, h1]

theorem packN_length (n : Nat) (bits : List Bool) : (packN n bits).length = n := by
  induction n generalizing bits with
  | zero => rfl
  | succ n ih => simp [packN, ih]
theorem pack_length (bits : List Bool) : (pack bits).length = ceilDiv bits.length 8 :=
  packN_length _ _

theorem getLsbD_packByte (bits : List Bool) (j : Nat) (h : j < 8) :
    (packByte bits).getLsbD j = bits.getD j false := by
  induction bits generalizing j with
  | nil => simp [packByte]
  | cons b bs ih =>
    have hp : packByte (b :: bs) = (packByte bs <<< 1) ||| (if b then 1 else 0) := rfl
    rw [hp]
    cases j with
    | zero => cases b <;> simp
    | succ j =>
      have : (if b then (1 : Byte) else 0).getLsbD (j+1) = false := by
        cases b <;> simp [BitVec.getLsbD_one]
      rw [BitVec.getLsbD_or, this, BitVec.getLsbD_shiftLeft]
      simp only [h, Nat.add_one_sub_one, ih j (by omega)]
      simp

theorem getLsbD_packN (n : Nat) (bits : List Bool) (k j : Nat) (h : k < (packN n bits).length) (hj : j < 8) :
    (packN n bits)[k].getLsbD j = bits.getD (8 * k + j) false := by
  induction n generalizing bits k with
  | zero => simp [packN] at h
  | succ n ih =>
    cases k with
    | zero =>
      simp only [packN, List.getElem_cons_zero, getLsbD_packByte _ _ hj]
      simp [List.getD_eq_getElem?_getD, hj]
    | succ k =>
      simp only [packN, List.length_cons] at h
      simp only [packN, List.getElem_cons_succ]
      rw [ih _ _ (by omega)]
      simp only [List.getD_eq_getElem?_getD, List.getElem?_drop]
      congr 2; omega

theorem getLsbD_pack (bits : List Bool) (k j : Nat) (h : k < (pack bits).length) (hj : j < 8) :
    (pack bits)[k].getLsbD j = bits.getD (8 * k + j) false :=
  getLsbD_packN _ bits k j h hj

theorem byteBits_length (b : Byte) : (byteBits b).length = 8 := rfl
theorem byteBits_getElem (b : Byte) (j : Nat) (h : j < 8) : (byteBits b)[j]? = some (b.getLsbD j) := by
  unfold byteBits
  interval_cases j <;> rfl

theorem flatMap_byteBits_length (data : List Byte) : (data.flatMap byteBits).length = 8 * data.length := by
  induction data with
  | nil => rfl
  | cons b bs ih => simp only [List.flatMap_cons, List.length_append, ih, byteBits_length, List.length_cons]; omega

theorem flatMap_byteBits_getElem (data : List Byte) (i : Nat) (h : i / 8 < data.length) :
    (data.flatMap byteBits)[i]? = some ((data[i / 8]).getLsbD (i % 8)) := by
  induction data generalizing i with
  | nil => simp at h
  | cons b bs ih =>
    simp only [List.flatMap_cons]
    by_cases hi : i < 8
    · rw [List.getElem?_append_left (by simpa [byteBits_length] using hi)]
      have h0 : i / 8 = 0 := by omega
      have h1 : i % 8 = i := by omega
      simp [h0, h1, byteBits_getElem b i hi]
    · rw [List.getElem?_append_right (by simp [byteBits_length]; omega)]
      have h0 : i / 8 = (i - 8) / 8 + 1 := by omega
      have h1 : (i - 8) % 8 = i % 8 := by omega
      rw [byteBits_length, ih (i - 8) (by simp at h; omega)]
      simp [h0, h1]

theorem be16Values_flatMap (vals : List Word) : be16Values (vals.flatMap be16) = vals := by
  induction vals with
  | nil => rfl
  | cons v vs ih =>
    simp only [List.flatMap_cons, be16, List.cons_append, List.nil_append, be16Values,
      word16_hiByte_loByte]
    exact congrArg _ ih

theorem be16Values_inv (data : List Byte) (q : Nat) (h : data.length = 2 * q) :
    (be16Values data).flatMap be16 = data ∧ (be16Values data).length = q := by
  induction q generalizing data with
  | zero => 
    have : data = [] := by simpa using h
    subst this; simp [be16Values]
  | succ q ih =>
    match data, h with
    | hi :: lo :: rest, h =>
      have := ih rest (by simp at h; omega)
      refine ⟨?_, by simp [be16Values, this.2]⟩
      simp only [be16Values, List.flatMap_cons, this.1, be16, hiByte_word16, loByte_word16]
      rfl

end Sys2Proof
end

