-- ==== Sys2Proof/Laws/Crc.lean ====
section
/-! SUPPORT. The CRC step is injective in the accumulator and in the byte, so that changing any one
byte changes the CRC. -/

namespace Sys2Proof

theorem crc16_length (s : List Byte) : (crc16 s).length = 2 := rfl

theorem crcShift_injective (a b : Word) (h : crcShift a = crcShift b) : a = b := by
  have key : ∀ v : Word, (crcShift v).getLsbD 15 = v.getLsbD 0 := by
    intro v; unfold crcShift; split <;> rename_i hv
    · simp [Config.crcPolyR, hv]
    · simp at hv; simp [hv]
  have h0 : a.getLsbD 0 = b.getLsbD 0 := by rw [← key, ← key, h]
  have hs : a >>> 1 = b >>> 1 := by
    unfold crcShift at h
    rw [h0] at h
    split at h
    · simpa using h
    · exact h
  ext i hi
  rcases i with _ | i
  · simpa [BitVec.getLsbD_eq_getElem] using h0
  · have := congrArg (fun v : Word => v.getLsbD i) hs
    simp only [BitVec.getLsbD_ushiftRight] at this
    rw [Nat.add_comm 1 i] at this
    simpa [BitVec.getLsbD_eq_getElem, hi] using this
theorem crcShifts_injective (n : Nat) (a b : Word) (h : crcShifts n a = crcShifts n b) : a = b := by
  induction n generalizing a b with
  | zero => exact h
  | succ n ih => exact crcShift_injective _ _ (ih _ _ h)
theorem crcStep_injective_left (a b : Word) (x : Byte) (h : crcStep a x = crcStep b x) : a = b := by
  have := crcShifts_injective _ _ _ h
  simpa using this
theorem crcStep_injective_right (a : Word) (x y : Byte) (h : crcStep a x = crcStep a y) : x = y := by
  have := crcShifts_injective _ _ _ h
  have h2 : x.setWidth 16 = y.setWidth 16 := by simpa using this
  have := congrArg (fun v : Word => v.setWidth 8) h2
  simpa using this
theorem foldl_crcStep_injective (t : List Byte) (a b : Word) (h : t.foldl crcStep a = t.foldl crcStep b) : a = b := by
  induction t generalizing a b with
  | nil => exact h
  | cons x t ih => exact crcStep_injective_left _ _ _ (ih _ _ h)
theorem crc16Value_append (s t : List Byte) : crc16Value (s ++ t) = t.foldl crcStep (crc16Value s) := by
  simp [crc16Value]
theorem crc16Value_set_ne (s : List Byte) (k : Nat) (h : k < s.length) (b : Byte) (hb : b ≠ s[k]) :
    crc16Value (s.set k b) ≠ crc16Value s := by
  intro he
  have hs : s = s.take k ++ s[k] :: s.drop (k+1) := by simp
  have hs' : s.set k b = s.take k ++ b :: s.drop (k+1) := by
    rw [List.set_eq_take_append_cons_drop]; simp [h]
  rw [hs'] at he
  conv at he => rhs; rw [hs]
  rw [crc16Value_append, crc16Value_append] at he
  simp only [List.foldl_cons] at he
  exact hb (crcStep_injective_right _ _ _ (foldl_crcStep_injective _ _ _ he))
theorem crc16_injective (s t : List Byte) (h : crc16 s = crc16 t) : crc16Value s = crc16Value t := by
  simp only [crc16, le16, List.cons.injEq, and_true] at h
  rw [← word16_hiByte_loByte (crc16Value s), ← word16_hiByte_loByte (crc16Value t), h.1, h.2]

end Sys2Proof
end

