-- ==== Sys2Proof/Laws/Frames.lean ====
section
/-! SUPPORT. Function codes are recognised by their number; the lengths of frames and payloads. -/

namespace Sys2Proof

/-- A function code is recognised by its number. -/
theorem ofByte_eq_some_iff (b : Byte) (op : FunctionCode) :
    FunctionCode.ofByte b = some op ↔ b = op.code := by
  constructor
  · intro h
    apply BitVec.eq_of_toNat_eq
    unfold FunctionCode.ofByte at h
    split at h <;> simp only [Option.some.injEq, reduceCtorEq] at h <;> subst h <;> (rename_i e; simpa [FunctionCode.code] using e)
  · rintro rfl; cases op <;> rfl

theorem ofByte_code (op : FunctionCode) : FunctionCode.ofByte op.code = some op :=
  (ofByte_eq_some_iff _ _).2 rfl

theorem assemble_length (d f : Byte) (p : List Byte) : (assemble d f p).length = p.length + 4 := by
  simp [assemble, crc16_length]

theorem plRead_length (a q : Word) : (plRead a q).length = 4 := rfl
theorem plWsc_length (a : Word) (b : Bool) : (plWsc a b).length = 4 := rfl
theorem plWsr_length (a v : Word) : (plWsr a v).length = 4 := rfl
theorem flatMap_be16_length (vals : List Word) : (vals.flatMap be16).length = 2 * vals.length := by
  induction vals with
  | nil => rfl
  | cons v vs ih => simp [List.flatMap_cons, be16_length, ih]; omega
theorem plWmc_length (a : Word) (bits : List Bool) :
    (plWmc a bits).length = 5 + ceilDiv bits.length 8 := by
  simp [plWmc, be16_length, pack_length]; omega
theorem plWmr_length (a : Word) (vals : List Word) :
    (plWmr a vals).length = 5 + 2 * vals.length := by
  simp [plWmr, be16_length]; omega

theorem readResponse_length (addr fc : Byte) (data : List Byte) (crc : Word) :
    (readResponse addr fc data crc).length = 5 + data.length := by
  simp [readResponse, le16_length]; omega

theorem writeResponse_length (addr fc : Byte) (e1 e2 crc : Word) :
    (writeResponse addr fc e1 e2 crc).length = 8 := rfl

end Sys2Proof
end

