-- ==== Sys2Proof/Laws/Build.lean ====
section
/-! SUPPORT. What the operand checks and the building of a request frame can do, said once. -/

namespace Sys2Proof.Machine

open Sys2Proof

theorem addressField_ok_iff (op : FunctionCode) (ref : BitVec 17) (a : Word) :
    addressField op ref = .ok a ↔
      op.offset ≤ ref.toNat ∧ ref.toNat - op.offset ≤ 0xFFFF ∧
        a = BitVec.ofNat 16 (ref.toNat - op.offset) := by
  unfold addressField Config.fieldMax
  split
  · simp; omega
  · split
    · simp; omega
    · simp only [Except.ok.injEq]
      constructor
      · intro h; exact ⟨by omega, by omega, h.symm⟩
      · intro h; exact h.2.2.symm

theorem addressField_error_cases (op : FunctionCode) (ref : BitVec 17) (c : ErrCode)
    (h : addressField op ref = .error c) :
    (ref.toNat < op.offset ∧ c = .refBelowOffset) ∨
      (op.offset ≤ ref.toNat ∧ 0xFFFF < ref.toNat - op.offset ∧ c = .refAboveRange) := by
  unfold addressField Config.fieldMax at h
  split at h
  · left; exact ⟨by assumption, by simpa using h.symm⟩
  · split at h
    · right; exact ⟨by omega, by omega, by simpa using h.symm⟩
    · simp at h

theorem operandCheck_ok_iff (op : FunctionCode) (s : State) (a : Word) :
    operandCheck op s = .ok a ↔
      addressField op s.ref = .ok a ∧ quantityTooLarge op s.qty = false := by
  unfold operandCheck
  split
  · rename_i h; simp [h]
  · rename_i h; rw [h]
    split
    · rename_i hq; simp [hq]
    · rename_i hq; simp [hq]

theorem operandCheck_error_ne_none (op : FunctionCode) (s : State) (c : ErrCode)
    (h : operandCheck op s = .error c) : c ≠ .none := by
  unfold operandCheck at h
  split at h
  · rename_i h'
    rcases addressField_error_cases _ _ _ h' with ⟨_, e⟩ | ⟨_, _, e⟩ <;>
      (simp only [Except.error.injEq] at h; subst h; subst e; simp)
  · split at h
    · simp only [Except.error.injEq] at h; subst h; simp
    · simp at h

theorem buildFrame_of_ok {op : FunctionCode} {s : State} {a : Word} (p : Word → List Byte)
    (h : operandCheck op s = .ok a) :
    buildFrame op p s =
      acceptFrame op (assemble s.dev op.code (p a)) (op.expectedLen s.qty.toNat) s := by
  simp [buildFrame, h]

theorem buildFrame_of_error {op : FunctionCode} {s : State} {c : ErrCode} (p : Word → List Byte)
    (h : operandCheck op s = .error c) : buildFrame op p s = raise (.encode c) s := by
  simp [buildFrame, h]

/-- What an `ENC.*` can do: refuse with a cause, or accept the frame it builds. -/
theorem buildFrame_cases (op : FunctionCode) (p : Word → List Byte) (s : State) :
    (∃ c, c ≠ .none ∧ operandCheck op s = .error c ∧ buildFrame op p s = raise (.encode c) s) ∨
    ∃ a, operandCheck op s = .ok a ∧ buildFrame op p s =
      acceptFrame op (assemble s.dev op.code (p a)) (op.expectedLen s.qty.toNat) s := by
  cases h : operandCheck op s with
  | error c => exact .inl ⟨c, operandCheck_error_ne_none _ _ _ h, rfl, buildFrame_of_error p h⟩
  | ok a => exact .inr ⟨a, rfl, buildFrame_of_ok p h⟩

/-- The reference that `setTarget` writes has the address field it came from. -/
theorem refOfField_toNat (op : FunctionCode) (first : Word) :
    (refOfField op first).toNat = first.toNat + op.offset := by
  have := first.isLt
  rw [refOfField, BitVec.toNat_ofNat, Nat.mod_eq_of_lt]
  cases op <;> simp only [FunctionCode.offset, Config.offsetHolding, Config.offsetInput] <;> omega

theorem addressField_refOfField (op : FunctionCode) (first : Word) :
    addressField op (refOfField op first) = .ok first := by
  have := first.isLt
  rw [addressField_ok_iff, refOfField_toNat]
  exact ⟨by omega, by omega, by rw [Nat.add_sub_cancel]; simp⟩

/-- A request whose reference comes from an address field is accepted, if its quantity is. -/
theorem buildFrame_refOfField (op : FunctionCode) (p : Word → List Byte) (s : State) (first : Word)
    (hr : s.ref = refOfField op first) (hq : quantityTooLarge op s.qty = false) :
    buildFrame op p s =
      acceptFrame op (assemble s.dev op.code (p first)) (op.expectedLen s.qty.toNat) s :=
  buildFrame_of_ok p
    ((operandCheck_ok_iff _ _ _).2 ⟨by rw [hr, addressField_refOfField], hq⟩)

/-- The operand check passes, and gives the address field. -/
theorem operandCheck_in_range {op : FunctionCode} {s : State} (h1 : op.offset ≤ s.ref.toNat)
    (h2 : s.ref.toNat ≤ op.offset + 0xFFFF) (h3 : quantityTooLarge op s.qty = false) :
    operandCheck op s = .ok (BitVec.ofNat 16 (s.ref.toNat - op.offset)) :=
  (operandCheck_ok_iff _ _ _).2 ⟨(addressField_ok_iff _ _ _).2 ⟨h1, by omega, rfl⟩, h3⟩

theorem operandCheck_below {op : FunctionCode} {s : State} (h : s.ref.toNat < op.offset) :
    operandCheck op s = .error .refBelowOffset := by
  simp [operandCheck, addressField, h]

theorem operandCheck_above {op : FunctionCode} {s : State}
    (h : op.offset + 0xFFFF < s.ref.toNat) : operandCheck op s = .error .refAboveRange := by
  have h1 : ¬ s.ref.toNat < op.offset := by omega
  have h2 : 0xFFFF < s.ref.toNat - op.offset := by omega
  simp [operandCheck, addressField, h1, h2]

theorem operandCheck_quantity {op : FunctionCode} {s : State} (h1 : op.offset ≤ s.ref.toNat)
    (h2 : s.ref.toNat ≤ op.offset + 0xFFFF) (h3 : quantityTooLarge op s.qty = true) :
    operandCheck op s = .error .quantityOutOfRange := by
  have h : addressField op s.ref = .ok (BitVec.ofNat 16 (s.ref.toNat - op.offset)) :=
    (addressField_ok_iff _ _ _).2 ⟨h1, by omega, rfl⟩
  simp [operandCheck, h, h3]

/-- The expected length of an accepted request lies in the validator's domain and in `RXBUF`. -/
theorem expectedLen_bounds (op : FunctionCode) (q : Word) (h : quantityTooLarge op q = false) :
    5 ≤ op.expectedLen q.toNat ∧ op.expectedLen q.toNat ≤ 260 := by
  cases op <;> simp [quantityTooLarge, FunctionCode.quantityLimit, FunctionCode.expectedLen, ceilDiv,
    Config.qmaxRdBits, Config.qmaxRdRegs, Config.readRspOverhead, Config.writeRspLen] at h ⊢ <;> omega

end Sys2Proof.Machine
end

