-- ==== Sys2Proof/Laws/Receive.lean ====
section
/-! SUPPORT. What delivering bytes and loading a write-data buffer do, said once. -/

namespace Sys2Proof.Machine

open Sys2Proof

theorem storeAt_length_self {α : Type} (l : List α) (v : α) : storeAt l l.length v = l ++ [v] := by
  simp [storeAt]

theorem receiveByte_await (s : State) (h : s.phase = .await) :
    receiveByte s = { s with
      rxbuf := if s.rxlen.toNat < 260 then storeAt s.rxbuf s.rxlen.toNat s.din else s.rxbuf
      rxlen := if s.rxlen.toNat < 0xFFFF then s.rxlen + 1 else s.rxlen } := by
  rw [receiveByte, if_pos h]

theorem receiveByte_of_not_await (s : State) (h : s.phase ≠ .await) :
    receiveByte s = { s with cmderr := true } := by
  simp [receiveByte, h, raise]

theorem receiveBytes_nil (s : State) : receiveBytes [] s = s := rfl
theorem receiveBytes_cons (b : Byte) (bs : List Byte) (s : State) :
    receiveBytes (b :: bs) s = receiveBytes bs (receiveByte { s with din := b }) := rfl
theorem receiveBytes_append (bs cs : List Byte) (s : State) :
    receiveBytes (bs ++ cs) s = receiveBytes cs (receiveBytes bs s) := by
  simp [receiveBytes]

theorem take_append_take {α : Type} (n : Nat) (l m : List α) :
    (l.take n ++ m).take n = (l ++ m).take n := by
  simp only [List.take_append, List.take_take, List.length_take, Nat.min_self]
  congr 2
  omega

/-- All that delivering bytes in `AWAIT` does. -/
theorem receiveBytes_await (bytes : List Byte) (s : State) (h : s.phase = .await)
    (hc : s.rxbuf.length = min s.rxlen.toNat 260) :
    receiveBytes bytes s = { s with
      din := bytes.getLastD s.din
      rxbuf := (s.rxbuf ++ bytes).take 260
      rxlen := BitVec.ofNat 16 (min (s.rxlen.toNat + bytes.length) 0xFFFF) } := by
  induction bytes generalizing s with
  | nil =>
    have h1 : List.take 260 s.rxbuf = s.rxbuf := List.take_of_length_le (by omega)
    have h2 : min s.rxlen.toNat 65535 = s.rxlen.toNat := by have := s.rxlen.isLt; omega
    simp [receiveBytes_nil, h1, h2]
  | cons b bs ih =>
    rw [receiveBytes_cons, receiveByte_await _ (by exact h)]
    have hlt := s.rxlen.isLt
    have hlen : (if s.rxlen.toNat < 65535 then s.rxlen + 1 else s.rxlen).toNat
        = min (s.rxlen.toNat + 1) 65535 := by
      split
      · rw [BitVec.toNat_add]; simp; omega
      · omega
    have hbuf : (if s.rxlen.toNat < 260 then storeAt s.rxbuf s.rxlen.toNat b else s.rxbuf)
        = (s.rxbuf ++ [b]).take 260 := by
      split
      · have : s.rxlen.toNat = s.rxbuf.length := by omega
        rw [this, storeAt_length_self, List.take_of_length_le (by simp; omega)]
      · rw [List.take_append_of_le_length (by omega), List.take_of_length_le (by omega)]
    dsimp only
    rw [hbuf]
    rw [ih]
    · dsimp only
      rw [hlen]
      congr 1
      · cases bs <;> simp [List.getLastD]
      · simp only [List.length_cons]
        congr 1
        omega
      · rw [take_append_take]; simp
    · exact h
    · dsimp only; rw [hlen, List.length_take]; simp; omega

theorem receiveBytes_not_await (bytes : List Byte) (s : State) (h : s.phase ≠ .await)
    (hb : bytes ≠ []) :
    receiveBytes bytes s = { s with din := bytes.getLastD s.din, cmderr := true } := by
  induction bytes generalizing s with
  | nil => exact absurd rfl hb
  | cons b bs ih =>
    rw [receiveBytes_cons, receiveByte_of_not_await _ (by exact h)]
    by_cases hbs : bs = []
    · subst hbs; rfl
    · rw [ih _ (by exact h) hbs]
      cases bs with
      | nil => exact absurd rfl hbs
      | cons c cs => simp [List.getLastD]

theorem receiveBytes_phase (bytes : List Byte) (s : State) :
    (receiveBytes bytes s).phase = s.phase := by
  induction bytes generalizing s with
  | nil => rfl
  | cons b bs ih =>
    rw [receiveBytes_cons, ih]
    unfold receiveByte raise
    split <;> rfl

/-- Delivering bytes leaves the built frame and the expectations alone. -/
theorem receiveBytes_frame (bytes : List Byte) (s : State) :
    (receiveBytes bytes s).txbuf = s.txbuf ∧ (receiveBytes bytes s).txlen = s.txlen ∧
    (receiveBytes bytes s).expAddr = s.expAddr ∧ (receiveBytes bytes s).expFc = s.expFc ∧
    (receiveBytes bytes s).expLen = s.expLen := by
  induction bytes generalizing s with
  | nil => exact ⟨rfl, rfl, rfl, rfl, rfl⟩
  | cons b bs ih =>
    obtain ⟨h1, h2, h3, h4, h5⟩ := ih (receiveByte { s with din := b })
    rw [receiveBytes_cons, h1, h2, h3, h4, h5]
    unfold receiveByte raise
    split <;> exact ⟨rfl, rfl, rfl, rfl, rfl⟩

/-- `WB.LOAD` of at most 2040 values leaves exactly them in `WBIT`. -/
theorem loadBits_eq (bits : List Bool) (s : State) (h : bits.length ≤ 2040) :
    loadBits bits s = { s with
      bval := bits.getLastD s.bval, wbit := bits, wbcnt := BitVec.ofNat 11 bits.length } := by
  have key : ∀ (bs : List Bool) (t : State), t.wbcnt.toNat = t.wbit.length →
      t.wbit.length + bs.length ≤ 2040 →
      bs.foldl (fun t b => pushBit { t with bval := b }) t = { t with
        bval := bs.getLastD t.bval, wbit := t.wbit ++ bs
        wbcnt := BitVec.ofNat 11 (t.wbit.length + bs.length) } := by
    intro bs
    induction bs with
    | nil =>
      intro t ht _
      have : BitVec.ofNat 11 t.wbit.length = t.wbcnt := by rw [← ht]; simp
      simp [this]
    | cons b bs ih =>
      intro t ht hl
      simp only [List.length_cons] at hl
      have hp : pushBit { t with bval := b } = { t with
          bval := b, wbit := t.wbit ++ [b], wbcnt := t.wbcnt + 1 } := by
        have hne : t.wbcnt.toNat ≠ Config.wbCap := by simp [Config.wbCap]; omega
        rw [pushBit, if_neg (by exact hne)]
        simp only [ht, storeAt_length_self]
      rw [List.foldl_cons, hp, ih]
      · simp only [List.length_append, List.length_cons, List.length_nil]
        congr 1
        · cases bs <;> simp [List.getLastD]
        · congr 1; omega
        · simp
      · simp only [List.length_append, List.length_cons, List.length_nil]
        rw [BitVec.toNat_add, ht]; simp; omega
      · simp; omega
  have := key bits (clearBits s) rfl (by simpa [clearBits] using h)
  rw [loadBits, this]
  simp [clearBits]

/-- `WR.LOAD` of at most 127 values leaves exactly them in `WREG`. -/
theorem loadRegs_eq (vals : List Word) (s : State) (h : vals.length ≤ 127) :
    loadRegs vals s = { s with
      val := vals.getLastD s.val, wreg := vals, wrcnt := BitVec.ofNat 7 vals.length } := by
  have key : ∀ (vs : List Word) (t : State), t.wrcnt.toNat = t.wreg.length →
      t.wreg.length + vs.length ≤ 127 →
      vs.foldl (fun t v => pushReg { t with val := v }) t = { t with
        val := vs.getLastD t.val, wreg := t.wreg ++ vs
        wrcnt := BitVec.ofNat 7 (t.wreg.length + vs.length) } := by
    intro vs
    induction vs with
    | nil =>
      intro t ht _
      have : BitVec.ofNat 7 t.wreg.length = t.wrcnt := by rw [← ht]; simp
      simp [this]
    | cons v vs ih =>
      intro t ht hl
      simp only [List.length_cons] at hl
      have hp : pushReg { t with val := v } = { t with
          val := v, wreg := t.wreg ++ [v], wrcnt := t.wrcnt + 1 } := by
        have hne : t.wrcnt.toNat ≠ Config.wrCap := by simp [Config.wrCap]; omega
        rw [pushReg, if_neg (by exact hne)]
        simp only [ht, storeAt_length_self]
      rw [List.foldl_cons, hp, ih]
      · simp only [List.length_append, List.length_cons, List.length_nil]
        congr 1
        · cases vs <;> simp [List.getLastD]
        · congr 1; omega
        · simp
      · simp only [List.length_append, List.length_cons, List.length_nil]
        rw [BitVec.toNat_add, ht]; simp; omega
      · simp; omega
  have := key vals (clearRegs s) rfl (by simpa [clearRegs] using h)
  rw [loadRegs, this]
  simp [clearRegs]

/-! ### The host's queue plays no part -/

theorem receiveByte_with_pending (s : State) (p : List HostAccess) :
    receiveByte { s with pending := p } = { receiveByte s with pending := p } := by
  unfold receiveByte raise
  dsimp only
  split <;> rfl

theorem receiveBytes_with_pending (bytes : List Byte) (s : State) (p : List HostAccess) :
    receiveBytes bytes { s with pending := p } = { receiveBytes bytes s with pending := p } := by
  induction bytes generalizing s with
  | nil => rfl
  | cons b bs ih =>
    have h : receiveByte { s with pending := p, din := b } =
        { receiveByte { s with din := b } with pending := p } :=
      receiveByte_with_pending { s with din := b } p
    rw [receiveBytes_cons, receiveBytes_cons, h, ih]

theorem pushBit_with_pending (s : State) (p : List HostAccess) :
    pushBit { s with pending := p } = { pushBit s with pending := p } := by
  unfold pushBit raise
  dsimp only
  split <;> rfl

theorem pushReg_with_pending (s : State) (p : List HostAccess) :
    pushReg { s with pending := p } = { pushReg s with pending := p } := by
  unfold pushReg raise
  dsimp only
  split <;> rfl

end Sys2Proof.Machine
end

