-- ==== Sys2Proof/Laws/State.lean ====
section
/-! SUPPORT. One lemma per field for each update of the state, true by computation, so that no later
proof unfolds a record update. -/

namespace Sys2Proof.Machine

/-! ### `raise` -/

@[simp] theorem raise_exchange_dev (c : ErrCode) (s : State) : (raise (.exchange c) s).dev = s.dev := rfl
@[simp] theorem raise_exchange_ref (c : ErrCode) (s : State) : (raise (.exchange c) s).ref = s.ref := rfl
@[simp] theorem raise_exchange_qty (c : ErrCode) (s : State) : (raise (.exchange c) s).qty = s.qty := rfl
@[simp] theorem raise_exchange_val (c : ErrCode) (s : State) : (raise (.exchange c) s).val = s.val := rfl
@[simp] theorem raise_exchange_bval (c : ErrCode) (s : State) : (raise (.exchange c) s).bval = s.bval := rfl
@[simp] theorem raise_exchange_din (c : ErrCode) (s : State) : (raise (.exchange c) s).din = s.din := rfl
@[simp] theorem raise_exchange_phase (c : ErrCode) (s : State) : (raise (.exchange c) s).phase = .fail := rfl
@[simp] theorem raise_exchange_ok (c : ErrCode) (s : State) : (raise (.exchange c) s).ok = false := rfl
@[simp] theorem raise_exchange_cmderr (c : ErrCode) (s : State) : (raise (.exchange c) s).cmderr = s.cmderr := rfl
@[simp] theorem raise_exchange_crc (c : ErrCode) (s : State) : (raise (.exchange c) s).crc = s.crc := rfl
@[simp] theorem raise_exchange_expAddr (c : ErrCode) (s : State) : (raise (.exchange c) s).expAddr = s.expAddr := rfl
@[simp] theorem raise_exchange_expFc (c : ErrCode) (s : State) : (raise (.exchange c) s).expFc = s.expFc := rfl
@[simp] theorem raise_exchange_expLen (c : ErrCode) (s : State) : (raise (.exchange c) s).expLen = s.expLen := rfl
@[simp] theorem raise_exchange_err (c : ErrCode) (s : State) : (raise (.exchange c) s).err = c := rfl
@[simp] theorem raise_exchange_payoff (c : ErrCode) (s : State) : (raise (.exchange c) s).payoff = 0 := rfl
@[simp] theorem raise_exchange_paylen (c : ErrCode) (s : State) : (raise (.exchange c) s).paylen = 0 := rfl
@[simp] theorem raise_exchange_txlen (c : ErrCode) (s : State) : (raise (.exchange c) s).txlen = s.txlen := rfl
@[simp] theorem raise_exchange_rxlen (c : ErrCode) (s : State) : (raise (.exchange c) s).rxlen = s.rxlen := rfl
@[simp] theorem raise_exchange_wbcnt (c : ErrCode) (s : State) : (raise (.exchange c) s).wbcnt = s.wbcnt := rfl
@[simp] theorem raise_exchange_wrcnt (c : ErrCode) (s : State) : (raise (.exchange c) s).wrcnt = s.wrcnt := rfl
@[simp] theorem raise_exchange_wbit (c : ErrCode) (s : State) : (raise (.exchange c) s).wbit = s.wbit := rfl
@[simp] theorem raise_exchange_wreg (c : ErrCode) (s : State) : (raise (.exchange c) s).wreg = s.wreg := rfl
@[simp] theorem raise_exchange_txbuf (c : ErrCode) (s : State) : (raise (.exchange c) s).txbuf = s.txbuf := rfl
@[simp] theorem raise_exchange_rxbuf (c : ErrCode) (s : State) : (raise (.exchange c) s).rxbuf = s.rxbuf := rfl
@[simp] theorem raise_exchange_pending (c : ErrCode) (s : State) : (raise (.exchange c) s).pending = s.pending := rfl
@[simp] theorem raise_exchange_rdata (c : ErrCode) (s : State) : (raise (.exchange c) s).rdata = s.rdata := rfl

@[simp] theorem raise_encode_dev (c : ErrCode) (s : State) : (raise (.encode c) s).dev = s.dev := rfl
@[simp] theorem raise_encode_ref (c : ErrCode) (s : State) : (raise (.encode c) s).ref = s.ref := rfl
@[simp] theorem raise_encode_qty (c : ErrCode) (s : State) : (raise (.encode c) s).qty = s.qty := rfl
@[simp] theorem raise_encode_val (c : ErrCode) (s : State) : (raise (.encode c) s).val = s.val := rfl
@[simp] theorem raise_encode_bval (c : ErrCode) (s : State) : (raise (.encode c) s).bval = s.bval := rfl
@[simp] theorem raise_encode_din (c : ErrCode) (s : State) : (raise (.encode c) s).din = s.din := rfl
@[simp] theorem raise_encode_phase (c : ErrCode) (s : State) : (raise (.encode c) s).phase = .fail := rfl
@[simp] theorem raise_encode_ok (c : ErrCode) (s : State) : (raise (.encode c) s).ok = false := rfl
@[simp] theorem raise_encode_cmderr (c : ErrCode) (s : State) : (raise (.encode c) s).cmderr = s.cmderr := rfl
@[simp] theorem raise_encode_crc (c : ErrCode) (s : State) : (raise (.encode c) s).crc = s.crc := rfl
@[simp] theorem raise_encode_expAddr (c : ErrCode) (s : State) : (raise (.encode c) s).expAddr = 0x00 := rfl
@[simp] theorem raise_encode_expFc (c : ErrCode) (s : State) : (raise (.encode c) s).expFc = 0x00 := rfl
@[simp] theorem raise_encode_expLen (c : ErrCode) (s : State) : (raise (.encode c) s).expLen = 0 := rfl
@[simp] theorem raise_encode_err (c : ErrCode) (s : State) : (raise (.encode c) s).err = c := rfl
@[simp] theorem raise_encode_payoff (c : ErrCode) (s : State) : (raise (.encode c) s).payoff = 0 := rfl
@[simp] theorem raise_encode_paylen (c : ErrCode) (s : State) : (raise (.encode c) s).paylen = 0 := rfl
@[simp] theorem raise_encode_txlen (c : ErrCode) (s : State) : (raise (.encode c) s).txlen = 0 := rfl
@[simp] theorem raise_encode_rxlen (c : ErrCode) (s : State) : (raise (.encode c) s).rxlen = 0 := rfl
@[simp] theorem raise_encode_wbcnt (c : ErrCode) (s : State) : (raise (.encode c) s).wbcnt = s.wbcnt := rfl
@[simp] theorem raise_encode_wrcnt (c : ErrCode) (s : State) : (raise (.encode c) s).wrcnt = s.wrcnt := rfl
@[simp] theorem raise_encode_wbit (c : ErrCode) (s : State) : (raise (.encode c) s).wbit = s.wbit := rfl
@[simp] theorem raise_encode_wreg (c : ErrCode) (s : State) : (raise (.encode c) s).wreg = s.wreg := rfl
@[simp] theorem raise_encode_txbuf (c : ErrCode) (s : State) : (raise (.encode c) s).txbuf = [] := rfl
@[simp] theorem raise_encode_rxbuf (c : ErrCode) (s : State) : (raise (.encode c) s).rxbuf = [] := rfl
@[simp] theorem raise_encode_pending (c : ErrCode) (s : State) : (raise (.encode c) s).pending = s.pending := rfl
@[simp] theorem raise_encode_rdata (c : ErrCode) (s : State) : (raise (.encode c) s).rdata = s.rdata := rfl

@[simp] theorem raise_command_dev (s : State) : (raise .command s).dev = s.dev := rfl
@[simp] theorem raise_command_ref (s : State) : (raise .command s).ref = s.ref := rfl
@[simp] theorem raise_command_qty (s : State) : (raise .command s).qty = s.qty := rfl
@[simp] theorem raise_command_val (s : State) : (raise .command s).val = s.val := rfl
@[simp] theorem raise_command_bval (s : State) : (raise .command s).bval = s.bval := rfl
@[simp] theorem raise_command_din (s : State) : (raise .command s).din = s.din := rfl
@[simp] theorem raise_command_phase (s : State) : (raise .command s).phase = s.phase := rfl
@[simp] theorem raise_command_ok (s : State) : (raise .command s).ok = s.ok := rfl
@[simp] theorem raise_command_cmderr (s : State) : (raise .command s).cmderr = true := rfl
@[simp] theorem raise_command_crc (s : State) : (raise .command s).crc = s.crc := rfl
@[simp] theorem raise_command_expAddr (s : State) : (raise .command s).expAddr = s.expAddr := rfl
@[simp] theorem raise_command_expFc (s : State) : (raise .command s).expFc = s.expFc := rfl
@[simp] theorem raise_command_expLen (s : State) : (raise .command s).expLen = s.expLen := rfl
@[simp] theorem raise_command_err (s : State) : (raise .command s).err = s.err := rfl
@[simp] theorem raise_command_payoff (s : State) : (raise .command s).payoff = s.payoff := rfl
@[simp] theorem raise_command_paylen (s : State) : (raise .command s).paylen = s.paylen := rfl
@[simp] theorem raise_command_txlen (s : State) : (raise .command s).txlen = s.txlen := rfl
@[simp] theorem raise_command_rxlen (s : State) : (raise .command s).rxlen = s.rxlen := rfl
@[simp] theorem raise_command_wbcnt (s : State) : (raise .command s).wbcnt = s.wbcnt := rfl
@[simp] theorem raise_command_wrcnt (s : State) : (raise .command s).wrcnt = s.wrcnt := rfl
@[simp] theorem raise_command_wbit (s : State) : (raise .command s).wbit = s.wbit := rfl
@[simp] theorem raise_command_wreg (s : State) : (raise .command s).wreg = s.wreg := rfl
@[simp] theorem raise_command_txbuf (s : State) : (raise .command s).txbuf = s.txbuf := rfl
@[simp] theorem raise_command_rxbuf (s : State) : (raise .command s).rxbuf = s.rxbuf := rfl
@[simp] theorem raise_command_pending (s : State) : (raise .command s).pending = s.pending := rfl
@[simp] theorem raise_command_rdata (s : State) : (raise .command s).rdata = s.rdata := rfl

/-! ### `acceptFrame` -/

@[simp] theorem acceptFrame_dev (op : FunctionCode) (f : List Byte) (n : Nat) (s : State) : (acceptFrame op f n s).dev = s.dev := rfl
@[simp] theorem acceptFrame_ref (op : FunctionCode) (f : List Byte) (n : Nat) (s : State) : (acceptFrame op f n s).ref = s.ref := rfl
@[simp] theorem acceptFrame_qty (op : FunctionCode) (f : List Byte) (n : Nat) (s : State) : (acceptFrame op f n s).qty = s.qty := rfl
@[simp] theorem acceptFrame_val (op : FunctionCode) (f : List Byte) (n : Nat) (s : State) : (acceptFrame op f n s).val = s.val := rfl
@[simp] theorem acceptFrame_bval (op : FunctionCode) (f : List Byte) (n : Nat) (s : State) : (acceptFrame op f n s).bval = s.bval := rfl
@[simp] theorem acceptFrame_din (op : FunctionCode) (f : List Byte) (n : Nat) (s : State) : (acceptFrame op f n s).din = s.din := rfl
@[simp] theorem acceptFrame_phase (op : FunctionCode) (f : List Byte) (n : Nat) (s : State) : (acceptFrame op f n s).phase = .await := rfl
@[simp] theorem acceptFrame_ok (op : FunctionCode) (f : List Byte) (n : Nat) (s : State) : (acceptFrame op f n s).ok = false := rfl
@[simp] theorem acceptFrame_cmderr (op : FunctionCode) (f : List Byte) (n : Nat) (s : State) : (acceptFrame op f n s).cmderr = s.cmderr := rfl
@[simp] theorem acceptFrame_crc (op : FunctionCode) (f : List Byte) (n : Nat) (s : State) : (acceptFrame op f n s).crc = s.crc := rfl
@[simp] theorem acceptFrame_expAddr (op : FunctionCode) (f : List Byte) (n : Nat) (s : State) : (acceptFrame op f n s).expAddr = s.dev := rfl
@[simp] theorem acceptFrame_expFc (op : FunctionCode) (f : List Byte) (n : Nat) (s : State) : (acceptFrame op f n s).expFc = op.code := rfl
@[simp] theorem acceptFrame_expLen (op : FunctionCode) (f : List Byte) (n : Nat) (s : State) : (acceptFrame op f n s).expLen = BitVec.ofNat 9 n := rfl
@[simp] theorem acceptFrame_err (op : FunctionCode) (f : List Byte) (n : Nat) (s : State) : (acceptFrame op f n s).err = .none := rfl
@[simp] theorem acceptFrame_payoff (op : FunctionCode) (f : List Byte) (n : Nat) (s : State) : (acceptFrame op f n s).payoff = 0 := rfl
@[simp] theorem acceptFrame_paylen (op : FunctionCode) (f : List Byte) (n : Nat) (s : State) : (acceptFrame op f n s).paylen = 0 := rfl
@[simp] theorem acceptFrame_txlen (op : FunctionCode) (f : List Byte) (n : Nat) (s : State) : (acceptFrame op f n s).txlen = BitVec.ofNat 9 f.length := rfl
@[simp] theorem acceptFrame_rxlen (op : FunctionCode) (f : List Byte) (n : Nat) (s : State) : (acceptFrame op f n s).rxlen = 0 := rfl
@[simp] theorem acceptFrame_wbcnt (op : FunctionCode) (f : List Byte) (n : Nat) (s : State) : (acceptFrame op f n s).wbcnt = s.wbcnt := rfl
@[simp] theorem acceptFrame_wrcnt (op : FunctionCode) (f : List Byte) (n : Nat) (s : State) : (acceptFrame op f n s).wrcnt = s.wrcnt := rfl
@[simp] theorem acceptFrame_wbit (op : FunctionCode) (f : List Byte) (n : Nat) (s : State) : (acceptFrame op f n s).wbit = s.wbit := rfl
@[simp] theorem acceptFrame_wreg (op : FunctionCode) (f : List Byte) (n : Nat) (s : State) : (acceptFrame op f n s).wreg = s.wreg := rfl
@[simp] theorem acceptFrame_txbuf (op : FunctionCode) (f : List Byte) (n : Nat) (s : State) : (acceptFrame op f n s).txbuf = f := rfl
@[simp] theorem acceptFrame_rxbuf (op : FunctionCode) (f : List Byte) (n : Nat) (s : State) : (acceptFrame op f n s).rxbuf = [] := rfl
@[simp] theorem acceptFrame_pending (op : FunctionCode) (f : List Byte) (n : Nat) (s : State) : (acceptFrame op f n s).pending = s.pending := rfl
@[simp] theorem acceptFrame_rdata (op : FunctionCode) (f : List Byte) (n : Nat) (s : State) : (acceptFrame op f n s).rdata = s.rdata := rfl

/-! ### The clears -/

@[simp] theorem clearBits_dev (s : State) : (clearBits s).dev = s.dev := rfl
@[simp] theorem clearBits_ref (s : State) : (clearBits s).ref = s.ref := rfl
@[simp] theorem clearBits_qty (s : State) : (clearBits s).qty = s.qty := rfl
@[simp] theorem clearBits_val (s : State) : (clearBits s).val = s.val := rfl
@[simp] theorem clearBits_bval (s : State) : (clearBits s).bval = s.bval := rfl
@[simp] theorem clearBits_din (s : State) : (clearBits s).din = s.din := rfl
@[simp] theorem clearBits_phase (s : State) : (clearBits s).phase = s.phase := rfl
@[simp] theorem clearBits_ok (s : State) : (clearBits s).ok = s.ok := rfl
@[simp] theorem clearBits_cmderr (s : State) : (clearBits s).cmderr = s.cmderr := rfl
@[simp] theorem clearBits_crc (s : State) : (clearBits s).crc = s.crc := rfl
@[simp] theorem clearBits_expAddr (s : State) : (clearBits s).expAddr = s.expAddr := rfl
@[simp] theorem clearBits_expFc (s : State) : (clearBits s).expFc = s.expFc := rfl
@[simp] theorem clearBits_expLen (s : State) : (clearBits s).expLen = s.expLen := rfl
@[simp] theorem clearBits_err (s : State) : (clearBits s).err = s.err := rfl
@[simp] theorem clearBits_payoff (s : State) : (clearBits s).payoff = s.payoff := rfl
@[simp] theorem clearBits_paylen (s : State) : (clearBits s).paylen = s.paylen := rfl
@[simp] theorem clearBits_txlen (s : State) : (clearBits s).txlen = s.txlen := rfl
@[simp] theorem clearBits_rxlen (s : State) : (clearBits s).rxlen = s.rxlen := rfl
@[simp] theorem clearBits_wbcnt (s : State) : (clearBits s).wbcnt = 0 := rfl
@[simp] theorem clearBits_wrcnt (s : State) : (clearBits s).wrcnt = s.wrcnt := rfl
@[simp] theorem clearBits_wbit (s : State) : (clearBits s).wbit = [] := rfl
@[simp] theorem clearBits_wreg (s : State) : (clearBits s).wreg = s.wreg := rfl
@[simp] theorem clearBits_txbuf (s : State) : (clearBits s).txbuf = s.txbuf := rfl
@[simp] theorem clearBits_rxbuf (s : State) : (clearBits s).rxbuf = s.rxbuf := rfl
@[simp] theorem clearBits_pending (s : State) : (clearBits s).pending = s.pending := rfl
@[simp] theorem clearBits_rdata (s : State) : (clearBits s).rdata = s.rdata := rfl

@[simp] theorem clearRegs_dev (s : State) : (clearRegs s).dev = s.dev := rfl
@[simp] theorem clearRegs_ref (s : State) : (clearRegs s).ref = s.ref := rfl
@[simp] theorem clearRegs_qty (s : State) : (clearRegs s).qty = s.qty := rfl
@[simp] theorem clearRegs_val (s : State) : (clearRegs s).val = s.val := rfl
@[simp] theorem clearRegs_bval (s : State) : (clearRegs s).bval = s.bval := rfl
@[simp] theorem clearRegs_din (s : State) : (clearRegs s).din = s.din := rfl
@[simp] theorem clearRegs_phase (s : State) : (clearRegs s).phase = s.phase := rfl
@[simp] theorem clearRegs_ok (s : State) : (clearRegs s).ok = s.ok := rfl
@[simp] theorem clearRegs_cmderr (s : State) : (clearRegs s).cmderr = s.cmderr := rfl
@[simp] theorem clearRegs_crc (s : State) : (clearRegs s).crc = s.crc := rfl
@[simp] theorem clearRegs_expAddr (s : State) : (clearRegs s).expAddr = s.expAddr := rfl
@[simp] theorem clearRegs_expFc (s : State) : (clearRegs s).expFc = s.expFc := rfl
@[simp] theorem clearRegs_expLen (s : State) : (clearRegs s).expLen = s.expLen := rfl
@[simp] theorem clearRegs_err (s : State) : (clearRegs s).err = s.err := rfl
@[simp] theorem clearRegs_payoff (s : State) : (clearRegs s).payoff = s.payoff := rfl
@[simp] theorem clearRegs_paylen (s : State) : (clearRegs s).paylen = s.paylen := rfl
@[simp] theorem clearRegs_txlen (s : State) : (clearRegs s).txlen = s.txlen := rfl
@[simp] theorem clearRegs_rxlen (s : State) : (clearRegs s).rxlen = s.rxlen := rfl
@[simp] theorem clearRegs_wbcnt (s : State) : (clearRegs s).wbcnt = s.wbcnt := rfl
@[simp] theorem clearRegs_wrcnt (s : State) : (clearRegs s).wrcnt = 0 := rfl
@[simp] theorem clearRegs_wbit (s : State) : (clearRegs s).wbit = s.wbit := rfl
@[simp] theorem clearRegs_wreg (s : State) : (clearRegs s).wreg = [] := rfl
@[simp] theorem clearRegs_txbuf (s : State) : (clearRegs s).txbuf = s.txbuf := rfl
@[simp] theorem clearRegs_rxbuf (s : State) : (clearRegs s).rxbuf = s.rxbuf := rfl
@[simp] theorem clearRegs_pending (s : State) : (clearRegs s).pending = s.pending := rfl
@[simp] theorem clearRegs_rdata (s : State) : (clearRegs s).rdata = s.rdata := rfl

/-! ### `resetBlock` -/

@[simp] theorem resetBlock_dev (s : State) : (resetBlock s).dev = State.reset.dev := rfl
@[simp] theorem resetBlock_ref (s : State) : (resetBlock s).ref = State.reset.ref := rfl
@[simp] theorem resetBlock_qty (s : State) : (resetBlock s).qty = State.reset.qty := rfl
@[simp] theorem resetBlock_val (s : State) : (resetBlock s).val = State.reset.val := rfl
@[simp] theorem resetBlock_bval (s : State) : (resetBlock s).bval = State.reset.bval := rfl
@[simp] theorem resetBlock_din (s : State) : (resetBlock s).din = State.reset.din := rfl
@[simp] theorem resetBlock_phase (s : State) : (resetBlock s).phase = State.reset.phase := rfl
@[simp] theorem resetBlock_ok (s : State) : (resetBlock s).ok = State.reset.ok := rfl
@[simp] theorem resetBlock_cmderr (s : State) : (resetBlock s).cmderr = State.reset.cmderr := rfl
@[simp] theorem resetBlock_crc (s : State) : (resetBlock s).crc = State.reset.crc := rfl
@[simp] theorem resetBlock_expAddr (s : State) : (resetBlock s).expAddr = State.reset.expAddr := rfl
@[simp] theorem resetBlock_expFc (s : State) : (resetBlock s).expFc = State.reset.expFc := rfl
@[simp] theorem resetBlock_expLen (s : State) : (resetBlock s).expLen = State.reset.expLen := rfl
@[simp] theorem resetBlock_err (s : State) : (resetBlock s).err = State.reset.err := rfl
@[simp] theorem resetBlock_payoff (s : State) : (resetBlock s).payoff = State.reset.payoff := rfl
@[simp] theorem resetBlock_paylen (s : State) : (resetBlock s).paylen = State.reset.paylen := rfl
@[simp] theorem resetBlock_txlen (s : State) : (resetBlock s).txlen = State.reset.txlen := rfl
@[simp] theorem resetBlock_rxlen (s : State) : (resetBlock s).rxlen = State.reset.rxlen := rfl
@[simp] theorem resetBlock_wbcnt (s : State) : (resetBlock s).wbcnt = State.reset.wbcnt := rfl
@[simp] theorem resetBlock_wrcnt (s : State) : (resetBlock s).wrcnt = State.reset.wrcnt := rfl
@[simp] theorem resetBlock_wbit (s : State) : (resetBlock s).wbit = State.reset.wbit := rfl
@[simp] theorem resetBlock_wreg (s : State) : (resetBlock s).wreg = State.reset.wreg := rfl
@[simp] theorem resetBlock_txbuf (s : State) : (resetBlock s).txbuf = State.reset.txbuf := rfl
@[simp] theorem resetBlock_rxbuf (s : State) : (resetBlock s).rxbuf = State.reset.rxbuf := rfl
@[simp] theorem resetBlock_pending (s : State) : (resetBlock s).pending = s.pending := rfl
@[simp] theorem resetBlock_rdata (s : State) : (resetBlock s).rdata = s.rdata := rfl

/-! ### `setTarget` -/

@[simp] theorem setTarget_dev (op : FunctionCode) (a : Byte) (f : Word) (s : State) : (setTarget op a f s).dev = a := rfl
@[simp] theorem setTarget_ref (op : FunctionCode) (a : Byte) (f : Word) (s : State) : (setTarget op a f s).ref = refOfField op f := rfl
@[simp] theorem setTarget_qty (op : FunctionCode) (a : Byte) (f : Word) (s : State) : (setTarget op a f s).qty = s.qty := rfl
@[simp] theorem setTarget_val (op : FunctionCode) (a : Byte) (f : Word) (s : State) : (setTarget op a f s).val = s.val := rfl
@[simp] theorem setTarget_bval (op : FunctionCode) (a : Byte) (f : Word) (s : State) : (setTarget op a f s).bval = s.bval := rfl
@[simp] theorem setTarget_din (op : FunctionCode) (a : Byte) (f : Word) (s : State) : (setTarget op a f s).din = s.din := rfl
@[simp] theorem setTarget_phase (op : FunctionCode) (a : Byte) (f : Word) (s : State) : (setTarget op a f s).phase = s.phase := rfl
@[simp] theorem setTarget_ok (op : FunctionCode) (a : Byte) (f : Word) (s : State) : (setTarget op a f s).ok = s.ok := rfl
@[simp] theorem setTarget_cmderr (op : FunctionCode) (a : Byte) (f : Word) (s : State) : (setTarget op a f s).cmderr = s.cmderr := rfl
@[simp] theorem setTarget_crc (op : FunctionCode) (a : Byte) (f : Word) (s : State) : (setTarget op a f s).crc = s.crc := rfl
@[simp] theorem setTarget_expAddr (op : FunctionCode) (a : Byte) (f : Word) (s : State) : (setTarget op a f s).expAddr = s.expAddr := rfl
@[simp] theorem setTarget_expFc (op : FunctionCode) (a : Byte) (f : Word) (s : State) : (setTarget op a f s).expFc = s.expFc := rfl
@[simp] theorem setTarget_expLen (op : FunctionCode) (a : Byte) (f : Word) (s : State) : (setTarget op a f s).expLen = s.expLen := rfl
@[simp] theorem setTarget_err (op : FunctionCode) (a : Byte) (f : Word) (s : State) : (setTarget op a f s).err = s.err := rfl
@[simp] theorem setTarget_payoff (op : FunctionCode) (a : Byte) (f : Word) (s : State) : (setTarget op a f s).payoff = s.payoff := rfl
@[simp] theorem setTarget_paylen (op : FunctionCode) (a : Byte) (f : Word) (s : State) : (setTarget op a f s).paylen = s.paylen := rfl
@[simp] theorem setTarget_txlen (op : FunctionCode) (a : Byte) (f : Word) (s : State) : (setTarget op a f s).txlen = s.txlen := rfl
@[simp] theorem setTarget_rxlen (op : FunctionCode) (a : Byte) (f : Word) (s : State) : (setTarget op a f s).rxlen = s.rxlen := rfl
@[simp] theorem setTarget_wbcnt (op : FunctionCode) (a : Byte) (f : Word) (s : State) : (setTarget op a f s).wbcnt = s.wbcnt := rfl
@[simp] theorem setTarget_wrcnt (op : FunctionCode) (a : Byte) (f : Word) (s : State) : (setTarget op a f s).wrcnt = s.wrcnt := rfl
@[simp] theorem setTarget_wbit (op : FunctionCode) (a : Byte) (f : Word) (s : State) : (setTarget op a f s).wbit = s.wbit := rfl
@[simp] theorem setTarget_wreg (op : FunctionCode) (a : Byte) (f : Word) (s : State) : (setTarget op a f s).wreg = s.wreg := rfl
@[simp] theorem setTarget_txbuf (op : FunctionCode) (a : Byte) (f : Word) (s : State) : (setTarget op a f s).txbuf = s.txbuf := rfl
@[simp] theorem setTarget_rxbuf (op : FunctionCode) (a : Byte) (f : Word) (s : State) : (setTarget op a f s).rxbuf = s.rxbuf := rfl
@[simp] theorem setTarget_pending (op : FunctionCode) (a : Byte) (f : Word) (s : State) : (setTarget op a f s).pending = s.pending := rfl
@[simp] theorem setTarget_rdata (op : FunctionCode) (a : Byte) (f : Word) (s : State) : (setTarget op a f s).rdata = s.rdata := rfl

/-! ### `hostWrite` -/

@[simp] theorem hostWrite_phase (w : OperandWrite) (s : State) : (hostWrite w s).phase = s.phase := by cases w <;> rfl
@[simp] theorem hostWrite_ok (w : OperandWrite) (s : State) : (hostWrite w s).ok = s.ok := by cases w <;> rfl
@[simp] theorem hostWrite_cmderr (w : OperandWrite) (s : State) : (hostWrite w s).cmderr = s.cmderr := by cases w <;> rfl
@[simp] theorem hostWrite_crc (w : OperandWrite) (s : State) : (hostWrite w s).crc = s.crc := by cases w <;> rfl
@[simp] theorem hostWrite_expAddr (w : OperandWrite) (s : State) : (hostWrite w s).expAddr = s.expAddr := by cases w <;> rfl
@[simp] theorem hostWrite_expFc (w : OperandWrite) (s : State) : (hostWrite w s).expFc = s.expFc := by cases w <;> rfl
@[simp] theorem hostWrite_expLen (w : OperandWrite) (s : State) : (hostWrite w s).expLen = s.expLen := by cases w <;> rfl
@[simp] theorem hostWrite_err (w : OperandWrite) (s : State) : (hostWrite w s).err = s.err := by cases w <;> rfl
@[simp] theorem hostWrite_payoff (w : OperandWrite) (s : State) : (hostWrite w s).payoff = s.payoff := by cases w <;> rfl
@[simp] theorem hostWrite_paylen (w : OperandWrite) (s : State) : (hostWrite w s).paylen = s.paylen := by cases w <;> rfl
@[simp] theorem hostWrite_txlen (w : OperandWrite) (s : State) : (hostWrite w s).txlen = s.txlen := by cases w <;> rfl
@[simp] theorem hostWrite_rxlen (w : OperandWrite) (s : State) : (hostWrite w s).rxlen = s.rxlen := by cases w <;> rfl
@[simp] theorem hostWrite_wbcnt (w : OperandWrite) (s : State) : (hostWrite w s).wbcnt = s.wbcnt := by cases w <;> rfl
@[simp] theorem hostWrite_wrcnt (w : OperandWrite) (s : State) : (hostWrite w s).wrcnt = s.wrcnt := by cases w <;> rfl
@[simp] theorem hostWrite_wbit (w : OperandWrite) (s : State) : (hostWrite w s).wbit = s.wbit := by cases w <;> rfl
@[simp] theorem hostWrite_wreg (w : OperandWrite) (s : State) : (hostWrite w s).wreg = s.wreg := by cases w <;> rfl
@[simp] theorem hostWrite_txbuf (w : OperandWrite) (s : State) : (hostWrite w s).txbuf = s.txbuf := by cases w <;> rfl
@[simp] theorem hostWrite_rxbuf (w : OperandWrite) (s : State) : (hostWrite w s).rxbuf = s.rxbuf := by cases w <;> rfl
@[simp] theorem hostWrite_pending (w : OperandWrite) (s : State) : (hostWrite w s).pending = s.pending := by cases w <;> rfl
@[simp] theorem hostWrite_rdata (w : OperandWrite) (s : State) : (hostWrite w s).rdata = s.rdata := by cases w <;> rfl
@[simp] theorem hostWrite_of_dev (v : Byte) (s : State) :
    hostWrite (.dev v) s = { s with dev := v } := rfl
@[simp] theorem hostWrite_of_ref (v : BitVec 17) (s : State) :
    hostWrite (.ref v) s = { s with ref := v } := rfl
@[simp] theorem hostWrite_of_qty (v : Word) (s : State) :
    hostWrite (.qty v) s = { s with qty := v } := rfl
@[simp] theorem hostWrite_of_val (v : Word) (s : State) :
    hostWrite (.val v) s = { s with val := v } := rfl
@[simp] theorem hostWrite_of_bval (v : Bool) (s : State) :
    hostWrite (.bval v) s = { s with bval := v } := rfl
@[simp] theorem hostWrite_of_din (v : Byte) (s : State) :
    hostWrite (.din v) s = { s with din := v } := rfl

end Sys2Proof.Machine
end

