-- ==== Sys2Proof/Laws/Validator.lean ====
section
/-! SUPPORT. What the validator, `VALIDATE` and the delivery of a response can do, said once. -/

namespace Sys2Proof.Machine

open Sys2Proof

/-- All that the checks can come to, and when. -/
theorem runChecks_cases (op : FunctionCode) (r : List Byte) (len : Nat) (ea : Byte) (el : Nat) :
    (len < el ∧ runChecks op r len ea el = .rejected .incompleteResponse) ∨
    (el ≤ len ∧ r.length < 3 ∧ runChecks op r len ea el = .noValue) ∨
    (el ≤ len ∧ ∃ b0 b1 b2, r[0]? = some b0 ∧ r[1]? = some b1 ∧ r[2]? = some b2 ∧
      (((b0 ≠ ea ∨ b1 ≠ op.code) ∧
          runChecks op r len ea el = .rejected .addressOrFunctionMismatch) ∨
       (b0 = ea ∧ b1 = op.code ∧
        ((len ≠ op.claimedLength b2 ∧ runChecks op r len ea el = .rejected .lengthMismatch) ∨
         (len = op.claimedLength b2 ∧
          ((r.length < len ∧ runChecks op r len ea el = .noValue) ∨
           (len ≤ r.length ∧ checksumAgrees r len = true ∧ runChecks op r len ea el =
              .accepted (if op.isRead then 3 else 2) (if op.isRead then b2.toNat else 2)) ∨
           (len ≤ r.length ∧ checksumAgrees r len = false ∧
              runChecks op r len ea el = .rejected .checksumMismatch))))))) := by
  unfold runChecks
  by_cases h1 : len < el
  · exact .inl ⟨h1, by simp [h1]⟩
  rw [if_neg h1]
  right
  match r with
  | [] => left; exact ⟨by omega, by simp, by simp⟩
  | [_] => left; exact ⟨by omega, by simp, by simp⟩
  | [_, _] => left; exact ⟨by omega, by simp, by simp⟩
  | b0 :: b1 :: b2 :: rest =>
    right
    refine ⟨by omega, b0, b1, b2, rfl, rfl, rfl, ?_⟩
    show _ ∨ _
    simp only [List.getElem?_cons_zero, List.getElem?_cons_succ]
    by_cases h2 : b0 ≠ ea ∨ b1 ≠ op.code
    · left; exact ⟨h2, by rw [if_pos h2]⟩
    · right
      rw [if_neg h2]
      push Not at h2
      refine ⟨h2.1, h2.2, ?_⟩
      by_cases h3 : len ≠ op.claimedLength b2
      · left; exact ⟨h3, by rw [if_pos h3]⟩
      · right
        rw [if_neg h3]
        refine ⟨not_not.1 h3, ?_⟩
        by_cases h4 : (b0 :: b1 :: b2 :: rest).length < len
        · left; exact ⟨h4, by rw [if_pos h4]⟩
        · right
          rw [if_neg h4]
          cases h5 : checksumAgrees (b0 :: b1 :: b2 :: rest) len
          · right; exact ⟨by omega, rfl, by simp⟩
          · left; exact ⟨by omega, rfl, by simp⟩

theorem checkResponse_code (op : FunctionCode) (r : List Byte) (len : Nat) (ea : Byte) (el : Nat)
    (h : 5 ≤ el) : checkResponse r len ea op.code el = runChecks op r len ea el := by
  simp only [checkResponse, ofByte_code]
  rw [if_neg (by omega)]

/-- All that `VALIDATE` can do. -/
theorem validateResponse_cases (s : State) :
    (s.phase ≠ .await ∧ validateResponse s = .next (raise .command s)) ∨
    (s.phase = .await ∧ ∃ off n,
      checkResponse s.rxbuf s.rxlen.toNat s.expAddr s.expFc s.expLen.toNat = .accepted off n ∧
      validateResponse s = .next { s with
        payoff := BitVec.ofNat 2 off, paylen := BitVec.ofNat 8 n
        ok := true, err := .none, phase := .done }) ∨
    (s.phase = .await ∧ ∃ c,
      checkResponse s.rxbuf s.rxlen.toNat s.expAddr s.expFc s.expLen.toNat = .rejected c ∧
      validateResponse s = .next (raise (.exchange c) s)) ∨
    (s.phase = .await ∧
      checkResponse s.rxbuf s.rxlen.toNat s.expAddr s.expFc s.expLen.toNat = .outsideDomain ∧
      validateResponse s = .refused .validatorOutsideDomain) ∨
    (s.phase = .await ∧
      checkResponse s.rxbuf s.rxlen.toNat s.expAddr s.expFc s.expLen.toNat = .noValue ∧
      validateResponse s = .fault .byteWithoutValue) := by
  by_cases h : s.phase = .await
  · right
    rw [validateResponse, if_pos h]
    cases hc : checkResponse s.rxbuf s.rxlen.toNat s.expAddr s.expFc s.expLen.toNat with
    | accepted off n => exact .inl ⟨h, off, n, rfl, rfl⟩
    | rejected c => exact .inr (.inl ⟨h, c, rfl, rfl⟩)
    | outsideDomain => exact .inr (.inr (.inl ⟨h, rfl, rfl⟩))
    | noValue => exact .inr (.inr (.inr ⟨h, rfl, rfl⟩))
  · exact .inl ⟨h, by rw [validateResponse, if_neg h]⟩

/-- A cause of failure is never the value "no failure". -/
theorem checkResponse_rejected {r : List Byte} {len : Nat} {ea ef : Byte} {el : Nat} {c : ErrCode}
    (h : checkResponse r len ea ef el = .rejected c) : c ≠ .none := by
  unfold checkResponse at h
  split at h
  · cases h
  split at h
  · cases h
  rename_i op _ _
  rcases runChecks_cases op r len ea el with ⟨_, e⟩ | ⟨_, _, e⟩ | ⟨_, _, _, _, _, _, _, ⟨_, e⟩ |
    ⟨_, _, ⟨_, e⟩ | ⟨_, ⟨_, e⟩ | ⟨_, _, e⟩ | ⟨_, _, e⟩⟩⟩⟩ <;> rw [e] at h <;> cases h <;> simp

/-- The window of an accepted payload lies in the bytes, and fits `PAYOFF` and `PAYLEN`. -/
theorem checkResponse_accepted {r : List Byte} {len : Nat} {ea ef : Byte} {el off n : Nat}
    (h : checkResponse r len ea ef el = .accepted off n) :
    off + n + 2 ≤ r.length ∧ off < 4 ∧ n < 256 := by
  unfold checkResponse at h
  split at h
  · cases h
  split at h
  · cases h
  rename_i op _ _
  rcases runChecks_cases op r len ea el with ⟨_, e⟩ | ⟨_, _, e⟩ | ⟨_, b0, b1, b2, _, _, _, ⟨_, e⟩ |
    ⟨_, _, ⟨_, e⟩ | ⟨hl, ⟨_, e⟩ | ⟨hl2, _, e⟩ | ⟨_, _, e⟩⟩⟩⟩ <;> rw [e] at h <;> cases h
  have := b2.isLt
  unfold FunctionCode.claimedLength at hl
  cases hr : op.isRead <;>
    simp [hr, Config.readRspOverhead, Config.writeRspLen] at hl ⊢ <;> omega

theorem deliverResponse_of_rxrdy {bytes : List Byte} {s : State}
    (h : (receiveBytes bytes s).rxrdy = true) :
    deliverResponse bytes s = validateResponse (receiveBytes bytes s) := by
  simp [deliverResponse, h]

theorem deliverResponse_of_not_rxrdy {bytes : List Byte} {s : State}
    (h : (receiveBytes bytes s).rxrdy = false) :
    deliverResponse bytes s = .next (receiveBytes bytes s) := by
  simp [deliverResponse, h]

end Sys2Proof.Machine
end

