-- ==== Sys2Proof/Laws/Memory.lean ====
section
/-! SUPPORT. Every operation on the buffers keeps their canonical form, and reset has it. -/

namespace Sys2Proof.Machine

open Sys2Proof

theorem reset_wf : Memory.wf State.reset := by decide

theorem resetBlock_wf (s : State) : Memory.wf (resetBlock s) := reset_wf

/-- The canonical form is a property of the buffers and their counts alone. -/
theorem wf_of_buffers_eq {s t : State} (h : Memory.wf s)
    (hb : t.txbuf = s.txbuf ∧ t.rxbuf = s.rxbuf ∧ t.wbit = s.wbit ∧ t.wreg = s.wreg)
    (hc : t.txlen = s.txlen ∧ t.rxlen = s.rxlen ∧ t.wbcnt = s.wbcnt ∧ t.wrcnt = s.wrcnt) :
    Memory.wf t := by
  obtain ⟨h1, h2, h3, h4⟩ := hb
  obtain ⟨h5, h6, h7, h8⟩ := hc
  unfold Memory.wf
  rw [h1, h2, h3, h4, h5, h6, h7, h8]
  exact h

theorem hostWrite_wf {s : State} (w : OperandWrite) (h : Memory.wf s) :
    Memory.wf (hostWrite w s) := by
  cases w <;> exact h

theorem raise_wf {s : State} (f : Failure) (h : Memory.wf s) : Memory.wf (raise f s) := by
  obtain ⟨⟨h1, h2, h3, h4⟩, h5, h6, h7, h8⟩ := h
  cases f with
  | exchange c => exact ⟨⟨h1, h2, h3, h4⟩, h5, h6, h7, h8⟩
  | encode c => exact ⟨⟨rfl, rfl, h3, h4⟩, Nat.zero_le _, Nat.zero_le _, h7, h8⟩
  | command => exact ⟨⟨h1, h2, h3, h4⟩, h5, h6, h7, h8⟩

theorem acceptFrame_wf {s : State} (op : FunctionCode) {f : List Byte} (n : Nat)
    (hf : f.length ≤ 264) (h : Memory.wf s) : Memory.wf (acceptFrame op f n s) := by
  obtain ⟨⟨-, -, h3, h4⟩, -, -, h7, h8⟩ := h
  refine ⟨⟨?_, rfl, h3, h4⟩, hf, Nat.zero_le _, h7, h8⟩
  simp only [acceptFrame_txlen, acceptFrame_txbuf, BitVec.toNat_ofNat]
  omega

/-- Building keeps the form where every frame that can be built fits `TXBUF`. -/
theorem buildFrame_wf {s : State} (op : FunctionCode) {p : Word → List Byte}
    (hp : ∀ a, (p a).length ≤ 260) (h : Memory.wf s) : Memory.wf (buildFrame op p s) := by
  rcases buildFrame_cases op p s with ⟨c, -, -, e⟩ | ⟨a, -, e⟩ <;> rw [e]
  · exact raise_wf _ h
  · exact acceptFrame_wf _ _ (by rw [assemble_length]; have := hp a; omega) h

theorem buildRead_wf {s : State} (op : FunctionCode) (h : Memory.wf s) :
    Memory.wf (buildRead op s) :=
  buildFrame_wf op (fun _ => by rw [plRead_length]; omega) h

theorem buildCoil_wf {s : State} (h : Memory.wf s) : Memory.wf (buildCoil s) :=
  buildFrame_wf _ (fun _ => by rw [plWsc_length]; omega) h

theorem buildRegister_wf {s : State} (h : Memory.wf s) : Memory.wf (buildRegister s) :=
  buildFrame_wf _ (fun _ => by rw [plWsr_length]; omega) h

theorem buildCoils_wf {s : State} (h : Memory.wf s) : Memory.wf (buildCoils s) := by
  refine buildFrame_wf _ (fun _ => ?_) h
  have h7 : s.wbit.length ≤ 2040 := h.2.2.2.1
  rw [plWmc_length, List.length_take, ceilDiv]
  omega

theorem buildRegisters_wf {s : State} (h : Memory.wf s) : Memory.wf (buildRegisters s) := by
  refine buildFrame_wf _ (fun _ => ?_) h
  have h8 : s.wreg.length ≤ 127 := h.2.2.2.2
  rw [plWmr_length, List.length_take]
  omega

theorem clearBits_wf {s : State} (h : Memory.wf s) : Memory.wf (clearBits s) := by
  obtain ⟨⟨h1, h2, -, h4⟩, h5, h6, -, h8⟩ := h
  exact ⟨⟨h1, h2, rfl, h4⟩, h5, h6, Nat.zero_le _, h8⟩

theorem clearRegs_wf {s : State} (h : Memory.wf s) : Memory.wf (clearRegs s) := by
  obtain ⟨⟨h1, h2, h3, -⟩, h5, h6, h7, -⟩ := h
  exact ⟨⟨h1, h2, h3, rfl⟩, h5, h6, h7, Nat.zero_le _⟩

theorem pushBit_wf {s : State} (h : Memory.wf s) : Memory.wf (pushBit s) := by
  unfold pushBit
  split
  · exact raise_wf _ h
  · rename_i hn
    obtain ⟨⟨h1, h2, h3, h4⟩, h5, h6, h7, h8⟩ := h
    simp only [Config.wbCap] at hn h7
    have e : storeAt s.wbit s.wbcnt.toNat s.bval = s.wbit ++ [s.bval] := by
      rw [← h3, storeAt_length_self]
    refine ⟨⟨h1, h2, ?_, h4⟩, h5, h6, ?_, h8⟩
    · show (storeAt _ _ _).length = (s.wbcnt + 1).toNat
      rw [e, BitVec.toNat_add, List.length_append, h3]
      simp
      omega
    · show (storeAt _ _ _).length ≤ 2040
      rw [e, List.length_append, List.length_singleton]
      omega

theorem pushReg_wf {s : State} (h : Memory.wf s) : Memory.wf (pushReg s) := by
  unfold pushReg
  split
  · exact raise_wf _ h
  · rename_i hn
    obtain ⟨⟨h1, h2, h3, h4⟩, h5, h6, h7, h8⟩ := h
    simp only [Config.wrCap] at hn h8
    have e : storeAt s.wreg s.wrcnt.toNat s.val = s.wreg ++ [s.val] := by
      rw [← h4, storeAt_length_self]
    refine ⟨⟨h1, h2, h3, ?_⟩, h5, h6, h7, ?_⟩
    · show (storeAt _ _ _).length = (s.wrcnt + 1).toNat
      rw [e, BitVec.toNat_add, List.length_append, h4]
      simp
      omega
    · show (storeAt _ _ _).length ≤ 127
      rw [e, List.length_append, List.length_singleton]
      omega

theorem receiveBytes_wf {s : State} (bytes : List Byte) (h : Memory.wf s) :
    Memory.wf (receiveBytes bytes s) := by
  by_cases hb : bytes = []
  · subst hb
    exact h
  by_cases hp : s.phase = .await
  · rw [receiveBytes_await bytes s hp h.1.2.1]
    obtain ⟨⟨h1, h2, h3, h4⟩, h5, h6, h7, h8⟩ := h
    simp only [Config.rxCap] at h2
    have := s.rxlen.isLt
    refine ⟨⟨h1, ?_, h3, h4⟩, h5, ?_, h7, h8⟩ <;> simp [Config.rxCap]
    omega
  · rw [receiveBytes_not_await bytes s hp hb]
    exact h

theorem receiveByte_wf {s : State} (h : Memory.wf s) : Memory.wf (receiveByte s) :=
  receiveBytes_wf [s.din] h

theorem loadBits_wf {s : State} (bits : List Bool) (h : Memory.wf s) :
    Memory.wf (loadBits bits s) := by
  have key : ∀ t, Memory.wf t →
      Memory.wf (bits.foldl (fun t b => pushBit { t with bval := b }) t) := by
    induction bits with
    | nil => exact fun _ ht => ht
    | cons b bs ih =>
      intro t ht
      have ht' : Memory.wf { t with bval := b } := ht
      exact ih _ (pushBit_wf ht')
  exact key _ (clearBits_wf h)

theorem loadRegs_wf {s : State} (vals : List Word) (h : Memory.wf s) :
    Memory.wf (loadRegs vals s) := by
  have key : ∀ t, Memory.wf t →
      Memory.wf (vals.foldl (fun t v => pushReg { t with val := v }) t) := by
    induction vals with
    | nil => exact fun _ ht => ht
    | cons v vs ih =>
      intro t ht
      have ht' : Memory.wf { t with val := v } := ht
      exact ih _ (pushReg_wf ht')
  exact key _ (clearRegs_wf h)

theorem validateResponse_wf {s t : State} (h : Memory.wf s) (hv : validateResponse s = .next t) :
    Memory.wf t := by
  rcases validateResponse_cases s with ⟨-, e⟩ | ⟨-, _, _, -, e⟩ | ⟨-, _, -, e⟩ | ⟨-, -, e⟩ |
    ⟨-, -, e⟩ <;> rw [e] at hv <;> cases hv
  · exact raise_wf _ h
  · exact h
  · exact raise_wf _ h

theorem abortExchange_wf {s : State} (h : Memory.wf s) : Memory.wf (abortExchange s) := by
  unfold abortExchange
  split <;> exact raise_wf _ h

theorem deliverResponse_wf {s t : State} (bytes : List Byte) (h : Memory.wf s)
    (hd : deliverResponse bytes s = .next t) : Memory.wf t := by
  cases hr : (receiveBytes bytes s).rxrdy with
  | true =>
    rw [deliverResponse_of_rxrdy hr] at hd
    exact validateResponse_wf (receiveBytes_wf bytes h) hd
  | false =>
    rw [deliverResponse_of_not_rxrdy hr] at hd
    rw [← Host.Outcome.next.inj hd]
    exact receiveBytes_wf bytes h

end Sys2Proof.Machine
end

