-- ==== Sys2Proof/Laws/PerInstr.lean ====
section
/-! SUPPORT. Per instruction: the length of its encoding, for the provers' case split. -/

namespace Sys2Proof.Laws.EncodedLength

/-- A command is one byte; a well-formed request frame has 8 to 264 bytes (30_encoding.md R94, R95)
and a well-formed response frame 5 to 260 (R97, R98). -/
def Statement (i : Instr) : Prop :=
  i.wellFormed = true →
    match encode i with
    | .cmd _ => True
    | .request f => 8 ≤ f.length ∧ f.length ≤ 264
    | .response f => 5 ≤ f.length ∧ f.length ≤ 260

theorem nop : Statement .nop := fun _ => trivial

theorem encRc : Statement .encRc := fun _ => trivial

theorem encRdi : Statement .encRdi := fun _ => trivial

theorem encRhr : Statement .encRhr := fun _ => trivial

theorem encRir : Statement .encRir := fun _ => trivial

theorem encWsc : Statement .encWsc := fun _ => trivial

theorem encWsr : Statement .encWsr := fun _ => trivial

theorem encWmc : Statement .encWmc := fun _ => trivial

theorem encWmr : Statement .encWmr := fun _ => trivial

theorem crcInit : Statement .crcInit := fun _ => trivial

theorem crcByte : Statement .crcByte := fun _ => trivial

theorem wbClr : Statement .wbClr := fun _ => trivial

theorem wbPush : Statement .wbPush := fun _ => trivial

theorem wrClr : Statement .wrClr := fun _ => trivial

theorem wrPush : Statement .wrPush := fun _ => trivial

theorem rxByte : Statement .rxByte := fun _ => trivial

theorem validate : Statement .validate := fun _ => trivial

theorem abort : Statement .abort := fun _ => trivial

theorem reset : Statement .reset := fun _ => trivial

theorem reqRc (a : Byte) (f q : Word) : Statement (.reqRc a f q) := by
  intro _
  simp [encode, assemble_length, plRead_length]

theorem reqRdi (a : Byte) (f q : Word) : Statement (.reqRdi a f q) := by
  intro _
  simp [encode, assemble_length, plRead_length]

theorem reqRhr (a : Byte) (f q : Word) : Statement (.reqRhr a f q) := by
  intro _
  simp [encode, assemble_length, plRead_length]

theorem reqRir (a : Byte) (f q : Word) : Statement (.reqRir a f q) := by
  intro _
  simp [encode, assemble_length, plRead_length]

theorem reqWsc (a : Byte) (f : Word) (b : Bool) : Statement (.reqWsc a f b) := by
  intro _
  simp [encode, assemble_length, plWsc_length]

theorem reqWsr (a : Byte) (f v : Word) : Statement (.reqWsr a f v) := by
  intro _
  simp [encode, assemble_length, plWsr_length]

theorem reqWmc (a : Byte) (f : Word) (bits : List Bool) : Statement (.reqWmc a f bits) := by
  intro h
  simp only [Instr.wellFormed, decide_eq_true_eq, Config.wbCap] at h
  simp only [encode, assemble_length, plWmc_length, ceilDiv]
  omega

theorem reqWmr (a : Byte) (f : Word) (vals : List Word) : Statement (.reqWmr a f vals) := by
  intro h
  simp only [Instr.wellFormed, decide_eq_true_eq, Config.wrCap] at h
  simp only [encode, assemble_length, plWmr_length]
  omega

theorem rspRc (a : Byte) (d : List Byte) (c : Word) : Statement (.rspRc a d c) := by
  intro h
  simp only [Instr.wellFormed, decide_eq_true_eq] at h
  simp only [encode, readResponse_length]
  omega

theorem rspRdi (a : Byte) (d : List Byte) (c : Word) : Statement (.rspRdi a d c) := by
  intro h
  simp only [Instr.wellFormed, decide_eq_true_eq] at h
  simp only [encode, readResponse_length]
  omega

theorem rspRhr (a : Byte) (d : List Byte) (c : Word) : Statement (.rspRhr a d c) := by
  intro h
  simp only [Instr.wellFormed, decide_eq_true_eq] at h
  simp only [encode, readResponse_length]
  omega

theorem rspRir (a : Byte) (d : List Byte) (c : Word) : Statement (.rspRir a d c) := by
  intro h
  simp only [Instr.wellFormed, decide_eq_true_eq] at h
  simp only [encode, readResponse_length]
  omega

theorem rspWsc (a : Byte) (e1 e2 c : Word) : Statement (.rspWsc a e1 e2 c) := by
  intro _
  simp [encode, writeResponse_length]

theorem rspWsr (a : Byte) (e1 e2 c : Word) : Statement (.rspWsr a e1 e2 c) := by
  intro _
  simp [encode, writeResponse_length]

theorem rspWmc (a : Byte) (e1 e2 c : Word) : Statement (.rspWmc a e1 e2 c) := by
  intro _
  simp [encode, writeResponse_length]

theorem rspWmr (a : Byte) (e1 e2 c : Word) : Statement (.rspWmr a e1 e2 c) := by
  intro _
  simp [encode, writeResponse_length]

end Sys2Proof.Laws.EncodedLength
end

