-- ==== Sys2Proof/Laws/Requests.lean ====
section
/-! SUPPORT. What the eight request frames do, each as one acceptance: their meanings need not be
unfolded again. -/

namespace Sys2Proof.Machine

open Sys2Proof

/-- The four read requests, within their quantity. -/
theorem buildRead_setTarget (op : FunctionCode) (a : Byte) (f q : Word) (s : State)
    (hq : quantityTooLarge op q = false) :
    buildRead op { setTarget op a f s with qty := q } =
      acceptFrame op (assemble a op.code (plRead f q)) (op.expectedLen q.toNat)
        { s with dev := a, ref := refOfField op f, qty := q } :=
  buildFrame_refOfField op _ _ f rfl hq

/-- The four read requests, beyond their quantity. -/
theorem buildRead_setTarget_tooLarge (op : FunctionCode) (a : Byte) (f q : Word) (s : State)
    (hq : quantityTooLarge op q = true) :
    buildRead op { setTarget op a f s with qty := q } =
      raise (.encode .quantityOutOfRange)
        { s with dev := a, ref := refOfField op f, qty := q } := by
  refine buildFrame_of_error _ ?_
  have h : addressField op (refOfField op f) = .ok f := addressField_refOfField op f
  simp only [operandCheck, setTarget_ref, h, hq, if_true]

theorem buildCoil_setTarget (a : Byte) (f : Word) (b : Bool) (s : State) :
    buildCoil { setTarget .wsc a f s with bval := b } =
      acceptFrame .wsc (assemble a 0x05 (plWsc f b)) 8
        { s with dev := a, ref := refOfField .wsc f, bval := b } :=
  buildFrame_refOfField .wsc _ _ f rfl rfl

theorem buildRegister_setTarget (a : Byte) (f v : Word) (s : State) :
    buildRegister { setTarget .wsr a f s with val := v } =
      acceptFrame .wsr (assemble a 0x06 (plWsr f v)) 8
        { s with dev := a, ref := refOfField .wsr f, val := v } := by
  unfold buildRegister setTarget
  generalize hr : refOfField .wsr f = r
  exact buildFrame_refOfField .wsr _ _ f hr.symm rfl

theorem buildCoils_setTarget (a : Byte) (f : Word) (s : State) :
    buildCoils (setTarget .wmc a f s) =
      acceptFrame .wmc (assemble a 0x0F (plWmc f (s.wbit.take s.wbcnt.toNat))) 8
        { s with dev := a, ref := refOfField .wmc f } := by
  unfold buildCoils setTarget
  generalize hr : refOfField .wmc f = r
  exact buildFrame_refOfField .wmc _ _ f hr.symm rfl

theorem buildRegisters_setTarget (a : Byte) (f : Word) (s : State) :
    buildRegisters (setTarget .wmr a f s) =
      acceptFrame .wmr (assemble a 0x10 (plWmr f (s.wreg.take s.wrcnt.toNat))) 8
        { s with dev := a, ref := refOfField .wmr f } := by
  unfold buildRegisters setTarget
  generalize hr : refOfField .wmr f = r
  exact buildFrame_refOfField .wmr _ _ f hr.symm rfl

end Sys2Proof.Machine
end

