-- ==== Sys2Proof/Laws/Session.lean ====
section
/-! SUPPORT. What the host's session does: sequences of accesses, the frame it sends, how its wait
ends, and what the statements of an operation build. -/

namespace Sys2Proof.Machine

open Sys2Proof

/-! ## Sequences of accesses -/

theorem serveAll_nil (s : State) : serveAll [] s = .next s := rfl

theorem serveAll_cons_next {a : HostAccess} {rest : List HostAccess} {s t : State}
    (h : serve a s = .next t) : serveAll (a :: rest) s = serveAll rest t := by
  rw [serveAll, h]

theorem serveAll_append_next {as bs : List HostAccess} {s t : State}
    (h : serveAll as s = .next t) : serveAll (as ++ bs) s = serveAll bs t := by
  induction as generalizing s with
  | nil => rw [Host.Outcome.next.inj (h : Host.Outcome.next s = .next t), List.nil_append]
  | cons a rest ih =>
    rw [List.cons_append]
    cases ha : serve a s with
    | next u =>
      rw [serveAll_cons_next ha] at h ⊢
      exact ih h
    | fault f => simp [serveAll, ha] at h
    | refused r => simp [serveAll, ha] at h

/-- A property that every access keeps is kept by a sequence. -/
theorem serveAll_keeps {P : State → Prop}
    (hP : ∀ (a : HostAccess) (s t : State), P s → serve a s = .next t → P t)
    {as : List HostAccess} {s t : State} (hs : P s) (h : serveAll as s = .next t) : P t := by
  induction as generalizing s with
  | nil => exact Host.Outcome.next.inj (h : Host.Outcome.next s = .next t) ▸ hs
  | cons a rest ih =>
    cases ha : serve a s with
    | next u => rw [serveAll_cons_next ha] at h; exact ih (hP a s u hs ha) h
    | fault f => simp [serveAll, ha] at h
    | refused r => simp [serveAll, ha] at h

/-- `WB.LOAD` served access by access. -/
theorem serveAll_wbLoad (bits : List Bool) (s : State) :
    serveAll (Asm.wbLoad bits) s = .next (loadBits bits s) := by
  have key : ∀ t : State, serveAll (bits.flatMap fun b => [Asm.set (.bval b), Asm.cmd .wbPush]) t =
      .next (bits.foldl (fun t b => pushBit { t with bval := b }) t) := by
    induction bits with
    | nil => exact fun t => rfl
    | cons b bs ih => exact fun t => ih (pushBit { t with bval := b })
  exact key (clearBits s)

/-- `WR.LOAD` served access by access. -/
theorem serveAll_wrLoad (vals : List Word) (s : State) :
    serveAll (Asm.wrLoad vals) s = .next (loadRegs vals s) := by
  have key : ∀ t : State, serveAll (vals.flatMap fun v => [Asm.set (.val v), Asm.cmd .wrPush]) t =
      .next (vals.foldl (fun t v => pushReg { t with val := v }) t) := by
    induction vals with
    | nil => exact fun t => rfl
    | cons v vs ih => exact fun t => ih (pushReg { t with val := v })
  exact key (clearRegs s)

/-- What the statements of an operation leave: its command, on the state with its operands written. -/
def Operation.built (op : Operation) (s : State) : State :=
  match op with
  | .readCoils dev ref qty => buildRead .rc { s with dev := dev, ref := ref, qty := qty }
  | .readDiscreteInputs dev ref qty => buildRead .rdi { s with dev := dev, ref := ref, qty := qty }
  | .readHoldingRegisters dev ref qty => buildRead .rhr { s with dev := dev, ref := ref, qty := qty }
  | .readInputRegisters dev ref qty => buildRead .rir { s with dev := dev, ref := ref, qty := qty }
  | .writeSingleCoil dev ref on => buildCoil { s with dev := dev, ref := ref, bval := on }
  | .writeSingleRegister dev ref v => buildRegister { s with dev := dev, ref := ref, val := v }
  | .writeMultipleCoils dev ref bits => buildCoils { loadBits bits s with dev := dev, ref := ref }
  | .writeMultipleRegisters dev ref vals =>
    buildRegisters { loadRegs vals s with dev := dev, ref := ref }

/-- No statement of an operation stops. -/
theorem serveAll_statements (op : Operation) (s : State) :
    serveAll op.statements s = .next (op.built s) := by
  cases op with
  | writeMultipleCoils dev ref bits => exact serveAll_append_next (serveAll_wbLoad bits s)
  | writeMultipleRegisters dev ref vals => exact serveAll_append_next (serveAll_wrLoad vals s)
  | _ => rfl

/-! ## The session -/

/-- The frame that is sent is what stands in `TXBUF`. -/
theorem txFrame_eq {s : State} (h : Memory.wf s) : txFrame s = s.txbuf := by
  have hlen : s.txbuf.length = s.txlen.toNat := h.1.1
  have key : ∀ n, n ≤ s.txbuf.length →
      (List.range n).filterMap (txByteAt s) = s.txbuf.take n := by
    intro n
    induction n with
    | zero => simp
    | succ n ih =>
      intro hn
      have hb : txByteAt s n = some s.txbuf[n] := by
        rw [txByteAt, if_pos (by omega), List.getElem?_eq_getElem]
      rw [List.range_succ, List.filterMap_append, ih (by omega), List.take_succ_eq_append_getElem hn]
      simp [hb]
  rw [txFrame, ← hlen, key _ (Nat.le_refl _), List.take_length]

/-- The wait ends in `ABORT` when no poll makes `RXRDY` 1. -/
theorem waitLoop_abort {polls : List (List Byte)} {s : State}
    (h : ∀ before after, polls = before ++ after → before ≠ [] →
      (receiveBytes before.flatten s).rxrdy = false) :
    waitLoop polls s = .next (abortExchange (receiveBytes polls.flatten s)) := by
  induction polls generalizing s with
  | nil => rfl
  | cons bytes rest ih =>
    have h1 : (receiveBytes bytes s).rxrdy = false := by
      have := h [bytes] rest rfl (by simp)
      simpa using this
    rw [waitLoop]
    simp only [h1, Bool.false_eq_true, if_false]
    rw [ih, List.flatten_cons, receiveBytes_append]
    intro before after hp _
    have := h (bytes :: before) after (by rw [hp]; rfl) (by simp)
    rwa [List.flatten_cons, receiveBytes_append] at this

/-- The wait ends in `VALIDATE` at the first poll that makes `RXRDY` 1. -/
theorem waitLoop_validate {before : List (List Byte)} {last : List Byte} {after : List (List Byte)}
    {s : State}
    (h : ∀ p q, before = p ++ q → p ≠ [] → (receiveBytes p.flatten s).rxrdy = false)
    (hr : (receiveBytes (before.flatten ++ last) s).rxrdy = true) :
    waitLoop (before ++ last :: after) s =
      validateResponse (receiveBytes (before.flatten ++ last) s) := by
  induction before generalizing s with
  | nil =>
    rw [List.nil_append, waitLoop]
    simp only [List.flatten_nil, List.nil_append] at hr ⊢
    rw [if_pos hr]
  | cons bytes rest ih =>
    have h1 : (receiveBytes bytes s).rxrdy = false := by
      have := h [bytes] rest rfl (by simp)
      simpa using this
    rw [List.flatten_cons, List.append_assoc, receiveBytes_append] at hr ⊢
    rw [List.cons_append, waitLoop]
    simp only [h1, Bool.false_eq_true, if_false]
    refine ih ?_ hr
    intro p q hp _
    have := h (bytes :: p) q (by rw [hp]; rfl) (by simp)
    rwa [List.flatten_cons, receiveBytes_append] at this

/-- An exchange that may be made is the frame sent once and the wait. -/
theorem exchange_next {polls : List (List Byte)} {ses : Session} {t : State}
    (hd : ses.block.expAddr ≠ 0) (h : waitLoop polls ses.block = .next t) :
    exchange polls ses = .next { block := t, sent := ses.sent ++ [txFrame ses.block] } := by
  rw [exchange, if_neg hd]
  simp only [sendFrame, h]

theorem masterCall_of_fail (op : Operation) (polls : List (List Byte)) (ses : Session)
    (h : (op.built ses.block).phase = .fail) :
    masterCall op polls ses =
      .next ({ ses with block := op.built ses.block }, op.result (op.built ses.block)) := by
  rw [masterCall, serveAll_statements]
  simp only [h, if_true]

theorem masterCall_of_accepted (op : Operation) (polls : List (List Byte)) (ses u : Session)
    (h : (op.built ses.block).phase ≠ .fail)
    (hu : exchange polls { ses with block := op.built ses.block } = .next u) :
    masterCall op polls ses = .next (u, op.result u.block) := by
  rw [masterCall, serveAll_statements]
  simp only [h, if_false, hu]

end Sys2Proof.Machine
end

