-- ==== Sys2Proof/Laws/Step.lean ====
section
/-! SUPPORT. Runs of several steps, and the shape of a response frame's meaning. -/

namespace Sys2Proof.Machine

open Sys2Proof

/-- A run begins with a step. -/
theorem run_succ_next {n : Nat} {s t : State} (h : step s = .next t) :
    core.run (n + 1) s = core.run n t := by
  have h' : core.step s = .next t := h
  simp only [Host.Core.run, h']

theorem run_one (s : State) : core.run 1 s = step s := by
  cases hs : step s with
  | next t => rw [run_succ_next (n := 0) hs]; simp only [Host.Core.run]; rfl
  | fault r => have h' : core.step s = .fault r := hs; simp only [Host.Core.run, h']; rfl
  | refused r => have h' : core.step s = .refused r := hs; simp only [Host.Core.run, h']; rfl

/-- A run that goes on is the run of its first part and then of the rest. -/
theorem run_add {m n : Nat} {s t : State} (h : core.run m s = .next t) :
    core.run (m + n) s = core.run n t := by
  induction m generalizing s with
  | zero =>
    simp only [Host.Core.run] at h
    rw [Nat.zero_add, Host.Outcome.next.inj h]
  | succ m ih =>
    rw [Nat.add_right_comm]
    cases hs : step s with
    | next u =>
      rw [run_succ_next hs] at h ⊢
      exact ih h
    | fault r =>
      have h' : core.step s = .fault r := hs
      simp [Host.Core.run, h'] at h
    | refused r =>
      have h' : core.step s = .refused r := hs
      simp [Host.Core.run, h'] at h

/-- A response frame of any kind delivers its bytes. -/
theorem exec_response {i : Instr} {f : List Byte} (h : encode i = .response f) (s : State) :
    exec i s = deliverResponse f s := by
  cases i <;> simp only [encode, CodeWord.response.injEq, reduceCtorEq] at h <;> (rw [← h]; rfl)

/-- A response frame is not empty. -/
theorem encode_response_ne_nil {i : Instr} {f : List Byte} (h : encode i = .response f) : f ≠ [] := by
  cases i <;> simp only [encode, CodeWord.response.injEq, reduceCtorEq] at h <;>
    (rw [← h]; simp [readResponse, writeResponse])

end Sys2Proof.Machine
end

