-- ==== Sys2Proof/Tests/Slice0.lean ====
section
/-! SUPPORT. The model's own tests. Expected values are those of 95_test_vectors.md (V and E numbers)
or are written out from the encodings of 30_encoding.md. Names `witness_<Obligation>` show states and
operands that meet the hypotheses of an obligation. -/

namespace Sys2Proof.Tests

open Sys2Proof.Machine

/-- A reading of the state after an instruction, if there is a next state. -/
def after {α : Type} (o : Host.Outcome State Fault Refusal) (f : State → α) : Option α :=
  match o with
  | .next t => some (f t)
  | .fault _ => none
  | .refused _ => none

/-- The reset state with operands written. -/
def operands (dev : Byte) (ref : BitVec 17) (qty : Word) : State :=
  { State.reset with dev := dev, ref := ref, qty := qty }

/-- A response to a request is awaited, whose expectations are given; `TXBUF` stays empty. -/
def expecting (ea ef : Byte) (el : BitVec 9) : State :=
  { State.reset with phase := .await, expAddr := ea, expFc := ef, expLen := el }

/-- Some bytes of the response have been received. -/
def received (r : List Byte) (s : State) : State :=
  { s with rxbuf := r, rxlen := BitVec.ofNat 16 r.length }

/-- The request of E2 has been built. -/
def awaitingRead : State :=
  { operands 0x01 40001 2 with
    phase := .await, txbuf := [0x01, 0x03, 0x00, 0x00, 0x00, 0x02, 0xC4, 0x0B], txlen := 8
    expAddr := 0x01, expFc := 0x03, expLen := 9 }

/-- The request of V48 has been built. -/
def awaitingWrite : State :=
  { operands 0x11 40002 0 with
    val := 3, phase := .await
    txbuf := [0x11, 0x06, 0x00, 0x01, 0x00, 0x03, 0x9A, 0x9B], txlen := 8
    expAddr := 0x11, expFc := 0x06, expLen := 8 }

/-- The response of E2 has been received. -/
def receivedRead : State :=
  received [0x01, 0x03, 0x04, 0x30, 0x39, 0x1A, 0x85, 0xEF, 0xFD] awaitingRead

/-- The response of E2 has been validated. -/
def finishedRead : State := { receivedRead with phase := .done, ok := true, payoff := 3, paylen := 4 }

/-- The request of E2 has ended in a timeout. -/
def timedOut : State := { awaitingRead with phase := .fail, err := .timeout }

/-! ## WellFormed -/

theorem test_wellFormed_reqWmc_2041_values :
    (Instr.reqWmc 0x01 0 (List.replicate 2041 true)).wellFormed = false := by
  simp only [Instr.wellFormed, List.length_replicate]
  rfl

theorem test_wellFormed_reqWmr_128_values :
    (Instr.reqWmr 0x01 0 (List.replicate 128 0)).wellFormed = false := by
  simp only [Instr.wellFormed, List.length_replicate]
  rfl

theorem test_wellFormed_rspRc_256_bytes :
    (Instr.rspRc 0x01 (List.replicate 256 0) 0).wellFormed = false := by
  simp only [Instr.wellFormed, List.length_replicate]
  rfl

theorem test_wellFormed_rspRdi_256_bytes :
    (Instr.rspRdi 0x01 (List.replicate 256 0) 0).wellFormed = false := by
  simp only [Instr.wellFormed, List.length_replicate]
  rfl

theorem test_wellFormed_rspRhr_256_bytes :
    (Instr.rspRhr 0x01 (List.replicate 256 0) 0).wellFormed = false := by
  simp only [Instr.wellFormed, List.length_replicate]
  rfl

theorem test_wellFormed_rspRir_256_bytes :
    (Instr.rspRir 0x01 (List.replicate 256 0) 0).wellFormed = false := by
  simp only [Instr.wellFormed, List.length_replicate]
  rfl

/-! ## Decode: every constructor, from a word written out from the spec -/

/-- 30_encoding.md R92, the whole command table. -/
theorem test_decode_commands :
    ∀ p ∈ [((0x00 : Byte), Instr.nop), (0x01, .encRc), (0x02, .encRdi), (0x03, .encRhr),
        (0x04, .encRir), (0x05, .encWsc), (0x06, .encWsr), (0x0F, .encWmc), (0x10, .encWmr),
        (0x20, .crcInit), (0x21, .crcByte), (0x30, .wbClr), (0x31, .wbPush), (0x32, .wrClr),
        (0x33, .wrPush), (0x40, .rxByte), (0x41, .validate), (0x42, .abort), (0x7F, .reset)],
      decode (.cmd p.1) = some p.2 := by decide

/-- V14, V24, V28, V38, V44, V48, V53, V61. -/
theorem test_decode_requests :
    decode (.request [0x11, 0x01, 0x00, 0x13, 0x00, 0x25, 0x0E, 0x84]) =
      some (.reqRc 0x11 0x0013 37) ∧
    decode (.request [0x11, 0x02, 0x00, 0xC4, 0x00, 0x16, 0xBA, 0xA9]) =
      some (.reqRdi 0x11 0x00C4 22) ∧
    decode (.request [0x11, 0x03, 0x00, 0x6B, 0x00, 0x03, 0x76, 0x87]) =
      some (.reqRhr 0x11 0x006B 3) ∧
    decode (.request [0x11, 0x04, 0x00, 0x08, 0x00, 0x01, 0xB2, 0x98]) =
      some (.reqRir 0x11 0x0008 1) ∧
    decode (.request [0x11, 0x05, 0x00, 0xAC, 0xFF, 0x00, 0x4E, 0x8B]) =
      some (.reqWsc 0x11 0x00AC true) ∧
    decode (.request [0x11, 0x06, 0x00, 0x01, 0x00, 0x03, 0x9A, 0x9B]) =
      some (.reqWsr 0x11 0x0001 3) ∧
    decode (.request [0x11, 0x0F, 0x00, 0x13, 0x00, 0x0A, 0x02, 0x55, 0x01, 0xD4, 0xCB]) =
      some (.reqWmc 0x11 0x0013
      [true, false, true, false, true, false, true, false, true, false]) ∧
    decode (.request [0x11, 0x10, 0x00, 0x01, 0x00, 0x02, 0x04, 0x00, 0x0A, 0x01, 0x02, 0xC6, 0xF0]) =
      some (.reqWmr 0x11 0x0001 [0x000A, 0x0102]) := by decide +kernel

/-- V86, V87, V89, V88, V90, V94, V92, V93. -/
theorem test_decode_responses :
    decode (.response [0x11, 0x01, 0x05, 0xCD, 0x6B, 0xB2, 0x0E, 0x1B, 0x45, 0xE6]) =
      some (.rspRc 0x11 [0xCD, 0x6B, 0xB2, 0x0E, 0x1B] 0xE645) ∧
    decode (.response [0x11, 0x02, 0x03, 0xAC, 0xDB, 0x35, 0x20, 0x18]) =
      some (.rspRdi 0x11 [0xAC, 0xDB, 0x35] 0x1820) ∧
    decode (.response [0x11, 0x03, 0x06, 0xAE, 0x41, 0x56, 0x52, 0x43, 0x40, 0x49, 0xAD]) =
      some (.rspRhr 0x11 [0xAE, 0x41, 0x56, 0x52, 0x43, 0x40] 0xAD49) ∧
    decode (.response [0x11, 0x04, 0x02, 0x00, 0x0A, 0xF8, 0xF4]) =
      some (.rspRir 0x11 [0x00, 0x0A] 0xF4F8) ∧
    decode (.response [0x11, 0x05, 0x00, 0xAC, 0xFF, 0x00, 0x4E, 0x8B]) =
      some (.rspWsc 0x11 0x00AC 0xFF00 0x8B4E) ∧
    decode (.response [0x11, 0x06, 0x12, 0x34, 0x56, 0x78, 0xF0, 0x6E]) =
      some (.rspWsr 0x11 0x1234 0x5678 0x6EF0) ∧
    decode (.response [0x11, 0x0F, 0x00, 0x13, 0x00, 0x0A, 0x26, 0x99]) =
      some (.rspWmc 0x11 0x0013 0x000A 0x9926) ∧
    decode (.response [0x11, 0x10, 0x00, 0x01, 0x00, 0x02, 0x12, 0x98]) =
      some (.rspWmr 0x11 0x0001 0x0002 0x9812) := by decide

/-- 30_encoding.md R108, R109, R111, R112. -/
theorem test_decode_rejects :
    decode (.cmd 0x07) = none ∧ decode (.cmd 0xFF) = none ∧
      -- wrong CRC; a coil value that is neither FF00 nor 0000; padding that is not 0; quantity 2041
      decode (.request [0x11, 0x03, 0x00, 0x6B, 0x00, 0x03, 0x76, 0x88]) = none ∧
      decodeRequestA 0x11 0x05 0x00AC 0x0001 = none ∧
      decodeRequestB 0x01 0x0F 0 3 1 [0x08] = none ∧
      decodeRequestB 0x01 0x0F 0 2041 255 (List.replicate 255 0) = none ∧
      -- an exception response (function code 0x83)
      decode (.response [0x01, 0x83, 0x02, 0xC0, 0xF1]) = none := by decide +kernel

/-! ## The CRC Engine -/

/-- V6, E1. -/
theorem test_crc16Value :
    crc16Value [0x31, 0x32, 0x33, 0x34, 0x35, 0x36, 0x37, 0x38, 0x39] = 0x4B37 ∧
      crc16 [0x01, 0x03, 0x00, 0x00, 0x00, 0x01] = [0x84, 0x0A] := by decide +kernel

/-- V125. -/
theorem test_crcInit :
    after (exec .crcInit { awaitingRead with crc := 0x1234 }) (fun t => (t.crc, t.phase)) =
      some (0xFFFF, .await) := by decide

/-- V12. -/
theorem test_crcByte :
    after (exec .crcByte { State.reset with crc := 0x807E, din := 0x03 }) State.crc = some 0x2140 := by
  decide

/-! ## Commands that build a request -/

/-- V22. -/
theorem test_encRc_refused :
    after (exec .encRc (operands 0x01 65536 2041)) (fun t => (t.txbuf, t.status)) = some ([], 0x0903) := by
  decide

/-- V25. -/
theorem test_encRdi_refused :
    after (exec .encRdi (operands 0x01 0 2041)) (fun t => (t.txbuf, t.status)) = some ([], 0x0A03) := by
  decide

/-- V34. -/
theorem test_encRhr_refused :
    after (exec .encRhr (operands 0x01 40000 128)) (fun t => (t.txbuf, t.status)) = some ([], 0x0803) := by
  decide

/-- V42. -/
theorem test_encRir_refused :
    after (exec .encRir (operands 0x01 95537 1)) (fun t => (t.txbuf, t.status)) = some ([], 0x0903) := by
  decide

/-- V47. -/
theorem test_encWsc_refused :
    after (exec .encWsc (operands 0x01 65536 0)) (fun t => (t.txbuf, t.status)) = some ([], 0x0903) := by
  decide

/-- V51. -/
theorem test_encWsr_refused :
    after (exec .encWsr (operands 0x01 40000 0)) (fun t => (t.txbuf, t.status)) = some ([], 0x0803) := by
  decide

/-- V19, V24, V35, V43. -/
theorem test_encode_reads :
    after (exec .encRc (operands 0x01 0xFFFF 2040)) (fun t => (t.txbuf, t.expLen)) =
      some ([0x01, 0x01, 0xFF, 0xFF, 0x07, 0xF8, 0x3F, 0x9C], 260) ∧
    after (exec .encRdi (operands 0x11 0x00C4 22)) (fun t => (t.txbuf, t.expLen)) =
      some ([0x11, 0x02, 0x00, 0xC4, 0x00, 0x16, 0xBA, 0xA9], 8) ∧
    after (exec .encRhr (operands 0x01 105536 1)) (fun t => (t.txbuf, t.expLen)) =
      some ([0x01, 0x03, 0xFF, 0xFF, 0x00, 0x01, 0x84, 0x2E], 7) ∧
    after (exec .encRir (operands 0x01 40001 1)) (fun t => (t.txbuf, t.expLen)) =
      some ([0x01, 0x04, 0x27, 0x10, 0x00, 0x01, 0x3A, 0xBB], 7) := by decide +kernel

/-- V46, V50, V55, V56, V62, V64. -/
theorem test_encode_writes :
    after (exec .encWsc { operands 0x01 0xFFFF 0 with bval := true })
      (fun t => (t.txbuf, t.expLen)) =
      some ([0x01, 0x05, 0xFF, 0xFF, 0xFF, 0x00, 0x8C, 0x1E], 8) ∧
    after (exec .encWsr { operands 0x01 40001 0 with val := 0x8000 })
      (fun t => (t.txbuf, t.expLen)) =
      some ([0x01, 0x06, 0x00, 0x00, 0x80, 0x00, 0xE8, 0x0A], 8) ∧
    after (exec .encWmc { operands 0x01 0 0 with wbit := List.replicate 9 true, wbcnt := 9 })
      (fun t => (t.txbuf, t.expLen)) =
      some ([0x01, 0x0F, 0x00, 0x00, 0x00, 0x09, 0x02, 0xFF, 0x01, 0x65, 0x4C], 8) ∧
    after (exec .encWmc (operands 0x01 0 0)) (fun t => (t.txbuf, t.expLen)) =
      some ([0x01, 0x0F, 0x00, 0x00, 0x00, 0x00, 0x00, 0x0B, 0x3F], 8) ∧
    after (exec .encWmr { operands 0x01 40001 0 with wreg := [0x3039, 0x1A85], wrcnt := 2 })
      (fun t => (t.txbuf, t.expLen)) =
      some ([0x01, 0x10, 0x00, 0x00, 0x00, 0x02, 0x04, 0x30, 0x39, 0x1A, 0x85, 0xE6, 0x61], 8) ∧
    after (exec .encWmr (operands 0x01 40001 0)) (fun t => (t.txbuf, t.expLen)) =
      some ([0x01, 0x10, 0x00, 0x00, 0x00, 0x00, 0x00, 0x09, 0x50], 8) := by decide +kernel

/-! ## The write-data buffers -/

/-- V126. -/
theorem test_wbClr :
    after (exec .wbClr { awaitingRead with wbit := [true], wbcnt := 1 })
      (fun t => (t.wbcnt, t.wbit, t.txlen, t.expLen)) = some (0, [], 8, 9) := by decide

/-- V68. -/
theorem test_wbPush :
    after (exec .wbPush { State.reset with wbit := [true], wbcnt := 1 })
      (fun t => (t.wbcnt, t.wbit)) = some (2, [true, false]) := by decide

/-- V68. -/
theorem test_wbPush_full :
    after (exec .wbPush { State.reset with wbcnt := 2040 }) (fun t => (t.wbcnt, t.cmderr)) =
      some (2040, true) := by decide

/-- R172. -/
theorem test_wrClr :
    after (exec .wrClr { State.reset with wreg := [7], wrcnt := 1 })
      (fun t => (t.wrcnt, t.wreg)) = some (0, []) := by decide

/-- R173. -/
theorem test_wrPush :
    after (exec .wrPush { State.reset with wreg := [7], wrcnt := 1, val := 0x8000 })
      (fun t => (t.wrcnt, t.wreg)) = some (2, [7, 0x8000]) := by decide

/-- V68. -/
theorem test_wrPush_full :
    after (exec .wrPush { State.reset with wrcnt := 127 }) (fun t => (t.wrcnt, t.cmderr)) =
      some (127, true) := by decide

/-! ## The response commands and the system commands -/

/-- V115. -/
theorem test_rxByte :
    after (exec .rxByte { received [0x01, 0x03, 0x04, 0x30, 0x39, 0x1A, 0x85, 0xEF] awaitingRead
        with din := 0xFD }) (fun t => (t.rxlen, t.rxbuf[8]?, t.status)) = some (9, some 0xFD, 0x0009) := by
  decide

/-- V117, V118 (the bytes stored earlier are left out). -/
theorem test_rxByte_beyond_capacity :
    after (exec .rxByte { awaitingRead with rxlen := 260, din := 0xFD })
      (fun t => (t.rxlen, t.rxbuf)) = some (261, []) ∧
    after (exec .rxByte { awaitingRead with rxlen := 65535 }) State.rxlen = some 65535 := by decide

/-- V69. -/
theorem test_validate :
    after (exec .validate receivedRead) (fun t => (t.status, t.payload)) =
      some (0x0006, [0x30, 0x39, 0x1A, 0x85]) := by decide +kernel

/-- V75. -/
theorem test_validate_crc_swapped :
    after (exec .validate
      (received [0x01, 0x03, 0x04, 0x30, 0x39, 0x1A, 0x85, 0xFD, 0xEF] awaitingRead))
      (fun t => (t.status, t.payload)) = some (0x0503, []) := by decide +kernel

/-- V119. -/
theorem test_abort :
    after (exec .abort (received [0x01, 0x03, 0x04] awaitingRead)) (fun t => (t.status, t.rxlen)) =
      some (0x0103, 3) := by decide

/-- V112, from `DONE`. -/
theorem test_nop : after (exec .nop finishedRead) State.status = some 0x0006 := by decide

/-- V124. -/
theorem test_reset :
    after (exec .reset { timedOut with cmderr := true }) id = some State.reset := by decide

/-! ## Frames as instructions -/

/-- V14, V24, V28, V38. -/
theorem test_exec_reads :
    after (exec (.reqRc 0x11 0x0013 37) State.reset)
      (fun t => (t.ref, t.phase, t.txbuf)) =
      some (0x0013, .await, [0x11, 0x01, 0x00, 0x13, 0x00, 0x25, 0x0E, 0x84]) ∧
    after (exec (.reqRdi 0x11 0x00C4 22) State.reset)
      (fun t => (t.ref, t.phase, t.txbuf)) =
      some (0x00C4, .await, [0x11, 0x02, 0x00, 0xC4, 0x00, 0x16, 0xBA, 0xA9]) ∧
    after (exec (.reqRhr 0x11 0x006B 3) State.reset)
      (fun t => (t.ref, t.phase, t.txbuf)) =
      some (40108, .await, [0x11, 0x03, 0x00, 0x6B, 0x00, 0x03, 0x76, 0x87]) ∧
    after (exec (.reqRir 0x11 0x0008 1) State.reset)
      (fun t => (t.ref, t.phase, t.txbuf)) =
      some (30009, .await, [0x11, 0x04, 0x00, 0x08, 0x00, 0x01, 0xB2, 0x98]) := by decide +kernel

/-- V44, V48, V53, V61. -/
theorem test_exec_writes :
    after (exec (.reqWsc 0x11 0x00AC true) State.reset)
      (fun t => (t.ref, t.phase, t.txbuf)) =
      some (0x00AC, .await, [0x11, 0x05, 0x00, 0xAC, 0xFF, 0x00, 0x4E, 0x8B]) ∧
    after (exec (.reqWsr 0x11 0x0001 3) State.reset)
      (fun t => (t.ref, t.phase, t.txbuf)) =
      some (40002, .await, [0x11, 0x06, 0x00, 0x01, 0x00, 0x03, 0x9A, 0x9B]) ∧
    after (exec (.reqWmc 0x11 0x0013
      [true, false, true, false, true, false, true, false, true, false]) State.reset)
      (fun t => (t.ref, t.phase, t.txbuf)) =
      some (0x0013, .await, [0x11, 0x0F, 0x00, 0x13, 0x00, 0x0A, 0x02, 0x55, 0x01, 0xD4, 0xCB]) ∧
    after (exec (.reqWmr 0x11 0x0001 [0x000A, 0x0102]) State.reset)
      (fun t => (t.ref, t.phase, t.txbuf)) =
      some (40002, .await, [0x11, 0x10, 0x00, 0x01, 0x00, 0x02, 0x04, 0x00, 0x0A, 0x01, 0x02, 0xC6, 0xF0]) := by
  decide +kernel

/-- V86, V87, V89, V88. -/
theorem test_exec_read_responses :
    after (exec (.rspRc 0x11 [0xCD, 0x6B, 0xB2, 0x0E, 0x1B] 0xE645)
      (expecting 0x11 0x01 10)) (fun t => (t.status, t.payload)) =
      some (0x0006, [0xCD, 0x6B, 0xB2, 0x0E, 0x1B]) ∧
    after (exec (.rspRdi 0x11 [0xAC, 0xDB, 0x35] 0x1820)
      (expecting 0x11 0x02 8)) (fun t => (t.status, t.payload)) =
      some (0x0006, [0xAC, 0xDB, 0x35]) ∧
    after (exec (.rspRhr 0x11 [0xAE, 0x41, 0x56, 0x52, 0x43, 0x40] 0xAD49)
      (expecting 0x11 0x03 11)) (fun t => (t.status, t.payload)) =
      some (0x0006, [0xAE, 0x41, 0x56, 0x52, 0x43, 0x40]) ∧
    after (exec (.rspRir 0x11 [0x00, 0x0A] 0xF4F8)
      (expecting 0x11 0x04 7)) (fun t => (t.status, t.payload)) =
      some (0x0006, [0x00, 0x0A]) := by decide +kernel

/-- V90, V94, V92, V93. -/
theorem test_exec_write_responses :
    after (exec (.rspWsc 0x11 0x00AC 0xFF00 0x8B4E)
      (expecting 0x11 0x05 8)) (fun t => (t.status, t.payload)) =
      some (0x0006, [0x00, 0xAC]) ∧
    after (exec (.rspWsr 0x11 0x1234 0x5678 0x6EF0)
      (expecting 0x11 0x06 8)) (fun t => (t.status, t.payload)) =
      some (0x0006, [0x12, 0x34]) ∧
    after (exec (.rspWmc 0x11 0x0013 0x000A 0x9926)
      (expecting 0x11 0x0F 8)) (fun t => (t.status, t.payload)) =
      some (0x0006, [0x00, 0x13]) ∧
    after (exec (.rspWmr 0x11 0x0001 0x0002 0x9812)
      (expecting 0x11 0x10 8)) (fun t => (t.status, t.payload)) =
      some (0x0006, [0x00, 0x01]) := by decide +kernel

/-! ## The step -/

/-- V114: `ENC.RHR` with all operands 0. -/
theorem test_step_runs_word :
    after (step (State.reset.withFetchWord 8 0x03)) State.status = some 0x0803 := by decide

/-- V28, byte 0 least significant. -/
theorem test_step_runs_frame_word :
    decodeTableWord 64 0x8776_0300_6B00_0311 = some (.reqRhr 0x11 0x006B 3) ∧
      after (step (State.reset.withFetchWord 64 0x8776_0300_6B00_0311)) State.phase = some .await := by
  decide +kernel

/-- V115. -/
theorem test_step_read :
    after (step { receivedRead with pending := [.read .status] }) State.rdata = some (some 9) := by
  decide

/-- 20_memory.md R63. -/
theorem test_step_read_outside :
    after (step { awaitingRead with pending := [.read (.txbuf 8)] }) State.rdata = none := by decide

/-- V110. -/
theorem test_step_unassigned :
    after (step { State.reset with pending := [.issue (.cmd 0x07)] }) State.status = some 0x0010 := by
  decide

/-! ## The host -/

/-- V103. -/
theorem test_registerValues :
    registerValues [0xFF, 0xFF, 0x80, 0x00] = [-1, -32768] ∧ registerValues [0x01, 0x02, 0x03] = [258] := by
  decide

/-- V102, its first bits. -/
theorem test_unpackBits :
    unpackBits [0xCD, 0x6B] 10 = [true, false, true, true, false, false, true, true, true, true].map some := by
  decide

/-- What has been sent and what is returned, if the operation ends. -/
def callResult (o : Host.Outcome (Session × ApiResult) Fault Refusal) :
    Option (List (List Byte) × ApiResult) :=
  match o with
  | .next (ses, r) => some (ses.sent, r)
  | .fault _ => none
  | .refused _ => none

/-- E2, the response in two pieces: the frame sent and the values read. -/
theorem test_masterCall_read :
    callResult (masterCall (.readHoldingRegisters 0x01 40001 2)
      [[0x01, 0x03, 0x04, 0x30], [], [0x39, 0x1A, 0x85, 0xEF, 0xFD]] ⟨State.reset, []⟩) =
      some ([[0x01, 0x03, 0x00, 0x00, 0x00, 0x02, 0xC4, 0x0B]], .registers [12345, 6789]) := by
  decide +kernel

/-- The request of V48 and the response of V94: success, although the echo differs. -/
theorem test_masterCall_write :
    callResult (masterCall (.writeSingleRegister 0x11 40002 3)
      [[0x11, 0x06, 0x12, 0x34, 0x56, 0x78, 0xF0, 0x6E]] ⟨State.reset, []⟩) =
      some ([[0x11, 0x06, 0x00, 0x01, 0x00, 0x03, 0x9A, 0x9B]], .written true) := by
  decide +kernel

/-- R225: a refused request sends nothing. -/
theorem test_masterCall_refused :
    callResult (masterCall (.readHoldingRegisters 0x01 40000 2) [] ⟨State.reset, []⟩) =
      some ([], .failed .refBelowOffset) := by
  decide

/-! ## Witnesses: states that meet the hypotheses of the obligations -/

theorem awaitingRead_frame : awaitingRead.txbuf = assemble 0x01 0x03 [0, 0, 0, 2] := by
  decide +kernel

theorem awaitingWrite_frame : awaitingWrite.txbuf = assemble 0x11 0x06 [0, 1, 0, 3] := by
  decide +kernel

/-- A state in which a response is awaited meets the invariant if its frame, its expectations and its
buffers do. -/
theorem inv_awaiting (s : State) (payload : List Byte)
    (hs : s.phase = .await ∧ s.ok = false ∧ s.err = .none ∧ s.payoff = 0 ∧ s.paylen = 0)
    (he : knownCode s.expFc ∧ 5 ≤ s.expLen.toNat ∧ s.expLen.toNat ≤ 260)
    (hf : s.txbuf = assemble s.expAddr s.expFc payload) (hw : Memory.wf s) : StateInv s := by
  obtain ⟨h1, h2, h3, h4, h5⟩ := hs
  obtain ⟨h6, h7, h8⟩ := he
  refine ⟨hw, ?_, ?_, .inr h6, h8, fun _ => ⟨h6, h7⟩, .inr ⟨payload, hf⟩, fun _ => ?_,
    fun _ => ⟨h4, h5⟩, ?_, ?_⟩
  · simp [h1, h2]
  · simp [h1, h3]
  · simp [hf, assemble]
  · simp [h1]
  · simp [h1]

/-- The request of E2 stands, whatever else the block holds in canonical form. -/
theorem inv_awaitingRead (s : State)
    (hs : s.phase = .await ∧ s.ok = false ∧ s.err = .none ∧ s.payoff = 0 ∧ s.paylen = 0)
    (he : s.expAddr = 0x01 ∧ s.expFc = 0x03 ∧ s.expLen = 9) (hf : s.txbuf = awaitingRead.txbuf)
    (hw : Memory.wf s) : StateInv s := by
  obtain ⟨h1, h2, h3⟩ := he
  refine inv_awaiting s [0, 0, 0, 2] hs ?_ ?_ hw
  · rw [h2, h3]
    decide
  · rw [hf, h1, h2]
    exact awaitingRead_frame

theorem inv_awaitingWrite : StateInv awaitingWrite :=
  inv_awaiting _ [0, 1, 0, 3] ⟨rfl, rfl, rfl, rfl, rfl⟩ ⟨by decide, by decide, by decide⟩
    awaitingWrite_frame (by decide)

theorem inv_timedOut : StateInv timedOut :=
  ⟨by decide, by decide, by decide, by decide, by decide, by decide,
    .inr ⟨[0, 0, 0, 2], awaitingRead_frame⟩, by decide, by decide, by decide, by decide⟩

/-- A request of E2 with `n` bytes received, all 0. -/
def manyReceived (n : Nat) (len : Word) : State :=
  { awaitingRead with rxbuf := List.replicate n 0, rxlen := len }

theorem inv_manyReceived (n : Nat) (len : Word) (h : n = min len.toNat 260) :
    StateInv (manyReceived n len) := by
  refine inv_awaitingRead _ ⟨rfl, rfl, rfl, rfl, rfl⟩ ⟨rfl, rfl, rfl⟩ rfl
    ⟨⟨rfl, ?_, rfl, rfl⟩, Nat.le_of_ble_eq_true rfl, ?_, Nat.le_of_ble_eq_true rfl,
      Nat.le_of_ble_eq_true rfl⟩
  · simpa [manyReceived] using h
  · simp only [manyReceived, List.length_replicate, Config.rxCap]
    omega

/-- The write-data buffers hold `m` bits and `n` registers. -/
def loaded (m n : Nat) : State :=
  { awaitingRead with
    wbit := List.replicate m true, wbcnt := BitVec.ofNat 11 m
    wreg := List.replicate n 0, wrcnt := BitVec.ofNat 7 n }

theorem inv_loaded (m n : Nat) (hm : m ≤ 2040) (hn : n ≤ 127) : StateInv (loaded m n) := by
  refine inv_awaitingRead _ ⟨rfl, rfl, rfl, rfl, rfl⟩ ⟨rfl, rfl, rfl⟩ rfl
    ⟨⟨rfl, rfl, ?_, ?_⟩, Nat.le_of_ble_eq_true rfl, Nat.le_of_ble_eq_true rfl, ?_, ?_⟩
  · simp only [loaded, List.length_replicate, BitVec.toNat_ofNat]
    omega
  · simp only [loaded, List.length_replicate, BitVec.toNat_ofNat]
    omega
  · simpa [loaded] using hm
  · simpa [loaded] using hn

theorem witness_StepKeepsTheInvariant :
    StateInv { awaitingRead with pending := [.write (.din 0x01)] } ∧
      ∃ t, step { awaitingRead with pending := [.write (.din 0x01)] } = .next t :=
  ⟨inv_awaitingRead _ ⟨rfl, rfl, rfl, rfl, rfl⟩ ⟨rfl, rfl, rfl⟩ rfl (by decide), _, rfl⟩

theorem witness_DecodeInvertsEncode :
    (Instr.reqWmc 0x01 0 (List.replicate 2040 true)).wellFormed = true ∧
      (Instr.reqWmr 0x01 0 (List.replicate 127 0)).wellFormed = true ∧
      (Instr.rspRc 0x01 (List.replicate 255 0) 0).wellFormed = true ∧ Instr.nop.wellFormed = true := by
  simp only [Instr.wellFormed, List.length_replicate]
  exact ⟨rfl, rfl, rfl, trivial⟩

theorem witness_EncodeInvertsDecode :
    decode (.response [0x01, 0x03, 0x00, 0x20, 0xF0]) = some (.rspRhr 0x01 [] 0xF020) := by decide

theorem witness_UnassignedCodeRaisesCommandError :
    ∀ c ∈ [(0x07 : Byte), 0x0E, 0x11, 0x1F, 0x22, 0x2F, 0x34, 0x3F, 0x43, 0x7E, 0x80, 0xFF],
      { State.reset with pending := [.issue (.cmd c)] }.pending = .issue (.cmd c) :: [] ∧
      ((0x07 ≤ c.toNat ∧ c.toNat ≤ 0x0E) ∨ (0x11 ≤ c.toNat ∧ c.toNat ≤ 0x1F) ∨
        (0x22 ≤ c.toNat ∧ c.toNat ≤ 0x2F) ∨ (0x34 ≤ c.toNat ∧ c.toNat ≤ 0x3F) ∨
        (0x43 ≤ c.toNat ∧ c.toNat ≤ 0x7E) ∨ (0x80 ≤ c.toNat ∧ c.toNat ≤ 0xFF)) := by decide

theorem witness_StepRunsTheDecodedInstruction :
    ∃ s : State, s.pending = .issue (.cmd 0x41) :: [] ∧ decode (.cmd 0x41) = some .validate :=
  ⟨{ State.reset with pending := [.issue (.cmd 0x41)] }, rfl, by decide⟩

theorem witness_PlacedCommandIsRunNext : encode .reset = .cmd 0x7F := rfl

theorem witness_HostWriteSetsOneRegister :
    ∀ w ∈ [OperandWrite.dev 0xFF, .ref 131071, .qty 0xFFFF, .val 0x8000, .bval true, .din 0xFF],
      { State.reset with pending := [.write w] }.pending = .write w :: [] := by decide

theorem witness_HostReadReturnsRegister :
    ∀ l : Loc, { State.reset with pending := [.read l] }.pending = .read l :: [] := fun _ => rfl

/-- The last byte inside each valid range and the first outside it. -/
theorem witness_HostReadOfBufferHasValidRange :
    (∀ l ∈ [Loc.txbuf 7, .txbuf 8, .rxbuf 8, .rxbuf 9],
      StateInv { receivedRead with pending := [.read l] }) ∧
    7 < receivedRead.txbuf.length ∧ receivedRead.txlen.toNat ≤ 8 ∧
    8 < receivedRead.rxbuf.length ∧ min receivedRead.rxlen.toNat 260 ≤ 9 :=
  ⟨fun _ _ => inv_awaitingRead _ ⟨rfl, rfl, rfl, rfl, rfl⟩ ⟨rfl, rfl, rfl⟩ rfl
      (show Memory.wf receivedRead by decide),
    by decide, by decide, by decide, by decide⟩

theorem witness_NoAccessNoChange : awaitingRead.pending = [] := rfl

theorem witness_ResetInputAndResetCommandAgree :
    { timedOut with pending := [.hardReset] }.pending = .hardReset :: [] := rfl

/-- Clause (d) of the CRC laws: the first bit and the last bit of a frame. -/
theorem witness_CrcLaws :
    0 < ([0x01, 0x03] ++ crc16 [0x01, 0x03]).length ∧
      3 < ([0x01, 0x03] ++ crc16 [0x01, 0x03]).length ∧ 0 < 8 ∧ 7 < 8 := by decide

theorem witness_CodecNeitherReadsNorWritesCrc :
    ∀ i ∈ [Instr.encRc, .encRdi, .encRhr, .encRir, .encWsc, .encWsr, .encWmc, .encWmr, .validate],
      (after (exec i timedOut) State.phase).isSome = true := by decide +kernel

/-- The corners of the three ranges: largest address and quantity; address one above; quantity one
above. -/
theorem witness_ReadBitsRequestIsBuilt :
    ((operands 0x01 0xFFFF 2040).ref.toNat ≤ 0xFFFF ∧ (operands 0x01 0xFFFF 2040).qty.toNat ≤ 2040) ∧
    0xFFFF < (operands 0x01 65536 0).ref.toNat ∧
    ((operands 0x01 0xFFFF 2041).ref.toNat ≤ 0xFFFF ∧
      2040 < (operands 0x01 0xFFFF 2041).qty.toNat) := by decide

theorem witness_ReadRegistersRequestIsBuilt :
    ∀ k ∈ [40001, 30001],
      (∀ r ∈ [k, k + 0xFFFF],
        k ≤ (operands 0x01 (BitVec.ofNat 17 r) 127).ref.toNat ∧
        (operands 0x01 (BitVec.ofNat 17 r) 127).ref.toNat ≤ k + 0xFFFF ∧
        (operands 0x01 (BitVec.ofNat 17 r) 127).qty.toNat ≤ 127 ∧
        127 < (operands 0x01 (BitVec.ofNat 17 r) 128).qty.toNat) ∧
      (operands 0x01 (BitVec.ofNat 17 (k - 1)) 1).ref.toNat < k ∧
      k + 0xFFFF < (operands 0x01 (BitVec.ofNat 17 (k + 0x10000)) 1).ref.toNat := by decide

theorem witness_SingleWriteRequestIsBuilt :
    (operands 0x01 0xFFFF 0).ref.toNat ≤ 0xFFFF ∧ 0xFFFF < (operands 0x01 65536 0).ref.toNat ∧
    40001 ≤ (operands 0x01 40001 0).ref.toNat ∧ (operands 0x01 105536 0).ref.toNat ≤ 105536 ∧
    (operands 0x01 40000 0).ref.toNat < 40001 ∧ 105536 < (operands 0x01 105537 0).ref.toNat := by
  decide

/-- Full buffers at the reference of a holding register, which is also a bit address. -/
theorem witness_MultipleWriteRequestIsBuilt :
    StateInv (loaded 2040 127) ∧ (loaded 2040 127).ref.toNat ≤ 0xFFFF ∧
    40001 ≤ (loaded 2040 127).ref.toNat ∧
    ∀ r ∈ [(65536 : BitVec 17), 40000, 105537], StateInv { loaded 0 0 with ref := r } :=
  ⟨inv_loaded _ _ (by decide) (by decide), by decide, by decide, fun _ _ =>
    inv_awaitingRead _ ⟨rfl, rfl, rfl, rfl, rfl⟩ ⟨rfl, rfl, rfl⟩ rfl
      (show Memory.wf (loaded 0 0) by decide)⟩

/-- Two states with the same operands and different exchanges behind them. -/
theorem witness_FrameIsAFunctionOfTheOperands :
    (∀ i ∈ [Instr.encRc, .encRdi, .encRhr, .encRir, .encWsc, .encWsr, .encWmc, .encWmr],
      (after (exec i awaitingRead) State.phase).isSome = true ∧
      (after (exec i timedOut) State.phase).isSome = true) ∧
    awaitingRead.dev = timedOut.dev ∧ awaitingRead.ref = timedOut.ref ∧
    awaitingRead.qty = timedOut.qty ∧ awaitingRead.wbit = timedOut.wbit ∧
    awaitingRead.phase ≠ timedOut.phase := by decide +kernel

theorem witness_RequestLengthIsBounded :
    StateInv awaitingRead ∧
      ∀ i ∈ [Instr.encRc, .encRdi, .encRhr, .encRir, .encWsc, .encWsr, .encWmc, .encWmr],
        after (exec i awaitingRead) State.phase = some .await :=
  ⟨inv_awaitingRead _ ⟨rfl, rfl, rfl, rfl, rfl⟩ ⟨rfl, rfl, rfl⟩ rfl (by decide), by decide +kernel⟩

theorem witness_PackedBitsAreLsbFirst :
    1 < (pack [true, false, true, false, true, false, true, false, true, false]).length ∧ 7 < 8 := by
  decide

theorem witness_RegisterDataIsBigEndian : 1 < [(0x000A : Word), 0x0102].length := by decide

theorem witness_PushAppendsOneValue :
    (StateInv (loaded 2039 126) ∧ (loaded 2039 126).wbcnt.toNat < 2040 ∧
      (loaded 2039 126).wrcnt.toNat < 127) ∧
    (StateInv (loaded 2040 127) ∧ (loaded 2040 127).wbcnt.toNat = 2040 ∧
      (loaded 2040 127).wrcnt.toNat = 127) :=
  ⟨⟨inv_loaded _ _ (by decide) (by decide), by decide, by decide⟩,
    inv_loaded _ _ (by decide) (by decide), by decide, by decide⟩

/-- One input for each clause: outside the domain twice, then checks 1, 2, 3 (read and write), 5, and
the two acceptances (V69 to V76, V83, V90, V95, V97). -/
theorem witness_ValidatorMakesTheChecksInOrder :
    (¬ ((0x83 : Byte) = 0x01 ∨ (0x83 : Byte) = 0x02 ∨ (0x83 : Byte) = 0x03 ∨ (0x83 : Byte) = 0x04 ∨
      (0x83 : Byte) = 0x05 ∨ (0x83 : Byte) = 0x06 ∨ (0x83 : Byte) = 0x0F ∨ (0x83 : Byte) = 0x10)) ∧
    4 < 5 ∧ ([] : List Byte).length < 5 ∧
    (5 ≤ [(0x01 : Byte), 0x83, 0x02, 0xC0, 0xF1].length ∧ (0x83 : Byte) ≠ 0x03) ∧
    [(0x01 : Byte), 0x03, 0x00, 0x20, 0xF0, 0x00].length ≠ 5 + (0x00 : Byte).toNat ∧
    [(0x11 : Byte), 0x06, 0x00, 0x01, 0x00, 0x03, 0x9A, 0x9B, 0x00].length ≠ 8 ∧
    crc16 [0x01, 0x03, 0x00] ≠ [0xF0, 0x20] ∧ crc16 [0x01, 0x03, 0x00] = [0x20, 0xF0] ∧
    crc16 [0x11, 0x05, 0x00, 0xAC, 0xFF, 0x00] = [0x4E, 0x8B] := by decide +kernel

theorem witness_SingleBitCorruptionIsRejected :
    validateAndExtract [0x01, 0x03, 0x00, 0x20, 0xF0] 0x01 0x03 5 = some (.ok []) ∧
    validateAndExtract [0x11, 0x0F, 0x00, 0x13, 0x00, 0x0A, 0x26, 0x99] 0x11 0x0F 8
      = some (.ok [0x00, 0x13]) := by decide +kernel

/-- The last byte that is stored, the first that is only counted, and the saturated count. -/
theorem witness_ReceivedByteIsAppended :
    (StateInv (manyReceived 259 259) ∧ (manyReceived 259 259).rxlen.toNat < 260) ∧
    (StateInv (manyReceived 260 260) ∧ 260 ≤ (manyReceived 260 260).rxlen.toNat ∧
      (manyReceived 260 260).rxlen.toNat < 0xFFFF) ∧
    (StateInv (manyReceived 260 0xFFFF) ∧ (manyReceived 260 0xFFFF).rxlen.toNat = 0xFFFF) ∧
    (StateInv timedOut ∧ timedOut.phase ≠ .await) :=
  ⟨⟨inv_manyReceived _ _ (by decide), by decide⟩,
    ⟨inv_manyReceived _ _ (by decide), by decide, by decide⟩,
    ⟨inv_manyReceived _ _ (by decide), by decide⟩, inv_timedOut, by decide⟩

/-- A response that passes, one that does not (V75), and a phase in which none is awaited. -/
theorem witness_ValidateRecordsTheResult :
    (StateInv receivedRead ∧ receivedRead.phase = .await ∧
      receivedRead.rxbuf.length = receivedRead.rxlen.toNat ∧
      receivedRead.rxbuf.take 260 = receivedRead.rxbuf ∧
      validateAndExtract receivedRead.rxbuf 0x01 0x03 9 = some (.ok [0x30, 0x39, 0x1A, 0x85])) ∧
    (StateInv awaitingRead ∧ awaitingRead.phase = .await ∧
      validateAndExtract awaitingRead.rxbuf 0x01 0x03 9 = some (.error .incompleteResponse)) ∧
    StateInv timedOut ∧ timedOut.phase ≠ .await :=
  ⟨⟨inv_awaitingRead _ ⟨rfl, rfl, rfl, rfl, rfl⟩ ⟨rfl, rfl, rfl⟩ rfl (by decide), rfl, by decide, rfl,
      by decide +kernel⟩,
    ⟨inv_awaitingRead _ ⟨rfl, rfl, rfl, rfl, rfl⟩ ⟨rfl, rfl, rfl⟩ rfl (by decide), rfl, by decide⟩,
    inv_timedOut, by decide⟩

/-- E2's response for the read family, V91 for the write-confirmation family. -/
theorem witness_ValidateAcceptsASoundResponse :
    (StateInv receivedRead ∧ receivedRead.phase = .await ∧ receivedRead.expFc.toNat ≤ 4 ∧
      receivedRead.expLen.toNat ≤ 5 + [(0x30 : Byte), 0x39, 0x1A, 0x85].length ∧
      receivedRead.rxlen.toNat = 5 + [(0x30 : Byte), 0x39, 0x1A, 0x85].length) ∧
    receivedRead.rxbuf =
      [0x01, 0x03, 0x04, 0x30, 0x39, 0x1A, 0x85]
        ++ crc16 [0x01, 0x03, 0x04, 0x30, 0x39, 0x1A, 0x85] ∧
    (StateInv (received [0x11, 0x06, 0x00, 0x01, 0x00, 0x03, 0x9A, 0x9B] awaitingWrite) ∧
      5 ≤ awaitingWrite.expFc.toNat ∧ awaitingWrite.expLen.toNat ≤ 8) ∧
    [(0x9A : Byte), 0x9B] = crc16 [0x11, 0x06, 0x00, 0x01, 0x00, 0x03] :=
  ⟨⟨inv_awaitingRead _ ⟨rfl, rfl, rfl, rfl, rfl⟩ ⟨rfl, rfl, rfl⟩ rfl (by decide), rfl, by decide,
      by decide, by decide⟩, by decide +kernel,
    ⟨inv_awaiting _ [0, 1, 0, 3] ⟨rfl, rfl, rfl, rfl, rfl⟩ ⟨by decide, by decide, by decide⟩
      awaitingWrite_frame (by decide), by decide, by decide⟩, by decide +kernel⟩

theorem witness_AbortRecordsTheTimeout :
    awaitingRead.phase = .await ∧ timedOut.phase ≠ .await := by decide

theorem witness_FiniteResponseBufferIsExact :
    StateInv awaitingRead ∧ awaitingRead.phase = .await ∧ awaitingRead.rxlen = 0 ∧
    validateAndExtract receivedRead.rxbuf awaitingRead.expAddr awaitingRead.expFc
      awaitingRead.expLen.toNat = some (.ok [0x30, 0x39, 0x1A, 0x85]) ∧
    validateAndExtract [] awaitingRead.expAddr awaitingRead.expFc awaitingRead.expLen.toNat
      = some (.error .incompleteResponse) :=
  ⟨inv_awaitingRead _ ⟨rfl, rfl, rfl, rfl, rfl⟩ ⟨rfl, rfl, rfl⟩ rfl (by decide), rfl, rfl,
    by decide +kernel, by decide⟩

theorem witness_ReadRequestFrameIsReproduced :
    (2040 : Word).toNat ≤ 2040 ∧ 2040 < (2041 : Word).toNat ∧ (127 : Word).toNat ≤ 127 ∧
      127 < (128 : Word).toNat := by
  decide

theorem witness_MultipleWriteFrameIsReproduced :
    (List.replicate 2040 true).length ≤ 2040 ∧ (List.replicate 127 (0 : Word)).length ≤ 127 := by
  simp only [List.length_replicate]
  decide

theorem witness_ResponseFrameRefinesItsStatements :
    encode (.rspRhr 0x01 [] 0xF020) = .response [0x01, 0x03, 0x00, 0x20, 0xF0] := by decide

theorem witness_ReadResponseFrameCompletes :
    StateInv awaitingRead ∧ awaitingRead.phase = .await ∧ awaitingRead.rxlen = 0 ∧
    awaitingRead.expLen.toNat ≤ 5 + [(0x30 : Byte), 0x39, 0x1A, 0x85].length ∧
    awaitingRead.expFc = 0x03 ∧
    (0xFDEF : Word) = crc16Value [0x01, 0x03, 0x04, 0x30, 0x39, 0x1A, 0x85] ∧
    ∀ fc ∈ [(0x01 : Byte), 0x02, 0x04],
      StateInv { awaitingRead with expFc := fc, txbuf := assemble 0x01 fc [0, 0, 0, 2] } := by
  refine ⟨inv_awaitingRead _ ⟨rfl, rfl, rfl, rfl, rfl⟩ ⟨rfl, rfl, rfl⟩ rfl (by decide), rfl, rfl,
    by decide, rfl, by decide +kernel, fun fc hfc => ?_⟩
  refine inv_awaiting _ [0, 0, 0, 2] ⟨rfl, rfl, rfl, rfl, rfl⟩ ⟨?_, Nat.le_of_ble_eq_true rfl,
    Nat.le_of_ble_eq_true rfl⟩ rfl
    ⟨⟨rfl, rfl, rfl, rfl⟩, Nat.le_of_ble_eq_true rfl, Nat.le_of_ble_eq_true rfl,
      Nat.le_of_ble_eq_true rfl, Nat.le_of_ble_eq_true rfl⟩
  revert fc
  decide

theorem witness_WriteResponseFrameCompletes :
    StateInv awaitingWrite ∧ awaitingWrite.phase = .await ∧ awaitingWrite.rxlen = 0 ∧
    awaitingWrite.expLen.toNat ≤ 8 ∧ awaitingWrite.expFc = 0x06 ∧
    (0x9B9A : Word) = crc16Value [0x11, 0x06, hiByte 1, loByte 1, hiByte 3, loByte 3] :=
  ⟨inv_awaitingWrite, rfl, rfl, by decide, rfl, by decide +kernel⟩

theorem witness_ResponseFrameOutsideAwaitIsCommandError :
    encode (.rspRhr 0x01 [] 0xF020) = .response [0x01, 0x03, 0x00, 0x20, 0xF0] ∧
      finishedRead.phase ≠ .await := by decide

theorem witness_RegisterReadRoundTrips :
    (0xFF : Byte) ≠ 0 ∧ (List.replicate 127 (0x8000 : Word)).length ≤ 127 := by
  simp only [List.length_replicate]
  decide

theorem witness_BitReadRoundTrips :
    (0x01 : Byte) ≠ 0 ∧ (List.replicate 2040 true).length ≤ 2040 := by
  simp only [List.length_replicate]
  decide

theorem witness_PhaseChangesOnlyAsTheTableSays :
    (∀ i ∈ [Instr.encRc, .encRdi, .encRhr, .encRir, .encWsc, .encWsr, .encWmc, .encWmr, .rxByte,
        .validate, .abort, .reset, .nop, .crcInit, .crcByte, .wbClr, .wbPush, .wrClr, .wrPush],
      (after (exec i awaitingRead) State.phase).isSome = true ∧
      (after (exec i timedOut) State.phase).isSome = true) ∧
    awaitingRead.phase = .await ∧ timedOut.phase ≠ .await := by decide +kernel

/-- A command in a state it may set `CMDERR` in; a step that clears it, by a queue headed by the reset
input; an unassigned code. -/
theorem witness_CommandErrorIsSticky :
    (Instr.rxByte.isCommand ∧ Instr.rxByte ≠ .reset ∧
      after (exec .rxByte timedOut) State.cmderr = some true) ∧
    after (step { timedOut with cmderr := true, pending := [.hardReset] }) State.cmderr = some false ∧
    decode (.cmd 0x43) = none :=
  ⟨⟨⟨0x40, rfl⟩, by decide, by decide⟩, by decide, by decide⟩

theorem witness_FailuresDoNotNest :
    (∀ i ∈ [Instr.encRhr, .encRir, .reset, .validate, .wbPush],
      (after (exec i timedOut) State.phase).isSome = true) ∧
    (Instr.encRhr.isCommand ∧ Instr.reset.isCommand ∧ Instr.validate.isCommand) ∧
    timedOut.phase = .fail :=
  ⟨by decide +kernel, ⟨⟨0x03, rfl⟩, ⟨0x7F, rfl⟩, ⟨0x41, rfl⟩⟩, rfl⟩

/-- The full buffers. -/
theorem witness_CommandErrorIsSticky_buffers :
    (loaded 2040 127).wbcnt.toNat = 2040 ∧ (loaded 2040 127).wrcnt.toNat = 127 := by decide

theorem witness_CommandsDoNotWriteOperands :
    Instr.encRhr.isCommand ∧ Instr.encRhr ≠ .reset ∧
      (after (exec .encRhr awaitingRead) State.dev).isSome = true :=
  ⟨⟨0x03, rfl⟩, by decide, by decide +kernel⟩

theorem witness_WriteBuffersChangeOnlyByTheirCommands :
    Instr.wrPush.isCommand ∧ Instr.wrPush ≠ .reset ∧ Instr.wrPush ≠ .wbClr ∧ Instr.wrPush ≠ .wbPush ∧
      (after (exec .wrPush (loaded 2 2)) State.wrcnt).isSome = true :=
  ⟨⟨0x33, rfl⟩, by decide, by decide, by decide, by decide⟩

theorem witness_BuiltFrameIsImmutable :
    let s : State := { awaitingRead with pending := [.issue (.cmd 0x20)] }
    (after (step s) State.txbuf).isSome = true ∧ s.pending.head? ≠ some .hardReset ∧
    ∀ x i, s.pending.head? = some (.issue x) → decode x = some i →
      i ∉ [Instr.encRc, .encRdi, .encRhr, .encRir, .encWsc, .encWsr, .encWmc, .encWmr, .reset] ∧
      ∀ f, encode i ≠ .request f := by
  refine ⟨by decide, by decide, fun x i hx hi => ?_⟩
  cases hx
  have h : some Instr.crcInit = some i := hi
  cases h
  exact ⟨by decide, fun f h => by cases h⟩

theorem witness_BufferBytesFrame :
    StateInv (manyReceived 259 259) ∧ Instr.rxByte.isCommand ∧
      Instr.rxByte ∉ [Instr.encRc, .encRdi, .encRhr, .encRir, .encWsc, .encWsr, .encWmc, .encWmr,
        .reset] ∧
      (manyReceived 259 259).phase = .await ∧ (manyReceived 259 259).rxlen.toNat < 260 ∧
      ∃ t, exec .rxByte (manyReceived 259 259) = .next t :=
  ⟨inv_manyReceived _ _ (by decide), ⟨0x40, rfl⟩, by decide, rfl, by decide, _, rfl⟩

theorem witness_RegisterPayloadIsSignedBigEndian :
    2 * 1 + 1 < [(0xFF : Byte), 0xFF, 0x80, 0x00, 0x01].length := by decide

theorem inv_awaitingReadNow : StateInv awaitingRead :=
  inv_awaitingRead _ ⟨rfl, rfl, rfl, rfl, rfl⟩ ⟨rfl, rfl, rfl⟩ rfl (by decide)

theorem witness_SilentTransportEndsInTimeout :
    awaitingRead.expAddr ≠ 0 ∧ awaitingRead.phase = .await ∧
      awaitingRead.rxlen.toNat < awaitingRead.expLen.toNat := by decide

theorem witness_SessionNeverValidatesAShortBuffer :
    StateInv awaitingRead ∧ awaitingRead.phase = .await ∧ awaitingRead.expAddr ≠ 0 :=
  ⟨inv_awaitingReadNow, rfl, by decide⟩

theorem witness_ExchangeSendsTheFrameOnce :
    (StateInv awaitingRead ∧ awaitingRead.phase = .await ∧ awaitingRead.expAddr ≠ 0) ∧
      (expecting 0x00 0x03 9).expAddr = 0 :=
  ⟨⟨inv_awaitingReadNow, rfl, by decide⟩, rfl⟩

/-- An operation that is refused, one for device 0, one whose response is a byte short, and one whose
second poll completes it. -/
theorem witness_OperationEncodesExchangesDecodes :
    StateInv awaitingRead ∧
    after (serveAll (Operation.readHoldingRegisters 0x01 40000 2).statements awaitingRead) State.phase =
      some .fail ∧
    after (serveAll (Operation.readHoldingRegisters 0x00 40001 2).statements awaitingRead)
      (fun t => (t.phase, t.expAddr)) = some (.await, 0x00) ∧
    after (serveAll (Operation.readHoldingRegisters 0x01 40001 2).statements awaitingRead)
      (fun t => (t.phase, t.expAddr, t.expLen)) = some (.await, 0x01, 9) ∧
    ([[0x01, 0x03, 0x04, 0x30], [0x39, 0x1A, 0x85, 0xEF]] : List (List Byte)).flatten.length < 9 ∧
    ([[0x01, 0x03, 0x04, 0x30]] : List (List Byte)).flatten.length < 9 ∧
    9 ≤ (([[0x01, 0x03, 0x04, 0x30]] : List (List Byte)).flatten ++
      [0x39, 0x1A, 0x85, 0xEF, 0xFD]).length :=
  ⟨inv_awaitingReadNow, by decide +kernel, by decide +kernel, by decide +kernel, by decide, by decide,
    by decide⟩

end Sys2Proof.Tests
end

section
/-! SUPPORT. What the 19 commands can do, said once: the common form of the eight `ENC.*`, and an
inversion of `exec` on a command into the updates of the state it can come to. -/

namespace Sys2Proof

open Sys2Proof.Machine

/-! ### The eight `ENC.*` as one command -/

/-- The `ENC.*` that builds the request of a function code (30_encoding.md R92, R96). -/
def FunctionCode.command : FunctionCode → Instr
  | .rc => .encRc
  | .rdi => .encRdi
  | .rhr => .encRhr
  | .rir => .encRir
  | .wsc => .encWsc
  | .wsr => .encWsr
  | .wmc => .encWmc
  | .wmr => .encWmr

/-- The payload that the `ENC.*` of a function code builds from the address field `a` and the
operands (41_encode.md R156 to R163). -/
def FunctionCode.payloadOf (op : FunctionCode) (s : State) (a : Word) : List Byte :=
  match op with
  | .rc => plRead a s.qty
  | .rdi => plRead a s.qty
  | .rhr => plRead a s.qty
  | .rir => plRead a s.qty
  | .wsc => plWsc a s.bval
  | .wsr => plWsr a s.val
  | .wmc => plWmc a (s.wbit.take s.wbcnt.toNat)
  | .wmr => plWmr a (s.wreg.take s.wrcnt.toNat)

end Sys2Proof

namespace Sys2Proof.Machine

open Sys2Proof

theorem mem_encodeCommands_iff (i : Instr) :
    i ∈ [Instr.encRc, .encRdi, .encRhr, .encRir, .encWsc, .encWsr, .encWmc, .encWmr] ↔
      ∃ op : FunctionCode, i = op.command := by
  constructor
  · intro h
    simp only [List.mem_cons, List.not_mem_nil, or_false] at h
    obtain rfl | rfl | rfl | rfl | rfl | rfl | rfl | rfl := h
    exacts [⟨.rc, rfl⟩, ⟨.rdi, rfl⟩, ⟨.rhr, rfl⟩, ⟨.rir, rfl⟩, ⟨.wsc, rfl⟩, ⟨.wsr, rfl⟩,
      ⟨.wmc, rfl⟩, ⟨.wmr, rfl⟩]
  · rintro ⟨op, rfl⟩
    cases op <;> simp [FunctionCode.command]

theorem command_isCommand (op : FunctionCode) : op.command.isCommand := by
  cases op <;> exact ⟨_, rfl⟩

theorem command_ne_reset (op : FunctionCode) : op.command ≠ .reset := by
  cases op <;> nofun

theorem exec_encodeCommand (op : FunctionCode) (s : State) :
    exec op.command s = .next (buildFrame op (op.payloadOf s) s) := by
  cases op <;> rfl

/-- Whatever the buffers hold, the frame fits `TXBUF` (41_encode.md R164). -/
theorem payloadOf_length_le (op : FunctionCode) {s : State} (h : Memory.wf s) (a : Word) :
    (op.payloadOf s a).length ≤ 260 := by
  obtain ⟨-, -, -, hbits, hregs⟩ := h
  simp only [Config.wbCap, Config.wrCap] at hbits hregs
  cases op <;> simp only [FunctionCode.payloadOf, plRead_length, plWsc_length, plWsr_length,
    plWmc_length, plWmr_length, List.length_take, ceilDiv] <;> omega

/-! ### What a command can do -/

/-- The command error conditions of 60_exceptions.md R262 for an assigned code: a response command
outside `AWAIT` (42_validate.md R200 to R202), or a push into a full buffer (41_encode.md R171,
R173). -/
def NotAdmitted (i : Instr) (s : State) : Prop :=
  ((i = .rxByte ∨ i = .validate ∨ i = .abort) ∧ s.phase ≠ .await) ∨
  (i = .wbPush ∧ s.wbcnt.toNat = 2040) ∨ (i = .wrPush ∧ s.wrcnt.toNat = 127)

/-- `CommandEffect s i t`: in state `s` the command `i` can lead to `t`, and under which conditions. -/
inductive CommandEffect (s : State) : Instr → State → Prop
  | nothing : CommandEffect s .nop s
  | accepted {i : Instr} (op : FunctionCode) (a : Word) (hi : i = op.command)
      (ha : operandCheck op s = .ok a) :
      CommandEffect s i (acceptFrame op (assemble s.dev op.code (op.payloadOf s a))
        (op.expectedLen s.qty.toNat) s)
  | refused {i : Instr} (op : FunctionCode) (cause : ErrCode) (hi : i = op.command)
      (hc : cause ≠ .none) : CommandEffect s i (raise (.encode cause) s)
  | accumulated {i : Instr} (c : Word) (hi : i = .crcInit ∨ i = .crcByte) :
      CommandEffect s i { s with crc := c }
  | bitsCleared : CommandEffect s .wbClr (clearBits s)
  | bitPushed (hroom : s.wbcnt.toNat ≠ 2040) : CommandEffect s .wbPush
      { s with wbit := storeAt s.wbit s.wbcnt.toNat s.bval, wbcnt := s.wbcnt + 1 }
  | regsCleared : CommandEffect s .wrClr (clearRegs s)
  | regPushed (hroom : s.wrcnt.toNat ≠ 127) : CommandEffect s .wrPush
      { s with wreg := storeAt s.wreg s.wrcnt.toNat s.val, wrcnt := s.wrcnt + 1 }
  | byteReceived (hp : s.phase = .await) : CommandEffect s .rxByte
      { s with
        rxbuf := if s.rxlen.toNat < 260 then storeAt s.rxbuf s.rxlen.toNat s.din else s.rxbuf
        rxlen := if s.rxlen.toNat < 0xFFFF then s.rxlen + 1 else s.rxlen }
  | exposed (off n : Nat) (hp : s.phase = .await)
      (hv : checkResponse s.rxbuf s.rxlen.toNat s.expAddr s.expFc s.expLen.toNat =
        .accepted off n) : CommandEffect s .validate
      { s with
        payoff := BitVec.ofNat 2 off, paylen := BitVec.ofNat 8 n
        ok := true, err := .none, phase := .done }
  | failed {i : Instr} (cause : ErrCode) (hi : i = .validate ∨ i = .abort) (hp : s.phase = .await)
      (hc : cause ≠ .none) : CommandEffect s i (raise (.exchange cause) s)
  | notAdmitted {i : Instr} (h : NotAdmitted i s) : CommandEffect s i (raise .command s)
  | reset : CommandEffect s .reset (resetBlock s)

theorem pushBit_of_room {s : State} (h : s.wbcnt.toNat ≠ 2040) :
    pushBit s = { s with wbit := storeAt s.wbit s.wbcnt.toNat s.bval, wbcnt := s.wbcnt + 1 } :=
  if_neg h

theorem pushBit_of_full {s : State} (h : s.wbcnt.toNat = 2040) : pushBit s = raise .command s :=
  if_pos h

theorem pushReg_of_room {s : State} (h : s.wrcnt.toNat ≠ 127) :
    pushReg s = { s with wreg := storeAt s.wreg s.wrcnt.toNat s.val, wrcnt := s.wrcnt + 1 } :=
  if_neg h

theorem pushReg_of_full {s : State} (h : s.wrcnt.toNat = 127) : pushReg s = raise .command s :=
  if_pos h

theorem abortExchange_await {s : State} (h : s.phase = .await) :
    abortExchange s = raise (.exchange .timeout) s :=
  if_pos h

theorem abortExchange_of_not_await {s : State} (h : s.phase ≠ .await) :
    abortExchange s = raise .command s :=
  if_neg h

theorem encodeCommand_effect (op : FunctionCode) (s : State) :
    CommandEffect s op.command (buildFrame op (op.payloadOf s) s) := by
  rcases buildFrame_cases op (op.payloadOf s) s with ⟨c, hc, -, e⟩ | ⟨a, ha, e⟩ <;> rw [e]
  · exact .refused op c rfl hc
  · exact .accepted op a rfl ha

theorem pushBit_effect (s : State) : CommandEffect s .wbPush (pushBit s) := by
  by_cases h : s.wbcnt.toNat = 2040
  · exact pushBit_of_full h ▸ .notAdmitted (.inr (.inl ⟨rfl, h⟩))
  · exact pushBit_of_room h ▸ .bitPushed h

theorem pushReg_effect (s : State) : CommandEffect s .wrPush (pushReg s) := by
  by_cases h : s.wrcnt.toNat = 127
  · exact pushReg_of_full h ▸ .notAdmitted (.inr (.inr ⟨rfl, h⟩))
  · exact pushReg_of_room h ▸ .regPushed h

theorem receiveByte_effect (s : State) : CommandEffect s .rxByte (receiveByte s) := by
  by_cases h : s.phase = .await
  · exact receiveByte_await s h ▸ .byteReceived h
  · exact receiveByte_of_not_await s h ▸ .notAdmitted (.inl ⟨.inl rfl, h⟩)

theorem abortExchange_effect (s : State) : CommandEffect s .abort (abortExchange s) := by
  by_cases h : s.phase = .await
  · exact abortExchange_await h ▸ .failed .timeout (.inr rfl) h nofun
  · exact abortExchange_of_not_await h ▸ .notAdmitted (.inl ⟨.inr (.inr rfl), h⟩)

theorem validateResponse_effect {s t : State} (ht : validateResponse s = .next t) :
    CommandEffect s .validate t := by
  rcases validateResponse_cases s with ⟨hp, e⟩ | ⟨hp, off, n, hv, e⟩ | ⟨hp, c, hv, e⟩ | ⟨-, -, e⟩ |
    ⟨-, -, e⟩ <;> rw [e] at ht <;> cases ht
  · exact .notAdmitted (.inl ⟨.inr (.inl rfl), hp⟩)
  · exact .exposed off n hp hv
  · exact .failed c (.inl rfl) hp (checkResponse_rejected hv)

/-- What holds of the state an instruction computes holds of the next state. -/
theorem of_next {P : State → Prop} {u t : State}
    (ht : (.next u : Host.Outcome State Fault Refusal) = .next t) (h : P u) : P t :=
  Host.Outcome.next.inj ht ▸ h

/-- All that a command can do. -/
theorem commandEffect_of_exec {i : Instr} {s t : State} (hi : i.isCommand)
    (ht : exec i s = .next t) : CommandEffect s i t := by
  obtain ⟨c, hc⟩ := hi
  cases i with
  | nop => exact of_next ht .nothing
  | encRc => exact of_next ht (encodeCommand_effect .rc s)
  | encRdi => exact of_next ht (encodeCommand_effect .rdi s)
  | encRhr => exact of_next ht (encodeCommand_effect .rhr s)
  | encRir => exact of_next ht (encodeCommand_effect .rir s)
  | encWsc => exact of_next ht (encodeCommand_effect .wsc s)
  | encWsr => exact of_next ht (encodeCommand_effect .wsr s)
  | encWmc => exact of_next ht (encodeCommand_effect .wmc s)
  | encWmr => exact of_next ht (encodeCommand_effect .wmr s)
  | crcInit => exact of_next ht (.accumulated _ (.inl rfl))
  | crcByte => exact of_next ht (.accumulated _ (.inr rfl))
  | wbClr => exact of_next ht .bitsCleared
  | wbPush => exact of_next ht (pushBit_effect s)
  | wrClr => exact of_next ht .regsCleared
  | wrPush => exact of_next ht (pushReg_effect s)
  | rxByte => exact of_next ht (receiveByte_effect s)
  | validate => exact validateResponse_effect ht
  | abort => exact of_next ht (abortExchange_effect s)
  | reset => exact of_next ht .reset
  | _ => cases hc

end Sys2Proof.Machine
end

section
/-! SUPPORT. An induction over what a step can be: a compound access is a sequence of host writes and
commands (30_encoding.md R114, 43_host_session_api.md R222), so a predicate that these keep is kept by
every step that serves no reset. -/

namespace Sys2Proof.Machine

open Sys2Proof

/-- A predicate of the block that nothing but a reset ends: the host's own fields play no part in it,
and a host write, a command error and every command but `RESET` keep it. -/
structure KeptByPrimitives (P : State → Prop) : Prop where
  host : ∀ {s : State} (p : List HostAccess) (r : Option Nat),
    P s → P { s with pending := p, rdata := r }
  write : ∀ {s : State} (w : OperandWrite), P s → P (hostWrite w s)
  commandError : ∀ {s : State}, P s → P (raise .command s)
  command : ∀ {i : Instr} {s t : State}, i.isCommand → i ≠ .reset → P s → exec i s = .next t → P t

/-! ### The code of `RESET` -/

theorem decodeCommand_eq_reset {c : Byte} (h : decodeCommand c = some .reset) : c = 0x7F := by
  apply BitVec.eq_of_toNat_eq
  unfold decodeCommand at h
  split at h <;> cases h
  assumption

/-- No branch of the request decoder answers a command. -/
theorem decodeRequest_ne_reset (f : List Byte) : decodeRequest f ≠ some .reset := by
  intro h
  unfold decodeRequest decodeRequestBody decodeRequestA decodeRequestB at h
  dsimp only at h
  repeat' split at h
  all_goals cases h

/-- No branch of the response decoder answers a command. -/
theorem decodeResponse_ne_reset (f : List Byte) : decodeResponse f ≠ some .reset := by
  intro h
  unfold decodeResponse decodeReadResponse decodeWriteResponse at h
  repeat' split at h
  all_goals cases h

theorem decode_eq_reset {x : CodeWord} (h : decode x = some .reset) : x = .cmd 0x7F := by
  cases x with
  | cmd c => rw [decodeCommand_eq_reset h]
  | request f => exact absurd h (decodeRequest_ne_reset f)
  | response f => exact absurd h (decodeResponse_ne_reset f)

/-! ### The compound accesses -/

namespace KeptByPrimitives

variable {P : State → Prop} {s t : State}

theorem of_setTarget (hP : KeptByPrimitives P) (op : FunctionCode) (a : Byte) (f : Word) (h : P s) :
    P (setTarget op a f s) :=
  hP.write (.ref (refOfField op f)) (hP.write (.dev a) h)

theorem of_loadBits (hP : KeptByPrimitives P) (bits : List Bool) (h : P s) : P (loadBits bits s) :=
  List.foldlRecOn bits _ (hP.command (i := .wbClr) ⟨_, rfl⟩ nofun h rfl) fun _ hu b _ =>
    hP.command (i := .wbPush) ⟨_, rfl⟩ nofun (hP.write (.bval b) hu) rfl

theorem of_loadRegs (hP : KeptByPrimitives P) (vals : List Word) (h : P s) : P (loadRegs vals s) :=
  List.foldlRecOn vals _ (hP.command (i := .wrClr) ⟨_, rfl⟩ nofun h rfl) fun _ hu v _ =>
    hP.command (i := .wrPush) ⟨_, rfl⟩ nofun (hP.write (.val v) hu) rfl

theorem of_receiveBytes (hP : KeptByPrimitives P) (bytes : List Byte) (h : P s) :
    P (receiveBytes bytes s) :=
  List.foldlRecOn bytes _ h fun _ hu b _ =>
    hP.command (i := .rxByte) ⟨_, rfl⟩ nofun (hP.write (.din b) hu) rfl

theorem of_deliverResponse (hP : KeptByPrimitives P) (bytes : List Byte) (h : P s)
    (ht : deliverResponse bytes s = .next t) : P t := by
  have hu := hP.of_receiveBytes bytes h
  cases hr : (receiveBytes bytes s).rxrdy with
  | true =>
    exact hP.command (i := .validate) ⟨_, rfl⟩ nofun hu ((deliverResponse_of_rxrdy hr).symm.trans ht)
  | false => exact of_next ((deliverResponse_of_not_rxrdy hr).symm.trans ht) hu

theorem of_buildFrame (hP : KeptByPrimitives P) (op : FunctionCode) (h : P s) :
    P (buildFrame op (op.payloadOf s) s) :=
  hP.command (command_isCommand op) (command_ne_reset op) h (exec_encodeCommand op s)

/-- A request frame is its operand writes and then the `ENC.*` that builds it. -/
theorem of_request (hP : KeptByPrimitives P) {i : Instr} {f : List Byte} (hi : encode i = .request f)
    (h : P s) (ht : exec i s = .next t) : P t := by
  cases i with
  | reqRc a f q =>
    exact of_next ht (hP.of_buildFrame .rc (hP.write (.qty q) (hP.of_setTarget .rc a f h)))
  | reqRdi a f q =>
    exact of_next ht (hP.of_buildFrame .rdi (hP.write (.qty q) (hP.of_setTarget .rdi a f h)))
  | reqRhr a f q =>
    exact of_next ht (hP.of_buildFrame .rhr (hP.write (.qty q) (hP.of_setTarget .rhr a f h)))
  | reqRir a f q =>
    exact of_next ht (hP.of_buildFrame .rir (hP.write (.qty q) (hP.of_setTarget .rir a f h)))
  | reqWsc a f b =>
    exact of_next ht (hP.of_buildFrame .wsc (hP.write (.bval b) (hP.of_setTarget .wsc a f h)))
  | reqWsr a f v =>
    exact of_next ht (hP.of_buildFrame .wsr (hP.write (.val v) (hP.of_setTarget .wsr a f h)))
  | reqWmc a f bits =>
    exact of_next ht (hP.of_buildFrame .wmc (hP.of_setTarget .wmc a f (hP.of_loadBits bits h)))
  | reqWmr a f vals =>
    exact of_next ht (hP.of_buildFrame .wmr (hP.of_setTarget .wmr a f (hP.of_loadRegs vals h)))
  | _ => cases hi

theorem of_exec (hP : KeptByPrimitives P) {i : Instr} (hi : i ≠ .reset) (h : P s)
    (ht : exec i s = .next t) : P t := by
  cases hx : encode i with
  | cmd c => exact hP.command ⟨c, hx⟩ hi h ht
  | request f => exact hP.of_request hx h ht
  | response f => exact hP.of_deliverResponse f h (exec_response hx s ▸ ht)

theorem of_rejectWord (hP : KeptByPrimitives P) (x : CodeWord) (h : P s)
    (ht : rejectWord x s = .next t) : P t := by
  cases x with
  | cmd c => exact of_next ht (hP.commandError h)
  | request f => cases ht
  | response f => exact hP.of_deliverResponse f h ht

/-! ### One access, and one step -/

/-- What an access does to a predicate that only a reset ends. -/
theorem serve_or_reset (hP : KeptByPrimitives P) (a : HostAccess) (h : P s) (ht : serve a s = .next t) :
    P t ∨ (a = .hardReset ∨ a = .issue (.cmd 0x7F)) ∧ t = resetBlock s := by
  cases a with
  | write w => exact .inl (of_next ht (hP.write w h))
  | read l =>
    cases hv : hostRead l s with
    | none => simp [serve, hv] at ht
    | some v =>
      simp only [serve, hv] at ht
      exact .inl (of_next ht (hP.host s.pending (some v) h))
  | issue x =>
    cases hd : decode x with
    | none =>
      simp only [serve, issueWord, hd] at ht
      exact .inl (hP.of_rejectWord x h ht)
    | some i =>
      simp only [serve, issueWord, hd] at ht
      by_cases hi : i = .reset
      · subst hi
        exact .inr ⟨.inr (congrArg _ (decode_eq_reset hd)), (Host.Outcome.next.inj ht).symm⟩
      · exact .inl (hP.of_exec hi h ht)
  | hardReset => exact .inr ⟨.inl rfl, (Host.Outcome.next.inj ht).symm⟩

/-- A step keeps the predicate, or it serves the reset input or the command `RESET`. -/
theorem step_or_reset (hP : KeptByPrimitives P) (h : P s) (ht : step s = .next t) :
    P t ∨ (s.pending.head? = some .hardReset ∨ s.pending.head? = some (.issue (.cmd 0x7F))) ∧
      ∃ u, t = resetBlock u := by
  cases hp : s.pending with
  | nil =>
    simp only [step, serveNext, hp] at ht
    exact .inl (of_next ht h)
  | cons a rest =>
    simp only [step, serveNext, hp] at ht
    refine (hP.serve_or_reset a (hP.host rest s.rdata h) ht).imp_right fun ⟨ha, hu⟩ => ⟨?_, _, hu⟩
    simpa using ha

end KeptByPrimitives

end Sys2Proof.Machine
end

section
/-! SUPPORT. The invariant `StateInv`: it holds at reset and every step keeps it. -/

namespace Sys2Proof.Machine

open Sys2Proof

/-! ### Reset -/

theorem reset_inv : StateInv State.reset where
  buffers := reset_wf
  okDone := by decide
  errFail := by decide
  expFcKnown := .inl rfl
  expLenBound := by decide
  expected := by decide
  frame := .inl rfl
  framePresent := by decide
  noWindow := fun _ => ⟨rfl, rfl⟩
  window := nofun
  idleEmpty := fun _ => ⟨rfl, rfl, rfl⟩

theorem resetBlock_inv (s : State) : StateInv (resetBlock s) := { reset_inv with }

/-! ### Updates outside the exchange -/

section
variable {s : State} (h : StateInv s)
include h

theorem hostFields_inv (p : List HostAccess) (r : Option Nat) :
    StateInv { s with pending := p, rdata := r } := { h with }

theorem hostWrite_inv (w : OperandWrite) : StateInv (hostWrite w s) := by
  cases w <;> exact { h with }

theorem raise_command_inv : StateInv (raise .command s) := { h with }

theorem clearBits_inv : StateInv (clearBits s) := { h with buffers := clearBits_wf h.buffers }

theorem clearRegs_inv : StateInv (clearRegs s) := { h with buffers := clearRegs_wf h.buffers }

theorem bitPushed_inv (hroom : s.wbcnt.toNat ≠ 2040) :
    StateInv { s with wbit := storeAt s.wbit s.wbcnt.toNat s.bval, wbcnt := s.wbcnt + 1 } :=
  { h with buffers := pushBit_of_room hroom ▸ pushBit_wf h.buffers }

theorem regPushed_inv (hroom : s.wrcnt.toNat ≠ 127) :
    StateInv { s with wreg := storeAt s.wreg s.wrcnt.toNat s.val, wrcnt := s.wrcnt + 1 } :=
  { h with buffers := pushReg_of_room hroom ▸ pushReg_wf h.buffers }

/-! ### Updates of the exchange -/

/-- A refusal leaves no frame, no expectation and no window. -/
theorem raise_encode_inv {c : ErrCode} (hc : c ≠ .none) : StateInv (raise (.encode c) s) where
  buffers := raise_wf _ h.buffers
  okDone := by simp
  errFail := by simp [hc]
  expFcKnown := .inl rfl
  expLenBound := Nat.zero_le _
  expected := by simp
  frame := .inl rfl
  framePresent := by simp
  noWindow := fun _ => ⟨rfl, rfl⟩
  window := by simp
  idleEmpty := by simp

/-- A failed exchange keeps its frame and its expectations, and has no window. -/
theorem raise_exchange_inv {c : ErrCode} (hc : c ≠ .none) : StateInv (raise (.exchange c) s) :=
  { h with
    buffers := raise_wf _ h.buffers
    okDone := by simp
    errFail := by simp [hc]
    expected := by simp
    framePresent := by simp
    noWindow := fun _ => ⟨rfl, rfl⟩
    window := by simp
    idleEmpty := by simp }

/-- The expected length of a request that passed its checks lies in the validator's domain, and its
frame fits `TXBUF`. -/
theorem accepted_inv (op : FunctionCode) {a : Word} (ha : operandCheck op s = .ok a) :
    StateInv (acceptFrame op (assemble s.dev op.code (op.payloadOf s a))
      (op.expectedLen s.qty.toNat) s) := by
  obtain ⟨hlow, hhigh⟩ := expectedLen_bounds op s.qty ((operandCheck_ok_iff _ _ _).1 ha).2
  have hpay := payloadOf_length_le op h.buffers a
  have hlen : (BitVec.ofNat 9 (op.expectedLen s.qty.toNat)).toNat = op.expectedLen s.qty.toNat := by
    rw [BitVec.toNat_ofNat]
    omega
  have hknown : knownCode op.code := by simp [knownCode, ofByte_code]
  exact {
    buffers := acceptFrame_wf op _ (by rw [assemble_length]; omega) h.buffers
    okDone := by simp
    errFail := by simp
    expFcKnown := .inr hknown
    expLenBound := hlen.trans_le hhigh
    expected := fun _ => ⟨hknown, hlow.trans_eq hlen.symm⟩
    frame := .inr ⟨_, rfl⟩
    framePresent := fun _ => by simp [assemble]
    noWindow := fun _ => ⟨rfl, rfl⟩
    window := by simp
    idleEmpty := by simp }

theorem receiveByte_inv (hp : s.phase = .await) : StateInv (receiveByte s) := by
  have hw := receiveByte_wf h.buffers
  rw [receiveByte_await s hp] at hw ⊢
  exact { h with
    buffers := hw
    window := fun hd => by simp [hp] at hd
    idleEmpty := fun hi => by simp [hp] at hi }

/-- The window of an accepted payload lies in the bytes received, before their CRC. -/
theorem exposed_inv (hp : s.phase = .await) {off n : Nat}
    (hv : checkResponse s.rxbuf s.rxlen.toNat s.expAddr s.expFc s.expLen.toNat = .accepted off n) :
    StateInv { s with
      payoff := BitVec.ofNat 2 off, paylen := BitVec.ofNat 8 n
      ok := true, err := .none, phase := .done } := by
  obtain ⟨hwin, hoff, hn⟩ := checkResponse_accepted hv
  exact { h with
    okDone := by simp
    errFail := by simp
    expected := fun _ => h.expected (.inl hp)
    framePresent := fun _ => h.framePresent (.inl hp)
    noWindow := fun hd => absurd rfl hd
    window := fun _ => by
      simp only [BitVec.toNat_ofNat]
      omega
    idleEmpty := by simp }

end

/-! ### Every command, and every step -/

theorem commandEffect_inv {i : Instr} {s t : State} (h : StateInv s) (e : CommandEffect s i t) :
    StateInv t := by
  cases e with
  | nothing => exact h
  | accepted op a hi ha => exact accepted_inv h op ha
  | refused op c hi hc => exact raise_encode_inv h hc
  | accumulated c hi => exact { h with }
  | bitsCleared => exact clearBits_inv h
  | bitPushed hroom => exact bitPushed_inv h hroom
  | regsCleared => exact clearRegs_inv h
  | regPushed hroom => exact regPushed_inv h hroom
  | byteReceived hp => exact receiveByte_await s hp ▸ receiveByte_inv h hp
  | exposed off n hp hv => exact exposed_inv h hp hv
  | failed c hi hp hc => exact raise_exchange_inv h hc
  | notAdmitted hn => exact raise_command_inv h
  | reset => exact resetBlock_inv s

theorem stateInv_keptByPrimitives : KeptByPrimitives StateInv where
  host p r h := hostFields_inv h p r
  write w h := hostWrite_inv h w
  commandError h := raise_command_inv h
  command hi _ h ht := commandEffect_inv h (commandEffect_of_exec hi ht)

theorem step_inv {s t : State} (h : StateInv s) (ht : step s = .next t) : StateInv t := by
  rcases stateInv_keptByPrimitives.step_or_reset h ht with ht' | ⟨-, u, rfl⟩
  · exact ht'
  · exact resetBlock_inv u

/-- Settles O3: every command and host write keeps the invariant, a compound access is a sequence of
them, and a reset establishes it. -/
theorem stepKeepsTheInvariant : Obligations.StepKeepsTheInvariant :=
  fun _ _ => step_inv

/-- Settles O2: every clause is about the literal reset values. -/
theorem resetSatisfiesTheInvariant : Obligations.ResetSatisfiesTheInvariant := reset_inv

end Sys2Proof.Machine
end

section
/-! SUPPORT. What the commands leave alone: `PHASE`, `CMDERR`, the operands, the write-data buffers and
the bytes of the frame buffers (10_state.md). -/

namespace Sys2Proof.Machine

open Sys2Proof

/-! ### The step on an unassigned code -/

theorem step_unassigned {s : State} {c : Byte} {rest : List HostAccess}
    (hp : s.pending = .issue (.cmd c) :: rest) (hd : decode (.cmd c) = none) :
    step s = .next { s with pending := rest, cmderr := true } := by
  simp only [step, serveNext, hp, serve, issueWord, hd]
  rfl

/-! ### `PHASE` -/

theorem commandEffect_phase {i : Instr} {s t : State} (e : CommandEffect s i t)
    (hi : i ∈ [Instr.nop, .crcInit, .crcByte, .wbClr, .wbPush, .wrClr, .wrPush]) :
    t.phase = s.phase := by
  cases e with
  | accepted op a hop ha => subst hop; cases op <;> simp [FunctionCode.command] at hi
  | refused op c hop hc => subst hop; cases op <;> simp [FunctionCode.command] at hi
  | exposed off n hp hv => simp at hi
  | failed c hv hp hc => obtain rfl | rfl := hv <;> simp at hi
  | reset => simp at hi
  | _ => rfl

theorem exec_encodeCommand_phase (op : FunctionCode) {s t : State}
    (ht : exec op.command s = .next t) :
    (t.err = .none ∧ t.txbuf ≠ [] ∧ t.phase = .await) ∨
      (t.err ≠ .none ∧ t.txbuf = [] ∧ t.phase = .fail) := by
  obtain rfl := Host.Outcome.next.inj ((exec_encodeCommand op s).symm.trans ht)
  rcases buildFrame_cases op (op.payloadOf s) s with ⟨c, hc, -, e⟩ | ⟨a, -, e⟩ <;> rw [e]
  · exact .inr ⟨hc, rfl, rfl⟩
  · exact .inl ⟨rfl, by simp [assemble], rfl⟩

theorem receiveByte_phase (s : State) : (receiveByte s).phase = s.phase :=
  receiveBytes_phase [s.din] s

theorem validateResponse_phase {s t : State} (ht : validateResponse s = .next t) :
    (s.phase = .await → (t.ok = true ∧ t.phase = .done) ∨ (t.ok = false ∧ t.phase = .fail)) ∧
      (s.phase ≠ .await → t.phase = s.phase) := by
  rcases validateResponse_cases s with ⟨hp, e⟩ | ⟨hp, off, n, -, e⟩ | ⟨hp, c, -, e⟩ | ⟨-, -, e⟩ |
    ⟨-, -, e⟩ <;> rw [e] at ht <;> cases ht
  · exact ⟨fun ha => absurd ha hp, fun _ => rfl⟩
  · exact ⟨fun _ => .inl ⟨rfl, rfl⟩, fun hn => absurd hp hn⟩
  · exact ⟨fun _ => .inr ⟨rfl, rfl⟩, fun hn => absurd hp hn⟩

theorem abortExchange_phase (s : State) :
    (s.phase = .await → (abortExchange s).phase = .fail) ∧
      (s.phase ≠ .await → (abortExchange s).phase = s.phase) :=
  ⟨fun h => abortExchange_await h ▸ rfl, fun h => abortExchange_of_not_await h ▸ rfl⟩

/-- Settles O48, row by row of the table. -/
theorem phaseChangesOnlyAsTheTableSays : Obligations.PhaseChangesOnlyAsTheTableSays := by
  refine ⟨fun i hi s t ht => ?enc, fun s t ht => ?rxByte, fun s t ht => validateResponse_phase ht,
    fun s t ht => ?abort, fun s t ht => ?reset, fun i hi s t ht => ?other,
    fun s t c rest hp hd ht => ?unassigned⟩
  case enc =>
    obtain ⟨op, rfl⟩ := (mem_encodeCommands_iff i).1 hi
    exact exec_encodeCommand_phase op ht
  case rxByte =>
    obtain rfl := Host.Outcome.next.inj ht
    exact receiveByte_phase s
  case abort =>
    obtain rfl := Host.Outcome.next.inj ht
    exact abortExchange_phase s
  case reset =>
    obtain rfl := Host.Outcome.next.inj ht
    rfl
  case other =>
    have hc : i.isCommand := by
      simp only [List.mem_cons, List.not_mem_nil, or_false] at hi
      obtain rfl | rfl | rfl | rfl | rfl | rfl | rfl := hi <;> exact ⟨_, rfl⟩
    exact commandEffect_phase (commandEffect_of_exec hc ht) hi
  case unassigned =>
    obtain rfl := Host.Outcome.next.inj ((step_unassigned hp hd).symm.trans ht)
    rfl

/-! ### `CMDERR` -/

theorem not_notAdmitted_encodeCommand (op : FunctionCode) (s : State) :
    ¬ NotAdmitted op.command s := by
  cases op <;> simp [NotAdmitted, FunctionCode.command]

theorem commandEffect_cmderr {i : Instr} {s t : State} (hi : i ≠ .reset) (e : CommandEffect s i t) :
    t.cmderr = true ↔ s.cmderr = true ∨ NotAdmitted i s := by
  have admitted (h : ¬ NotAdmitted i s) : s.cmderr = true ↔ s.cmderr = true ∨ NotAdmitted i s :=
    (or_iff_left h).symm
  cases e with
  | accepted op a hop ha => exact admitted (hop ▸ not_notAdmitted_encodeCommand op s)
  | refused op c hop hc => exact admitted (hop ▸ not_notAdmitted_encodeCommand op s)
  | accumulated c hc => exact admitted (by obtain rfl | rfl := hc <;> simp [NotAdmitted])
  | failed c hv hp hc => exact admitted (by obtain rfl | rfl := hv <;> simp [NotAdmitted, hp])
  | bitPushed hroom => exact admitted (by simp [NotAdmitted, hroom])
  | regPushed hroom => exact admitted (by simp [NotAdmitted, hroom])
  | byteReceived hp => exact admitted (by simp [NotAdmitted, hp])
  | exposed off n hp hv => exact admitted (by simp [NotAdmitted, hp])
  | nothing => exact admitted (by simp [NotAdmitted])
  | bitsCleared => exact admitted (by simp [NotAdmitted])
  | regsCleared => exact admitted (by simp [NotAdmitted])
  | notAdmitted hn => exact iff_of_true rfl (.inr hn)
  | reset => exact absurd rfl hi

theorem cmderr_keptByPrimitives : KeptByPrimitives fun s => s.cmderr = true where
  host _ _ h := h
  write w h := (hostWrite_cmderr w _).trans h
  commandError _ := rfl
  command hc hi h ht := (commandEffect_cmderr hi (commandEffect_of_exec hc ht)).2 (.inl h)

/-- Settles O50: a command's effect says when it sets `CMDERR`, and `CMDERR = 1` is a predicate that
only a reset ends. -/
theorem commandErrorIsSticky : Obligations.CommandErrorIsSticky := by
  refine ⟨rfl, fun i s t hc hi ht => commandEffect_cmderr hi (commandEffect_of_exec hc ht),
    fun s => ⟨_, rfl, rfl⟩, fun s rest hp => ?hardReset, fun s t ht hs hcl => ?cleared,
    fun s c rest hp hd => step_unassigned hp hd⟩
  case hardReset =>
    simp only [step, serveNext, hp]
    exact ⟨_, rfl, rfl⟩
  case cleared =>
    rcases cmderr_keptByPrimitives.step_or_reset hs ht with hset | ⟨hreset, -⟩
    · simp [hcl] at hset
    · exact hreset

/-! ### The operands and the write-data buffers -/

/-- Settles O51: no effect of a command but `RESET` updates these fields. -/
theorem commandsDoNotWriteOperands : Obligations.CommandsDoNotWriteOperands := by
  intro i s t hc hi ht
  cases commandEffect_of_exec hc ht with
  | reset => exact absurd rfl hi
  | _ => exact ⟨rfl, rfl, rfl, rfl, rfl, rfl, rfl, rfl⟩

/-- Settles O52: only the effects of the four buffer commands update these fields. -/
theorem writeBuffersChangeOnlyByTheirCommands :
    Obligations.WriteBuffersChangeOnlyByTheirCommands := by
  intro i s t hc hi ht
  cases commandEffect_of_exec hc ht with
  | reset => exact absurd rfl hi
  | bitsCleared => exact ⟨fun h _ => absurd rfl h, fun _ _ => ⟨rfl, rfl⟩⟩
  | bitPushed hroom => exact ⟨fun _ h => absurd rfl h, fun _ _ => ⟨rfl, rfl⟩⟩
  | regsCleared => exact ⟨fun _ _ => ⟨rfl, rfl⟩, fun h _ => absurd rfl h⟩
  | regPushed hroom => exact ⟨fun _ _ => ⟨rfl, rfl⟩, fun _ h => absurd rfl h⟩
  | _ => exact ⟨fun _ _ => ⟨rfl, rfl⟩, fun _ _ => ⟨rfl, rfl⟩⟩

/-! ### The bytes of the frame buffers -/

theorem txByteAt_congr {s t : State} (hb : t.txbuf = s.txbuf) (hl : t.txlen = s.txlen) (k : Nat) :
    txByteAt t k = txByteAt s k := by
  rw [txByteAt, txByteAt, hb, hl]

theorem rxByteAt_congr {s t : State} (hb : t.rxbuf = s.rxbuf) (hl : t.rxlen = s.rxlen) (k : Nat) :
    rxByteAt t k = rxByteAt s k := by
  rw [rxByteAt, rxByteAt, hb, hl]

/-- In canonical form the bytes with a value are those the list holds. -/
theorem rxByteAt_eq_getElem? {s : State} (h : Memory.wf s) (k : Nat) :
    rxByteAt s k = s.rxbuf[k]? := by
  have hlen : s.rxbuf.length = min s.rxlen.toNat Config.rxCap := h.1.2.1
  rw [rxByteAt, ← hlen, ite_eq_left_iff]
  exact fun hk => (List.getElem?_eq_none (Nat.le_of_not_lt hk)).symm

theorem receiveByte_rxbuf {s : State} (h : Memory.wf s) (hp : s.phase = .await) :
    (receiveByte s).rxbuf = (s.rxbuf ++ [s.din]).take 260 :=
  congrArg State.rxbuf (receiveBytes_await [s.din] s hp h.1.2.1)

/-- `RX.BYTE` stores `DIN` at index `RXLEN`, if that is below 260, and leaves every other byte. -/
theorem rxByteAt_receiveByte {s : State} (h : Memory.wf s) (hp : s.phase = .await) :
    (s.rxlen.toNat < 260 → rxByteAt (receiveByte s) s.rxlen.toNat = some s.din) ∧
      ∀ k, k ≠ s.rxlen.toNat → rxByteAt (receiveByte s) k = rxByteAt s k := by
  have hlen : s.rxbuf.length = min s.rxlen.toNat 260 := h.1.2.1
  simp only [rxByteAt_eq_getElem? h, rxByteAt_eq_getElem? (receiveByte_wf h),
    receiveByte_rxbuf h hp, List.getElem?_take]
  refine ⟨fun hroom => ?_, fun k hk => ?_⟩
  · rw [if_pos hroom, List.getElem?_append_right (by omega)]
    simp [show s.rxlen.toNat - s.rxbuf.length = 0 by omega]
  · by_cases hkl : k < s.rxbuf.length
    · rw [if_pos (by omega), List.getElem?_append_left hkl]
    · rw [List.getElem?_eq_none (Nat.le_of_not_lt hkl), ite_eq_right_iff]
      exact fun _ => List.getElem?_eq_none (by simp; omega)

/-- Settles O54: only the effects of `RX.BYTE` and of the `ENC.*` update the frame buffers. -/
theorem bufferBytesFrame : Obligations.BufferBytesFrame := by
  intro i s t hs hc ht hi
  have notEncode (op : FunctionCode) : i ≠ op.command := by
    rintro rfl
    cases op <;> simp [FunctionCode.command] at hi
  have frame : (t.txbuf = s.txbuf ∧ t.txlen = s.txlen) ∧
      (i ≠ .rxByte → t.rxbuf = s.rxbuf ∧ t.rxlen = s.rxlen) := by
    cases commandEffect_of_exec hc ht with
    | accepted op a hop ha => exact absurd hop (notEncode op)
    | refused op c hop hc => exact absurd hop (notEncode op)
    | byteReceived hp => exact ⟨⟨rfl, rfl⟩, fun h => absurd rfl h⟩
    | reset => simp at hi
    | _ => exact ⟨⟨rfl, rfl⟩, fun _ => ⟨rfl, rfl⟩⟩
  obtain ⟨⟨htb, htl⟩, hrx⟩ := frame
  refine ⟨txByteAt_congr htb htl, fun hne => rxByteAt_congr (hrx hne).1 (hrx hne).2, ?_⟩
  rintro rfl hp
  obtain rfl := Host.Outcome.next.inj ht
  exact rxByteAt_receiveByte hs.buffers hp

/-! ### `STATUS` -/

theorem getLsbD_flagBit_zero (b : Bool) : (flagBit b).getLsbD 0 = b := by cases b <;> rfl

/-- The layout of `STATUS`, bit by bit (R47). -/
theorem status_getLsbD (s : State) (i : Nat) : s.status.getLsbD i =
    if i < 2 then s.phase.code.getLsbD i
    else if i < 3 then s.ok
    else if i < 4 then s.rxrdy
    else if i < 5 then s.cmderr
    else if i < 8 then false
    else if i < 12 then s.err.code.getLsbD (i - 8)
    else false := by
  simp only [State.status, BitVec.getLsbD_append]
  grind [getLsbD_flagBit_zero]

/-- A field of `STATUS` is what its bits say. -/
theorem status_extractLsb' {s : State} {start len : Nat} {v : BitVec len}
    (h : ∀ i < len, s.status.getLsbD (start + i) = v.getLsbD i) :
    s.status.extractLsb' start len = v := by
  refine BitVec.eq_of_getLsbD_eq fun i hi => ?_
  rw [BitVec.getLsbD_extractLsb', h i hi, decide_eq_true hi, Bool.true_and]

theorem status_phase (s : State) : s.status.extractLsb' 0 2 = s.phase.code :=
  status_extractLsb' fun i hi => by grind [status_getLsbD]

theorem status_reserved_low (s : State) : s.status.extractLsb' 5 3 = 0 :=
  status_extractLsb' fun i hi => by grind [status_getLsbD]

theorem status_err (s : State) : s.status.extractLsb' 8 4 = s.err.code :=
  status_extractLsb' fun i hi => by grind [status_getLsbD]

theorem status_reserved_high (s : State) : s.status.extractLsb' 12 4 = 0 :=
  status_extractLsb' fun i hi => by grind [status_getLsbD]

/-- Settles O55, field by field from the layout. -/
theorem statusPacksTheFlags : Obligations.StatusPacksTheFlags := by
  refine ⟨by decide, fun s => ⟨(status_phase s).trans ?phase, status_getLsbD s 2, ?rxrdy,
    status_getLsbD s 4, status_reserved_low s, (status_err s).trans ?err, status_reserved_high s⟩⟩
  case phase => cases s.phase <;> rfl
  case rxrdy =>
    have hbit : s.status.getLsbD 3 = s.rxrdy := status_getLsbD s 3
    rw [hbit, State.rxrdy, decide_eq_true_iff]
  case err => cases s.err <;> rfl

/-! ### The reset table -/

/-- Settles O1: no index is below the reset values of `TXLEN` and `RXLEN`. -/
theorem resetHoldsStatedValues : Obligations.ResetHoldsStatedValues := by
  have unreadable (i : Nat) :
      hostRead (.txbuf i) State.reset = none ∧ hostRead (.rxbuf i) State.reset = none := by
    simp [hostRead, txByteAt, rxByteAt, State.reset]
  exact ⟨rfl, rfl, rfl, rfl, rfl, rfl, rfl, rfl, rfl, rfl, rfl, rfl, rfl, rfl, rfl, rfl, rfl, rfl, rfl,
    rfl, rfl, rfl, by decide, by decide, unreadable⟩

end Sys2Proof.Machine
end

section
/-! SUPPORT. The host's accesses one by one, and what leaves a built frame alone (20_memory.md R63,
R67, R70, R73, R75). -/

namespace Sys2Proof.Machine

open Sys2Proof

/-! ### The step on each access -/

theorem step_of_idle {s : State} (hp : s.pending = []) : step s = .next s := by
  simp only [step, serveNext, hp]

theorem step_of_pending {s : State} {a : HostAccess} {rest : List HostAccess}
    (hp : s.pending = a :: rest) : step s = serve a { s with pending := rest } := by
  simp only [step, serveNext, hp]

theorem step_write {s : State} {w : OperandWrite} {rest : List HostAccess}
    (hp : s.pending = .write w :: rest) : step s = .next (hostWrite w { s with pending := rest }) :=
  step_of_pending hp

/-- What a read returns does not depend on the accesses still to be served. -/
@[simp] theorem hostRead_with_pending (l : Loc) (s : State) (rest : List HostAccess) :
    hostRead l { s with pending := rest } = hostRead l s := by
  cases l <;> rfl

theorem step_read {s : State} {l : Loc} {v : Nat} {rest : List HostAccess}
    (hp : s.pending = .read l :: rest) (hv : hostRead l s = some v) :
    step s = .next { s with pending := rest, rdata := some v } := by
  rw [step_of_pending hp]
  simp only [serve, hostRead_with_pending, hv]

theorem step_read_refused {s : State} {l : Loc} {rest : List HostAccess}
    (hp : s.pending = .read l :: rest) (hv : hostRead l s = none) :
    step s = .refused .readOutsideValidRange := by
  rw [step_of_pending hp]
  simp only [serve, hostRead_with_pending, hv]

/-- Settles O13: the empty queue is the first case of `serveNext`. -/
theorem noAccessNoChange : Obligations.NoAccessNoChange :=
  fun _ => step_of_idle

/-- Settles O10: each write is its case of `hostWrite`. -/
theorem hostWriteSetsOneRegister : Obligations.HostWriteSetsOneRegister :=
  fun _ _ => ⟨fun _ => step_write, fun _ => step_write, fun _ => step_write, fun _ => step_write,
    fun _ => step_write, fun _ => step_write⟩

/-! ### Reading registers and views -/

theorem loByte_toNat (v : Word) : (loByte v).toNat = v.toNat % 256 :=
  BitVec.toNat_setWidth 8 v

theorem hiByte_toNat (v : Word) : (hiByte v).toNat = v.toNat / 256 := by
  have hlt := v.isLt
  rw [hiByte, BitVec.toNat_setWidth, BitVec.toNat_ushiftRight, Nat.shiftRight_eq_div_pow]
  omega

/-- Settles O11: every read is its case of `hostRead`; the two views of `CRC` are its remainder and
quotient by 256. -/
theorem hostReadReturnsRegister : Obligations.HostReadReturnsRegister := by
  intro s rest p hp hpend
  refine step_read hpend ?_
  clear hpend
  revert p
  simp [hostRead, State.crcLo, State.crcHi, loByte_toNat, hiByte_toNat]

/-! ### Reading the frame buffers -/

/-- In canonical form the bytes with a value are those the list holds. -/
theorem txByteAt_eq_getElem? {s : State} (h : Memory.wf s) (k : Nat) :
    txByteAt s k = s.txbuf[k]? := by
  have hlen : s.txbuf.length = s.txlen.toNat := h.1.1
  rw [txByteAt, ← hlen, ite_eq_left_iff]
  exact fun hk => (List.getElem?_eq_none (Nat.le_of_not_lt hk)).symm

theorem hostRead_txbuf {s : State} (h : Memory.wf s) (i : Nat) :
    hostRead (.txbuf i) s = s.txbuf[i]?.map BitVec.toNat :=
  congrArg (Option.map BitVec.toNat) (txByteAt_eq_getElem? h i)

theorem hostRead_rxbuf {s : State} (h : Memory.wf s) (i : Nat) :
    hostRead (.rxbuf i) s = s.rxbuf[i]?.map BitVec.toNat :=
  congrArg (Option.map BitVec.toNat) (rxByteAt_eq_getElem? h i)

/-- A read of a location that stands for the entry `i` of a list is served inside the list and refused
beyond it. -/
theorem step_read_entry {s : State} {l : Loc} {buf : List Byte} {i : Nat} {rest : List HostAccess}
    (hp : s.pending = .read l :: rest) (hl : hostRead l s = buf[i]?.map BitVec.toNat) :
    (∀ h : i < buf.length, step s = .next { s with pending := rest, rdata := some (buf[i]).toNat }) ∧
      (buf.length ≤ i → step s = .refused .readOutsideValidRange) :=
  ⟨fun h => step_read hp (by rw [hl, List.getElem?_eq_getElem h, Option.map_some]),
    fun h => step_read_refused hp (by rw [hl, List.getElem?_eq_none h, Option.map_none])⟩

/-- Settles O12: in canonical form the valid range of a frame buffer is the range of its list. -/
theorem hostReadOfBufferHasValidRange : Obligations.HostReadOfBufferHasValidRange := by
  intro s rest i hs
  have htx : s.txbuf.length = s.txlen.toNat := hs.buffers.1.1
  have hrx : s.rxbuf.length = min s.rxlen.toNat 260 := hs.buffers.1.2.1
  refine ⟨fun hp => ?txbuf, fun hp => ?rxbuf, fun w t hp ht => ?write⟩
  case txbuf =>
    obtain ⟨inside, outside⟩ := step_read_entry hp (hostRead_txbuf hs.buffers i)
    exact ⟨fun h => ⟨h.trans_eq htx, inside h⟩, fun h => outside (htx.trans_le h)⟩
  case rxbuf =>
    obtain ⟨inside, outside⟩ := step_read_entry hp (hostRead_rxbuf hs.buffers i)
    exact ⟨fun h => ⟨h.trans_eq hrx, inside h⟩, fun h => outside (hrx.trans_le h)⟩
  case write =>
    obtain rfl := Host.Outcome.next.inj ((step_write hp).symm.trans ht)
    exact ⟨hostWrite_txbuf w _, hostWrite_rxbuf w _⟩

/-! ### The built frame and its expectations -/

/-- What an `ENC.*` builds: the frame with its length, and the expectations of its response
(41_encode.md R154). -/
def State.built (s : State) : List Byte × BitVec 9 × Byte × Byte × BitVec 9 :=
  (s.txbuf, s.txlen, s.expAddr, s.expFc, s.expLen)

theorem built_eq_iff {s t : State} : t.built = s.built ↔
    t.txbuf = s.txbuf ∧ t.txlen = s.txlen ∧ t.expAddr = s.expAddr ∧ t.expFc = s.expFc ∧
      t.expLen = s.expLen := by
  simp only [State.built, Prod.mk.injEq]

theorem hostWrite_built (w : OperandWrite) (s : State) : (hostWrite w s).built = s.built := by
  cases w <;> rfl

theorem notMem_encodeOrReset_iff (i : Instr) :
    i ∉ [Instr.encRc, .encRdi, .encRhr, .encRir, .encWsc, .encWsr, .encWmc, .encWmr, .reset] ↔
      (∀ op : FunctionCode, i ≠ op.command) ∧ i ≠ .reset := by
  have hsplit : i ∈ [Instr.encRc, .encRdi, .encRhr, .encRir, .encWsc, .encWsr, .encWmc, .encWmr] ++
      [Instr.reset] ↔ (∃ op : FunctionCode, i = op.command) ∨ i = .reset := by
    rw [List.mem_append, mem_encodeCommands_iff, List.mem_singleton]
  exact (not_congr hsplit).trans (not_or.trans (and_congr_left' not_exists))

section
variable {i : Instr} {s t : State}

/-- Only the effects of the `ENC.*` and of `RESET` update what is built. -/
theorem commandEffect_built (e : CommandEffect s i t) (henc : ∀ op : FunctionCode, i ≠ op.command)
    (hreset : i ≠ .reset) : t.built = s.built := by
  cases e with
  | accepted op a hop ha => exact absurd hop (henc op)
  | refused op c hop hc => exact absurd hop (henc op)
  | reset => exact absurd rfl hreset
  | _ => rfl

theorem built_of_next {u : State} (ht : (.next u : Host.Outcome State Fault Refusal) = .next t)
    (h : u.built = s.built) : t.built = s.built :=
  of_next (P := fun t => t.built = s.built) ht h

theorem deliverResponse_built {bytes : List Byte} (ht : deliverResponse bytes s = .next t) :
    t.built = s.built := by
  have hrecv : (receiveBytes bytes s).built = s.built := built_eq_iff.2 (receiveBytes_frame bytes s)
  cases hr : (receiveBytes bytes s).rxrdy with
  | true =>
    have e := validateResponse_effect ((deliverResponse_of_rxrdy hr).symm.trans ht)
    exact (commandEffect_built e (by rintro (_ | _) <;> nofun) nofun).trans hrecv
  | false => exact built_of_next ((deliverResponse_of_not_rxrdy hr).symm.trans ht) hrecv

theorem exec_built (henc : ∀ op : FunctionCode, i ≠ op.command) (hreset : i ≠ .reset)
    (hreq : ∀ f, encode i ≠ .request f) (ht : exec i s = .next t) : t.built = s.built := by
  cases hx : encode i with
  | cmd c => exact commandEffect_built (commandEffect_of_exec ⟨c, hx⟩ ht) henc hreset
  | request f => exact absurd hx (hreq f)
  | response f => exact deliverResponse_built ((exec_response hx s).symm.trans ht)

theorem rejectWord_built {x : CodeWord} (ht : rejectWord x s = .next t) : t.built = s.built := by
  cases x with
  | cmd c => exact built_of_next ht rfl
  | request f => cases ht
  | response f => exact deliverResponse_built ht

/-- An access leaves what is built alone unless it is the reset input or a word for an `ENC.*`, a
request frame or `RESET`. -/
theorem serve_built {a : HostAccess} (hreset : a ≠ .hardReset)
    (hword : ∀ x i, a = .issue x → decode x = some i →
      ((∀ op : FunctionCode, i ≠ op.command) ∧ i ≠ .reset) ∧ ∀ f, encode i ≠ .request f)
    (ht : serve a s = .next t) : t.built = s.built := by
  cases a with
  | write w => exact built_of_next ht (hostWrite_built w s)
  | read l =>
    cases hv : hostRead l s with
    | none => simp [serve, hv] at ht
    | some v =>
      simp only [serve, hv] at ht
      exact built_of_next ht rfl
  | issue x =>
    cases hd : decode x with
    | none =>
      simp only [serve, issueWord, hd] at ht
      exact rejectWord_built ht
    | some i =>
      simp only [serve, issueWord, hd] at ht
      obtain ⟨⟨henc, hne⟩, hreq⟩ := hword x i rfl hd
      exact exec_built henc hne hreq ht
  | hardReset => exact absurd rfl hreset

end

/-- Settles O53: the access at the head of the queue is the one that the step serves. -/
theorem builtFrameIsImmutable : Obligations.BuiltFrameIsImmutable := by
  intro s t ht hreset hword
  rw [← built_eq_iff]
  cases hp : s.pending with
  | nil => exact built_of_next ((step_of_idle hp).symm.trans ht) rfl
  | cons a rest =>
    simp only [hp, List.head?_cons, ne_eq, Option.some.injEq] at hreset hword
    have hkept : t.built = { s with pending := rest }.built := serve_built hreset
      (fun x i ha hd => (hword x i ha hd).imp_left (notMem_encodeOrReset_iff i).1)
      ((step_of_pending hp).symm.trans ht)
    exact hkept

end Sys2Proof.Machine
end

section
/-! SUPPORT. The layouts of packed bits and of register data (30_encoding.md R105, R106). -/

namespace Sys2Proof

open Sys2Proof.Machine

/-! ### Packed bits -/

/-- Bit `i` of packed values, read back from a payload, is value `i`. -/
theorem payloadBit_pack {bits : List Bool} {i : Nat} (h : i < bits.length) :
    payloadBit (pack bits) i = some bits[i] := by
  have hk : i / 8 < (pack bits).length := by
    rw [pack_length, ceilDiv]
    omega
  rw [payloadBit, List.getElem?_eq_getElem hk, Option.map_some,
    getLsbD_pack bits _ _ hk (Nat.mod_lt i (by omega)), Nat.div_add_mod,
    List.getD_eq_getElem _ _ h]

/-- The bits of packed values are the values, and then zeros up to a whole byte. -/
theorem flatMap_byteBits_pack (bits : List Bool) :
    (pack bits).flatMap byteBits =
      bits ++ List.replicate (8 * ceilDiv bits.length 8 - bits.length) false := by
  have hle : bits.length ≤ 8 * ceilDiv bits.length 8 := by
    rw [ceilDiv]
    omega
  refine List.ext_getElem ?_ fun i hi _ => ?_
  · rw [flatMap_byteBits_length, pack_length, List.length_append, List.length_replicate]
    omega
  · have hk : i / 8 < (pack bits).length := by
      rw [flatMap_byteBits_length] at hi
      omega
    have hbit : ((pack bits).flatMap byteBits)[i] = bits.getD i false := by
      rw [List.getElem_eq_iff, flatMap_byteBits_getElem _ i hk,
        getLsbD_pack bits _ _ hk (Nat.mod_lt i (by omega)), Nat.div_add_mod]
    rw [hbit, List.getElem_append]
    split
    · exact List.getD_eq_getElem _ _ ‹_›
    · rw [List.getD_eq_default _ _ (by omega), List.getElem_replicate]

/-- Data whose bits beyond the first `q` are zeros packs exactly those `q` values. -/
theorem pack_take_flatMap_byteBits {data : List Byte} {q : Nat} (hlen : data.length = ceilDiv q 8)
    (hzero : ∀ b ∈ (data.flatMap byteBits).drop q, b = false) :
    ((data.flatMap byteBits).take q).length = q ∧ pack ((data.flatMap byteBits).take q) = data := by
  have hq : ((data.flatMap byteBits).take q).length = q := by
    rw [List.length_take, flatMap_byteBits_length, hlen, ceilDiv]
    omega
  refine ⟨hq, List.ext_getElem (by rw [pack_length, hq, hlen]) fun k hk hk' =>
    BitVec.eq_of_getLsbD_eq fun j hj => ?_⟩
  have hbit : (data.flatMap byteBits)[8 * k + j]? = some (data[k].getLsbD j) := by
    have hdiv : (8 * k + j) / 8 = k := by omega
    have hmod : (8 * k + j) % 8 = j := by omega
    rw [flatMap_byteBits_getElem data _ (by omega)]
    simp only [hdiv, hmod]
  rw [getLsbD_pack _ k j hk hj, List.getD_eq_getElem?_getD, List.getElem?_take]
  split
  · rw [hbit, Option.getD_some]
  · have hin : data[k].getLsbD j ∈ (data.flatMap byteBits).drop q := by
      refine List.mem_of_getElem? (i := 8 * k + j - q) ?_
      rw [List.getElem?_drop, ← hbit]
      congr 1
      omega
    rw [hzero _ hin, Option.getD_none]

/-- Settles O27: a bit of the packed data is a value or, beyond the last, 0. -/
theorem packedBitsAreLsbFirst : Obligations.PackedBitsAreLsbFirst :=
  fun bits => ⟨pack_length bits, getLsbD_pack bits, fun _ => payloadBit_pack⟩

/-! ### Register data -/

theorem flatMap_be16_getElem? {vals : List Word} {k : Nat} (h : k < vals.length) :
    (vals.flatMap be16)[2 * k]? = some (hiByte vals[k]) ∧
      (vals.flatMap be16)[2 * k + 1]? = some (loByte vals[k]) := by
  induction vals generalizing k with
  | nil => exact absurd h (Nat.not_lt_zero k)
  | cons v vs ih =>
    cases k with
    | zero => exact ⟨rfl, rfl⟩
    | succ k => exact ih (Nat.lt_of_succ_lt_succ h)

/-- Settles O28, value by value. -/
theorem registerDataIsBigEndian : Obligations.RegisterDataIsBigEndian :=
  fun vals => ⟨fun _ => flatMap_be16_getElem?, be16Values_flatMap vals⟩

end Sys2Proof
end

section
/-! SUPPORT. The decoder and the encoder are inverse to each other, kind of code word by kind of code
word: the command table (30_encoding.md R92), the request formats (R94, R95) and the response formats
(R97, R98). -/

namespace Sys2Proof

open Sys2Proof.Machine

theorem be16_word16 (hi lo : Byte) : be16 (word16 hi lo) = [hi, lo] := by
  rw [be16, hiByte_word16, loByte_word16]

theorem le16_word16 (hi lo : Byte) : le16 (word16 hi lo) = [lo, hi] := by
  rw [le16, hiByte_word16, loByte_word16]

/-! ### Command codes -/

theorem encode_of_decodeCommand {c : Byte} {i : Instr} (h : decodeCommand c = some i) :
    i.wellFormed = true ∧ encode i = .cmd c := by
  unfold decodeCommand at h
  split at h <;> cases h <;>
    exact ⟨by rfl, congrArg CodeWord.cmd (BitVec.eq_of_toNat_eq (Eq.symm ‹c.toNat = _›))⟩

/-! ### Request frames -/

/-- A request frame is a body and the CRC of that body (30_encoding.md R93, R107). -/
theorem decodeRequest_eq_some_iff (f : List Byte) (i : Instr) :
    decodeRequest f = some i ↔ ∃ body, f = body ++ crc16 body ∧ decodeRequestBody body = some i := by
  rw [decodeRequest]
  constructor
  · intro h
    split at h
    · rename_i hcrc
      exact ⟨_, by rw [← hcrc, List.take_append_drop], h⟩
    · cases h
  · rintro ⟨body, rfl, h⟩
    have hlen : (body ++ crc16 body).length - 2 = body.length := by
      rw [List.length_append, crc16_length, Nat.add_sub_cancel]
    simp only [hlen, List.take_left, List.drop_left, if_true, h]

theorem decodeRequest_assemble (a fc : Byte) (p : List Byte) (i : Instr)
    (h : decodeRequestBody (a :: fc :: p) = some i) :
    decodeRequest (assemble a fc p) = some i :=
  (decodeRequest_eq_some_iff _ _).2 ⟨_, rfl, h⟩

/-- A body of two fields is read by the formats REQ-A (R94). -/
theorem decodeRequestBody_fields (a fc : Byte) (first second : Word) :
    decodeRequestBody (a :: fc :: (be16 first ++ be16 second)) =
      decodeRequestA a fc first second := by
  simp only [be16, List.cons_append, List.nil_append, decodeRequestBody, word16_hiByte_loByte]

/-- A body with a byte-count and data is read by the formats REQ-B (R95). -/
theorem decodeRequestBody_data (a fc : Byte) (first q : Word) (n : Byte) (data : List Byte) :
    decodeRequestBody (a :: fc :: (be16 first ++ be16 q ++ [n] ++ data)) =
      decodeRequestB a fc first q.toNat n.toNat data := by
  simp only [be16, List.cons_append, List.nil_append, decodeRequestBody, word16_hiByte_loByte]

theorem decodeRequestB_coils (a : Byte) (first : Word) {bits : List Bool} (h : bits.length ≤ 2040) :
    decodeRequestB a FunctionCode.wmc.code first bits.length (ceilDiv bits.length 8) (pack bits) =
      some (.reqWmc a first bits) := by
  have hzero : (((pack bits).flatMap byteBits).drop bits.length).all (fun b => !b) = true := by
    simp [flatMap_byteBits_pack]
  have htake : ((pack bits).flatMap byteBits).take bits.length = bits := by
    rw [flatMap_byteBits_pack, List.take_left]
  simp only [decodeRequestB, ofByte_code, htake]
  exact if_pos ⟨h, trivial, pack_length bits, hzero⟩

theorem decodeRequestB_registers (a : Byte) (first : Word) {vals : List Word}
    (h : vals.length ≤ 127) :
    decodeRequestB a FunctionCode.wmr.code first vals.length (2 * vals.length)
      (vals.flatMap be16) = some (.reqWmr a first vals) := by
  simp only [decodeRequestB, ofByte_code, be16Values_flatMap]
  exact if_pos ⟨h, trivial, flatMap_be16_length vals⟩

theorem decodeRequestBody_coils (a : Byte) (first : Word) {bits : List Bool}
    (h : bits.length ≤ 2040) :
    decodeRequestBody (a :: FunctionCode.wmc.code :: plWmc first bits) =
      some (.reqWmc a first bits) := by
  have hq : (BitVec.ofNat 16 bits.length).toNat = bits.length := by
    rw [BitVec.toNat_ofNat]
    omega
  have hn : (BitVec.ofNat 8 (ceilDiv bits.length 8)).toNat = ceilDiv bits.length 8 := by
    rw [BitVec.toNat_ofNat, ceilDiv]
    omega
  rw [plWmc, decodeRequestBody_data, hq, hn]
  exact decodeRequestB_coils a first h

theorem decodeRequestBody_registers (a : Byte) (first : Word) {vals : List Word}
    (h : vals.length ≤ 127) :
    decodeRequestBody (a :: FunctionCode.wmr.code :: plWmr first vals) =
      some (.reqWmr a first vals) := by
  have hq : (BitVec.ofNat 16 vals.length).toNat = vals.length := by
    rw [BitVec.toNat_ofNat]
    omega
  have hn : (BitVec.ofNat 8 (2 * vals.length)).toNat = 2 * vals.length := by
    rw [BitVec.toNat_ofNat]
    omega
  rw [plWmr, decodeRequestBody_data, hq, hn]
  exact decodeRequestB_registers a first h

theorem encode_of_decodeRequestA {a fc : Byte} {first second : Word} {i : Instr}
    (h : decodeRequestA a fc first second = some i) :
    i.wellFormed = true ∧ encode i = .request (assemble a fc (be16 first ++ be16 second)) := by
  cases hfc : FunctionCode.ofByte fc with
  | none => simp [decodeRequestA, hfc] at h
  | some op =>
    obtain rfl := (ofByte_eq_some_iff fc op).1 hfc
    cases op <;> simp only [decodeRequestA, ofByte_code] at h
    case wsc =>
      split at h
      · subst second
        obtain rfl := Option.some.inj h
        exact ⟨rfl, rfl⟩
      · split at h
        · subst second
          obtain rfl := Option.some.inj h
          exact ⟨rfl, rfl⟩
        · cases h
    case wmc => cases h
    case wmr => cases h
    all_goals
      obtain rfl := Option.some.inj h
      exact ⟨rfl, rfl⟩

theorem encode_of_decodeRequestB {a fc : Byte} {first q : Word} {n : Byte} {data : List Byte}
    {i : Instr} (h : decodeRequestB a fc first q.toNat n.toNat data = some i) :
    i.wellFormed = true ∧
      encode i = .request (assemble a fc (be16 first ++ be16 q ++ [n] ++ data)) := by
  cases hfc : FunctionCode.ofByte fc with
  | none => simp [decodeRequestB, hfc] at h
  | some op =>
    obtain rfl := (ofByte_eq_some_iff fc op).1 hfc
    cases op <;> simp only [decodeRequestB, ofByte_code] at h
    case wmc =>
      split at h
      · rename_i hok
        obtain ⟨hq, hn, hdata, hzero⟩ := hok
        obtain rfl := Option.some.inj h
        obtain ⟨hlen, hpack⟩ := pack_take_flatMap_byteBits (hdata.trans hn) (by simpa using hzero)
        refine ⟨decide_eq_true (hlen.trans_le hq), ?_⟩
        rw [encode, plWmc, hlen, hpack, ← hn, BitVec.ofNat_toNat, BitVec.ofNat_toNat,
          BitVec.setWidth_eq, BitVec.setWidth_eq]
        rfl
      · cases h
    case wmr =>
      split at h
      · rename_i hok
        obtain ⟨hq, hn, hdata⟩ := hok
        obtain rfl := Option.some.inj h
        obtain ⟨hvals, hlen⟩ := be16Values_inv data q.toNat (hdata.trans hn)
        refine ⟨decide_eq_true (hlen.trans_le hq), ?_⟩
        rw [encode, plWmr, hlen, hvals, ← hn, BitVec.ofNat_toNat, BitVec.ofNat_toNat,
          BitVec.setWidth_eq, BitVec.setWidth_eq]
        rfl
      · cases h
    all_goals cases h

theorem encode_of_decodeRequestBody {body : List Byte} {i : Instr}
    (h : decodeRequestBody body = some i) :
    i.wellFormed = true ∧ encode i = .request (body ++ crc16 body) := by
  match body with
  | a :: fc :: f1h :: f1l :: f2h :: f2l :: [] =>
    have he := encode_of_decodeRequestA h
    rwa [be16_word16, be16_word16] at he
  | a :: fc :: f1h :: f1l :: f2h :: f2l :: n :: data =>
    have he := encode_of_decodeRequestB h
    rwa [be16_word16, be16_word16] at he
  | [] | [_] | [_, _] | [_, _, _] | [_, _, _, _] | [_, _, _, _, _] => cases h

theorem encode_of_decodeRequest {f : List Byte} {i : Instr} (h : decodeRequest f = some i) :
    i.wellFormed = true ∧ encode i = .request f := by
  obtain ⟨body, rfl, hbody⟩ := (decodeRequest_eq_some_iff f i).1 h
  exact encode_of_decodeRequestBody hbody

/-! ### Response frames -/

theorem decodeReadResponse_eq_some_iff (mk : List Byte → Word → Instr) (rest : List Byte)
    (i : Instr) :
    decodeReadResponse mk rest = some i ↔ ∃ data crc, data.length ≤ 255 ∧
      rest = BitVec.ofNat 8 data.length :: (data ++ le16 crc) ∧ i = mk data crc := by
  constructor
  · intro h
    unfold decodeReadResponse at h
    split at h
    · cases h
    · rename_i n tail
      split at h
      · rename_i lo hi hdrop
        have hn := n.isLt
        have hlen : (tail.take n.toNat).length = n.toNat := by
          have := congrArg List.length hdrop
          rw [List.length_drop, List.length_cons, List.length_singleton] at this
          rw [List.length_take]
          omega
        refine ⟨tail.take n.toNat, word16 hi lo, by omega, ?_, (Option.some.inj h).symm⟩
        rw [hlen, le16_word16, ← hdrop, List.take_append_drop, BitVec.ofNat_toNat,
          BitVec.setWidth_eq]
      · cases h
  · rintro ⟨data, crc, hlen, rfl, rfl⟩
    have hn : (BitVec.ofNat 8 data.length).toNat = data.length := by
      rw [BitVec.toNat_ofNat]
      omega
    simp only [decodeReadResponse, hn, List.drop_left, List.take_left, le16, word16_hiByte_loByte]

theorem decodeWriteResponse_eq_some_iff (mk : Word → Word → Word → Instr) (rest : List Byte)
    (i : Instr) :
    decodeWriteResponse mk rest = some i ↔ ∃ e1 e2 crc,
      rest = be16 e1 ++ be16 e2 ++ le16 crc ∧ i = mk e1 e2 crc := by
  constructor
  · intro h
    unfold decodeWriteResponse at h
    split at h
    · rename_i e1h e1l e2h e2l lo hi
      refine ⟨word16 e1h e1l, word16 e2h e2l, word16 hi lo, ?_, (Option.some.inj h).symm⟩
      rw [be16_word16, be16_word16, le16_word16]
      rfl
    · cases h
  · rintro ⟨e1, e2, crc, rfl, rfl⟩
    simp only [be16, le16, List.cons_append, List.nil_append, decodeWriteResponse,
      word16_hiByte_loByte]

theorem encode_of_decodeResponse {f : List Byte} {i : Instr} (h : decodeResponse f = some i) :
    i.wellFormed = true ∧ encode i = .response f := by
  match f with
  | [] | [_] => cases h
  | a :: fc :: rest =>
    cases hfc : FunctionCode.ofByte fc with
    | none => simp [decodeResponse, hfc] at h
    | some op =>
      obtain rfl := (ofByte_eq_some_iff fc op).1 hfc
      cases op <;> simp only [decodeResponse, ofByte_code] at h
      case rc | rdi | rhr | rir =>
        obtain ⟨data, crc, hlen, rfl, rfl⟩ := (decodeReadResponse_eq_some_iff _ _ _).1 h
        exact ⟨decide_eq_true hlen, rfl⟩
      case wsc | wsr | wmc | wmr =>
        obtain ⟨e1, e2, crc, rfl, rfl⟩ := (decodeWriteResponse_eq_some_iff _ _ _).1 h
        exact ⟨rfl, rfl⟩

/-! ### Both directions -/

theorem decode_encode (i : Instr) (h : i.wellFormed = true) : decode (encode i) = some i := by
  cases i with
  | reqRc a f q | reqRdi a f q | reqRhr a f q | reqRir a f q =>
    exact decodeRequest_assemble _ _ _ _ (decodeRequestBody_fields a _ f q)
  | reqWsc a f on =>
    cases on <;>
      exact decodeRequest_assemble _ _ _ _ (decodeRequestBody_fields a _ f _)
  | reqWsr a f v => exact decodeRequest_assemble _ _ _ _ (decodeRequestBody_fields a _ f v)
  | reqWmc a f bits =>
    exact decodeRequest_assemble _ _ _ _ (decodeRequestBody_coils a f (of_decide_eq_true h))
  | reqWmr a f vals =>
    exact decodeRequest_assemble _ _ _ _ (decodeRequestBody_registers a f (of_decide_eq_true h))
  | rspRc a d crc | rspRdi a d crc | rspRhr a d crc | rspRir a d crc =>
    exact (decodeReadResponse_eq_some_iff _ _ _).2 ⟨d, crc, of_decide_eq_true h, rfl, rfl⟩
  | rspWsc a e1 e2 crc | rspWsr a e1 e2 crc | rspWmc a e1 e2 crc | rspWmr a e1 e2 crc =>
    exact (decodeWriteResponse_eq_some_iff _ _ _).2 ⟨e1, e2, crc, rfl, rfl⟩
  | _ => rfl

/-- Settles O4: the CRC, the byte-count and the zero padding that the decoder requires are those that
the encoder writes. -/
theorem decodeInvertsEncode : Obligations.DecodeInvertsEncode := decode_encode

/-- Settles O5: each decoder accepts no bytes but those its rows are encoded in. -/
theorem encodeInvertsDecode : Obligations.EncodeInvertsDecode := by
  intro x i h
  cases x with
  | cmd c => exact encode_of_decodeCommand h
  | request f => exact encode_of_decodeRequest h
  | response f => exact encode_of_decodeResponse h

/-- Settles O6: each word is decoded, which for a request computes its CRC. -/
theorem specWordsDecode : Obligations.SpecWordsDecode := by
  refine ⟨rfl, rfl, rfl, rfl, rfl, rfl, rfl, ?reqRhr, ?reqWsc, rfl, rfl⟩ <;> decide +kernel

end Sys2Proof
end

section
/-! SUPPORT. The step on a code word, and that no access reads or writes the queue of the accesses
still to be served, so that a run of queued accesses is those accesses served in order (30_encoding.md
R91, R108, R114; 20_memory.md R70). -/

namespace Sys2Proof.Machine

open Sys2Proof

/-! ### The step on a code word -/

theorem issueWord_of_decode {x : CodeWord} {i : Instr} (h : decode x = some i) (s : State) :
    issueWord x s = exec i s := by
  rw [issueWord, h]

/-- Settles O8: the access at the head of the queue is served, and its word decodes. -/
theorem stepRunsTheDecodedInstruction : Obligations.StepRunsTheDecodedInstruction :=
  fun _ _ _ _ hp hd => (step_of_pending hp).trans (issueWord_of_decode hd _)

theorem decodeCommand_eq_none {c : Byte}
    (h : (0x07 ≤ c.toNat ∧ c.toNat ≤ 0x0E) ∨ (0x11 ≤ c.toNat ∧ c.toNat ≤ 0x1F) ∨
      (0x22 ≤ c.toNat ∧ c.toNat ≤ 0x2F) ∨ (0x34 ≤ c.toNat ∧ c.toNat ≤ 0x3F) ∨
      (0x43 ≤ c.toNat ∧ c.toNat ≤ 0x7E) ∨ (0x80 ≤ c.toNat ∧ c.toNat ≤ 0xFF)) :
    decodeCommand c = none := by
  cases hd : decodeCommand c with
  | none => rfl
  | some i =>
    have hc := (encode_of_decodeCommand hd).2
    cases i <;> cases hc <;> exact absurd h (by decide)

/-- Settles O7: none of the codes of the six ranges is in the command table. -/
theorem unassignedCodeRaisesCommandError : Obligations.UnassignedCodeRaisesCommandError :=
  fun _ _ _ hp hc => step_unassigned hp (decodeCommand_eq_none hc)

theorem wellFormed_of_isCommand {i : Instr} (h : i.isCommand) : i.wellFormed = true := by
  obtain ⟨c, hc⟩ := h
  cases i <;> cases hc <;> rfl

theorem tableCodeWord_byte (c : Byte) : tableCodeWord 8 c.toNat = .cmd c := by
  rw [tableCodeWord, if_pos (Nat.le_refl 8), BitVec.ofNat_toNat, BitVec.setWidth_eq]

/-- Settles O9: the placed word is the code of the command, which decodes to it. -/
theorem placedCommandIsRunNext : Obligations.PlacedCommandIsRunNext := by
  intro s c i hi
  have hd : decode (tableCodeWord 8 c.toNat) = some i := by
    rw [tableCodeWord_byte, ← hi]
    exact decode_encode i (wellFormed_of_isCommand ⟨c, hi⟩)
  exact ⟨hd, stepRunsTheDecodedInstruction _ _ _ _ rfl hd⟩

/-! ### The queue plays no part in what an access does -/

/-- An outcome whose next state has `p` as its queue. -/
def withQueue (p : List HostAccess) :
    Host.Outcome State Fault Refusal → Host.Outcome State Fault Refusal
  | .next t => .next { t with pending := p }
  | .fault f => .fault f
  | .refused r => .refused r

section
variable (s : State) (p : List HostAccess)

theorem payloadOf_with_pending (op : FunctionCode) :
    op.payloadOf { s with pending := p } = op.payloadOf s := by
  cases op <;> rfl

theorem buildFrame_with_pending (op : FunctionCode) :
    buildFrame op (op.payloadOf { s with pending := p }) { s with pending := p } =
      { buildFrame op (op.payloadOf s) s with pending := p } := by
  rw [payloadOf_with_pending]
  rcases buildFrame_cases op (op.payloadOf s) s with ⟨c, -, h, e⟩ | ⟨a, h, e⟩ <;> rw [e]
  · exact buildFrame_of_error _ h
  · exact buildFrame_of_ok _ h

theorem abortExchange_with_pending :
    abortExchange { s with pending := p } = { abortExchange s with pending := p } := by
  unfold abortExchange raise
  dsimp only
  split <;> rfl

theorem validateResponse_with_pending :
    validateResponse { s with pending := p } = withQueue p (validateResponse s) := by
  unfold validateResponse
  dsimp only
  split
  · cases checkResponse s.rxbuf s.rxlen.toNat s.expAddr s.expFc s.expLen.toNat <;> rfl
  · rfl

theorem deliverResponse_with_pending (bytes : List Byte) :
    deliverResponse bytes { s with pending := p } = withQueue p (deliverResponse bytes s) := by
  have hrecv := receiveBytes_with_pending bytes s p
  cases hr : (receiveBytes bytes s).rxrdy with
  | true =>
    rw [deliverResponse_of_rxrdy hr, ← validateResponse_with_pending, ← hrecv]
    exact deliverResponse_of_rxrdy (by rw [hrecv]; exact hr)
  | false =>
    rw [deliverResponse_of_not_rxrdy hr, withQueue, ← hrecv]
    exact deliverResponse_of_not_rxrdy (by rw [hrecv]; exact hr)

/-- Folding an operation that ignores the queue ignores it. -/
theorem foldl_with_pending {α : Type} {f : State → α → State}
    (hf : ∀ (t : State) (x : α), f { t with pending := p } x = { f t x with pending := p })
    (xs : List α) : xs.foldl f { s with pending := p } = { xs.foldl f s with pending := p } := by
  induction xs generalizing s with
  | nil => rfl
  | cons x xs ih => rw [List.foldl_cons, hf, ih, List.foldl_cons]

theorem loadBits_with_pending (bits : List Bool) :
    loadBits bits { s with pending := p } = { loadBits bits s with pending := p } :=
  foldl_with_pending (clearBits s) p (fun t b => pushBit_with_pending { t with bval := b } p) bits

theorem loadRegs_with_pending (vals : List Word) :
    loadRegs vals { s with pending := p } = { loadRegs vals s with pending := p } :=
  foldl_with_pending (clearRegs s) p (fun t v => pushReg_with_pending { t with val := v } p) vals

/-- The outcome of the command that builds a frame. -/
theorem built_with_pending (op : FunctionCode) :
    (.next (buildFrame op (op.payloadOf { s with pending := p }) { s with pending := p }) :
        Host.Outcome State Fault Refusal) = withQueue p (.next (buildFrame op (op.payloadOf s) s)) :=
  congrArg Host.Outcome.next (buildFrame_with_pending s p op)

theorem exec_with_pending (i : Instr) :
    exec i { s with pending := p } = withQueue p (exec i s) := by
  cases hi : encode i with
  | response f => rw [exec_response hi, exec_response hi, deliverResponse_with_pending]
  | cmd c =>
    cases i with
    | encRc => exact built_with_pending s p .rc
    | encRdi => exact built_with_pending s p .rdi
    | encRhr => exact built_with_pending s p .rhr
    | encRir => exact built_with_pending s p .rir
    | encWsc => exact built_with_pending s p .wsc
    | encWsr => exact built_with_pending s p .wsr
    | encWmc => exact built_with_pending s p .wmc
    | encWmr => exact built_with_pending s p .wmr
    | wbPush => exact congrArg Host.Outcome.next (pushBit_with_pending s p)
    | wrPush => exact congrArg Host.Outcome.next (pushReg_with_pending s p)
    | rxByte => exact congrArg Host.Outcome.next (receiveByte_with_pending s p)
    | validate => exact validateResponse_with_pending s p
    | abort => exact congrArg Host.Outcome.next (abortExchange_with_pending s p)
    | nop | crcInit | crcByte | wbClr | wrClr | reset => rfl
    | _ => cases hi
  | request f =>
    cases i with
    | reqRc a first q =>
      exact built_with_pending { setTarget .rc a first s with qty := q } p .rc
    | reqRdi a first q =>
      exact built_with_pending { setTarget .rdi a first s with qty := q } p .rdi
    | reqRhr a first q =>
      exact built_with_pending { setTarget .rhr a first s with qty := q } p .rhr
    | reqRir a first q =>
      exact built_with_pending { setTarget .rir a first s with qty := q } p .rir
    | reqWsc a first on =>
      exact built_with_pending { setTarget .wsc a first s with bval := on } p .wsc
    | reqWsr a first v =>
      exact built_with_pending { setTarget .wsr a first s with val := v } p .wsr
    | reqWmc a first bits =>
      rw [exec, exec, execReqWmc, execReqWmc, loadBits_with_pending]
      exact built_with_pending (setTarget .wmc a first (loadBits bits s)) p .wmc
    | reqWmr a first vals =>
      rw [exec, exec, execReqWmr, execReqWmr, loadRegs_with_pending]
      exact built_with_pending (setTarget .wmr a first (loadRegs vals s)) p .wmr
    | _ => cases hi

theorem rejectWord_with_pending (x : CodeWord) :
    rejectWord x { s with pending := p } = withQueue p (rejectWord x s) := by
  cases x with
  | cmd c => rfl
  | request f => rfl
  | response f => exact deliverResponse_with_pending s p f

theorem serve_with_pending (a : HostAccess) :
    serve a { s with pending := p } = withQueue p (serve a s) := by
  cases a with
  | write w => cases w <;> rfl
  | read l =>
    simp only [serve, hostRead_with_pending]
    cases hostRead l s <;> rfl
  | issue x =>
    simp only [serve, issueWord]
    cases decode x with
    | some i => exact exec_with_pending s p i
    | none => exact rejectWord_with_pending s p x
  | hardReset => rfl

end

/-- An access leaves the queue alone. -/
theorem serve_pending {a : HostAccess} {s t : State} (h : serve a s = .next t) :
    t.pending = s.pending := by
  have hq : serve a s = withQueue s.pending (serve a s) := serve_with_pending s s.pending a
  rw [h, withQueue] at hq
  rw [Host.Outcome.next.inj hq]

/-- A run of queued accesses is those accesses served in order (20_memory.md R70). -/
theorem run_queued (as : List HostAccess) (s : State) :
    core.run as.length { s with pending := as ++ s.pending } = serveAll as s := by
  induction as generalizing s with
  | nil => rfl
  | cons a as ih =>
    have hstep : step { s with pending := a :: as ++ s.pending } =
        withQueue (as ++ s.pending) (serve a s) :=
      (step_of_pending rfl).trans (serve_with_pending s _ a)
    cases ha : serve a s with
    | next t =>
      rw [ha] at hstep
      rw [List.length_cons, run_succ_next hstep, serveAll_cons_next ha, ← serve_pending ha]
      exact ih t
    | fault _ | refused _ =>
      have hcore : core.step { s with pending := a :: as ++ s.pending } = _ := hstep
      simp only [List.length_cons, Host.Core.run, hcore, serveAll, ha, withQueue]
      rfl

/-! ### Request frames and their statements -/

/-- The statements of an operation, queued before `rest`, run to what the operation builds. -/
theorem run_statements (op : Operation) (s : State) (rest : List HostAccess) :
    core.run op.statements.length { s with pending := op.statements ++ rest } =
      .next (op.built { s with pending := rest }) :=
  (run_queued op.statements { s with pending := rest }).trans (serveAll_statements op _)

/-- Settles O41: the statements of R114 are those of an operation of the host, and a request frame is
executed as what they build. -/
theorem requestFrameRefinesItsStatements : Obligations.RequestFrameRefinesItsStatements := by
  intro s rest addr first x on bits vals
  exact ⟨run_statements (.readCoils addr (refOfField .rc first) x) s rest,
    run_statements (.readDiscreteInputs addr (refOfField .rdi first) x) s rest,
    run_statements (.readHoldingRegisters addr (refOfField .rhr first) x) s rest,
    run_statements (.readInputRegisters addr (refOfField .rir first) x) s rest,
    run_statements (.writeSingleCoil addr (refOfField .wsc first) on) s rest,
    run_statements (.writeSingleRegister addr (refOfField .wsr first) x) s rest,
    run_statements (.writeMultipleCoils addr (refOfField .wmc first) bits) s rest,
    run_statements (.writeMultipleRegisters addr (refOfField .wmr first) vals) s rest⟩

end Sys2Proof.Machine
end

section
/-! SUPPORT. Each request frame leaves exactly its own bytes in `TXBUF` (30_encoding.md R94, R95,
R114). -/

namespace Sys2Proof.Machine

open Sys2Proof

/-! ### Reads -/

theorem quantityTooLarge_of_le {op : FunctionCode} {limit : Nat} {q : Word}
    (hop : op.quantityLimit = some limit) (h : q.toNat ≤ limit) : quantityTooLarge op q = false := by
  simp only [quantityTooLarge, hop, decide_eq_false_iff_not]
  omega

theorem quantityTooLarge_of_lt {op : FunctionCode} {limit : Nat} {q : Word}
    (hop : op.quantityLimit = some limit) (h : limit < q.toNat) : quantityTooLarge op q = true := by
  simp only [quantityTooLarge, hop, decide_eq_true_eq, h]

/-- A row that reads as `op` does, with the offset and the quantity limit of `op`: its frame is accepted
within the limit and refused beyond it. -/
theorem readRequest_cases {op : FunctionCode} {offset limit : Nat} {i : Instr} {a : Byte}
    {first q : Word} {s : State}
    (hi : exec i s = .next (buildRead op { setTarget op a first s with qty := q }))
    (hoffset : op.offset = offset) (hlimit : op.quantityLimit = some limit) :
    let u : State := { s with dev := a, ref := BitVec.ofNat 17 (first.toNat + offset), qty := q }
    (q.toNat ≤ limit → exec i s = .next (afterAccept u op.code
      (framed [a, op.code, hiByte first, loByte first, hiByte q, loByte q])
      (op.expectedLen q.toNat))) ∧
    (limit < q.toNat → exec i s = .next (afterRefusal u .quantityOutOfRange)) := by
  subst hoffset
  exact ⟨fun h => hi.trans (congrArg _
      (buildRead_setTarget op a first q s (quantityTooLarge_of_le hlimit h))),
    fun h => hi.trans (congrArg _
      (buildRead_setTarget_tooLarge op a first q s (quantityTooLarge_of_lt hlimit h)))⟩

/-- Settles O38: each row reads as its function code does. -/
theorem readRequestFrameIsReproduced : Obligations.ReadRequestFrameIsReproduced := by
  intro s addr first qty
  refine ⟨fun p hp => ?bits, fun p hp => ?registers⟩
  case bits =>
    simp only [List.mem_cons, List.not_mem_nil, or_false] at hp
    obtain rfl | rfl := hp
    · exact ⟨rfl, readRequest_cases (op := .rc) rfl rfl rfl⟩
    · exact ⟨rfl, readRequest_cases (op := .rdi) rfl rfl rfl⟩
  case registers =>
    simp only [List.mem_cons, List.not_mem_nil, or_false] at hp
    obtain rfl | rfl := hp
    · exact ⟨rfl, readRequest_cases (op := .rhr) rfl rfl rfl⟩
    · exact ⟨rfl, readRequest_cases (op := .rir) rfl rfl rfl⟩

/-! ### Writes -/

theorem be16_coilField (on : Bool) : be16 (coilField on) = [if on then 0xFF else 0x00, 0x00] := by
  cases on <;> rfl

theorem assemble_plWsc (a : Byte) (first : Word) (on : Bool) :
    assemble a 0x05 (plWsc first on) =
      framed [a, 0x05, hiByte first, loByte first, if on then 0xFF else 0x00, 0x00] := by
  rw [plWsc, be16_coilField]
  rfl

/-- Settles O39: both rows are accepted from every state. -/
theorem singleWriteFrameIsReproduced : Obligations.SingleWriteFrameIsReproduced := by
  intro s addr first value on
  refine ⟨⟨?_, ?_⟩, rfl, congrArg Host.Outcome.next (buildRegister_setTarget addr first value s)⟩
  · exact congrArg CodeWord.request (assemble_plWsc addr first on)
  · rw [← assemble_plWsc]
    exact congrArg Host.Outcome.next (buildCoil_setTarget addr first on s)

/-- Settles O40: the loaded values are those of the frame. -/
theorem multipleWriteFrameIsReproduced : Obligations.MultipleWriteFrameIsReproduced := by
  intro s addr first
  refine ⟨fun bits hbits => ⟨_, rfl, ?coils⟩, fun vals hvals => ⟨_, rfl, ?registers⟩⟩
  case coils =>
    have hcount : (BitVec.ofNat 11 bits.length).toNat = bits.length := by
      rw [BitVec.toNat_ofNat]
      omega
    have hbuild := buildCoils_setTarget addr first (loadBits bits s)
    rw [loadBits_eq bits s hbits] at hbuild
    simp only [hcount, List.take_length] at hbuild
    rw [exec, execReqWmc, loadBits_eq bits s hbits, hbuild]
    rfl
  case registers =>
    have hcount : (BitVec.ofNat 7 vals.length).toNat = vals.length := by
      rw [BitVec.toNat_ofNat]
      omega
    have hbuild := buildRegisters_setTarget addr first (loadRegs vals s)
    rw [loadRegs_eq vals s hvals] at hbuild
    simp only [hcount, List.take_length] at hbuild
    rw [exec, execReqWmr, loadRegs_eq vals s hvals, hbuild]
    rfl

end Sys2Proof.Machine
end

section
/-! SUPPORT. A response frame that passes every check ends the exchange in `DONE` (30_encoding.md R97,
R98; 42_validate.md R193 to R195, R201). -/

namespace Sys2Proof.Machine

open Sys2Proof

/-! ### The checks on a framed body -/

theorem framed_length (body : List Byte) : (framed body).length = body.length + 2 := by
  rw [framed, List.length_append]
  rfl

theorem checksumAgrees_framed (body : List Byte) :
    checksumAgrees (framed body) (body.length + 2) = true := by
  rw [checksumAgrees, framed, Nat.add_sub_cancel, List.take_left, List.drop_left]
  exact decide_eq_true rfl

/-- Where the payload of a response starts (42_validate.md R196). -/
def payloadOffset (op : FunctionCode) : Nat := if op.isRead then 3 else 2

/-- How long the payload of a response with byte 2 `b2` is (42_validate.md R196). -/
def payloadLength (op : FunctionCode) (b2 : Byte) : Nat := if op.isRead then b2.toNat else 2

section
variable {op : FunctionCode} {b2 : Byte} {rest : List Byte}
  (hlen : op.claimedLength b2 = rest.length + 5)
include hlen

/-- A framed response of the length it claims passes the checks. -/
theorem checkResponse_framed (ea : Byte) {el : Nat} (hdomain : 5 ≤ el)
    (henough : el ≤ rest.length + 5) :
    checkResponse (framed (ea :: op.code :: b2 :: rest)) (rest.length + 5) ea op.code el =
      .accepted (payloadOffset op) (payloadLength op b2) := by
  have hsum := checksumAgrees_framed (ea :: op.code :: b2 :: rest)
  have hbytes := framed_length (ea :: op.code :: b2 :: rest)
  simp only [List.length_cons] at hsum hbytes
  rw [checkResponse_code _ _ _ _ _ hdomain]
  rcases runChecks_cases op (framed (ea :: op.code :: b2 :: rest)) (rest.length + 5) ea el with
    ⟨hshort, -⟩ | ⟨-, hfew, -⟩ | ⟨-, b0, b1, b2', h0, h1, h2, hchecks⟩
  · omega
  · omega
  · cases h0
    cases h1
    cases h2
    rcases hchecks with ⟨hne, -⟩ | ⟨-, -, ⟨hne, -⟩ | ⟨-, ⟨hfew, -⟩ | ⟨-, -, e⟩ | ⟨-, hne, -⟩⟩⟩
    · simp at hne
    · exact absurd hlen.symm hne
    · omega
    · exact e
    · exact absurd (hsum.symm.trans hne) nofun

/-- `VALIDATE` on a framed response with the expected address and function code. -/
theorem validateResponse_framed {s : State} (hs : StateInv s) (hp : s.phase = .await)
    (hfc : s.expFc = op.code) (hel : s.expLen.toNat ≤ rest.length + 5)
    (hrx : s.rxbuf = framed (s.expAddr :: op.code :: b2 :: rest))
    (hrxlen : s.rxlen.toNat = rest.length + 5) :
    validateResponse s = .next { s with
      payoff := BitVec.ofNat 2 (payloadOffset op), paylen := BitVec.ofNat 8 (payloadLength op b2)
      ok := true, err := .none, phase := .done } := by
  have hcheck := checkResponse_framed hlen s.expAddr (hs.expected (.inl hp)).2 hel
  rw [validateResponse, if_pos hp, hrx, hrxlen, hfc, hcheck]

theorem claimedLength_le : rest.length + 5 ≤ 260 := by
  have hb := b2.isLt
  rw [← hlen, FunctionCode.claimedLength]
  split <;> simp only [Config.readRspOverhead, Config.writeRspLen] <;> omega

/-- A framed response delivered into an empty `RXBUF` (42_validate.md R200). -/
theorem receiveBytes_framed {s : State} (hs : StateInv s) (hp : s.phase = .await)
    (hr : s.rxlen = 0) :
    let body := s.expAddr :: op.code :: b2 :: rest
    receiveBytes (framed body) s = { s with
      din := hiByte (crc16Value body), rxbuf := framed body
      rxlen := BitVec.ofNat 16 (rest.length + 5) } := by
  intro body
  have hbytes : (framed body).length = rest.length + 5 := framed_length body
  have hfits := claimedLength_le hlen
  have hempty : s.rxbuf.length = min s.rxlen.toNat 260 := hs.buffers.1.2.1
  have hzero : s.rxlen.toNat = 0 := congrArg BitVec.toNat hr
  have hnil : s.rxbuf = [] := List.length_eq_zero_iff.1 (by omega)
  have hlast : (framed body).getLastD s.din = hiByte (crc16Value body) := by
    simp [framed, hiByte]
  rw [receiveBytes_await _ s hp hempty, hlast, hnil, List.nil_append,
    List.take_of_length_le (hbytes.trans_le hfits), hbytes, hzero, Nat.zero_add,
    Nat.min_eq_left (by omega)]

/-- A framed response delivered into an empty `RXBUF` completes the exchange. -/
theorem deliverResponse_framed {s : State} (hs : StateInv s) (hp : s.phase = .await)
    (hr : s.rxlen = 0) (hfc : s.expFc = op.code) (hel : s.expLen.toNat ≤ rest.length + 5) :
    let body := s.expAddr :: op.code :: b2 :: rest
    deliverResponse (framed body) s = .next { s with
      din := hiByte (crc16Value body), rxbuf := framed body
      rxlen := BitVec.ofNat 16 (rest.length + 5)
      payoff := BitVec.ofNat 2 (payloadOffset op), paylen := BitVec.ofNat 8 (payloadLength op b2)
      ok := true, err := .none, phase := .done } := by
  intro body
  have hrecv : receiveBytes (framed body) s = _ := receiveBytes_framed hlen hs hp hr
  have hinv : StateInv (receiveBytes (framed body) s) :=
    stateInv_keptByPrimitives.of_receiveBytes _ hs
  rw [hrecv] at hinv
  have hcount : (BitVec.ofNat 16 (rest.length + 5)).toNat = rest.length + 5 := by
    have := claimedLength_le hlen
    rw [BitVec.toNat_ofNat]
    omega
  rw [deliverResponse_of_rxrdy, hrecv]
  · exact validateResponse_framed hlen hinv hp hfc hel rfl hcount
  · rw [hrecv]
    exact decide_eq_true ⟨hp, hel.trans_eq hcount.symm⟩

end

/-! ### The two families -/

/-- A row that delivers a read response with the right CRC. -/
theorem readResponse_completes {op : FunctionCode} (hop : op.isRead = true) {i : Instr} {s : State}
    {data : List Byte} {crc : Word}
    (hi : exec i s = deliverResponse (readResponse s.expAddr op.code data crc) s)
    (hs : StateInv s) (hp : s.phase = .await) (hr : s.rxlen = 0) (hdata : data.length ≤ 255)
    (hel : s.expLen.toNat ≤ 5 + data.length) (hfc : s.expFc = op.code)
    (hcrc : crc = crc16Value ([s.expAddr, op.code, BitVec.ofNat 8 data.length] ++ data)) :
    ∃ t, exec i s = .next t ∧ t.payload = data ∧
      t = { s with
        din := hiByte crc
        rxbuf := framed ([s.expAddr, op.code, BitVec.ofNat 8 data.length] ++ data)
        rxlen := BitVec.ofNat 16 (5 + data.length)
        payoff := 3, paylen := BitVec.ofNat 8 data.length
        ok := true, err := .none, phase := .done } := by
  subst hcrc
  have hn : (BitVec.ofNat 8 data.length).toNat = data.length := by
    rw [BitVec.toNat_ofNat]
    omega
  have hlen : op.claimedLength (BitVec.ofNat 8 data.length) = data.length + 5 := by
    rw [FunctionCode.claimedLength, if_pos hop, hn, Nat.add_comm]
  have hdel := deliverResponse_framed hlen hs hp hr hfc (by omega)
  rw [payloadOffset, payloadLength, if_pos hop, if_pos hop, hn, Nat.add_comm data.length] at hdel
  refine ⟨_, hi.trans hdel, ?_, rfl⟩
  simp [State.payload, framed, hn]

/-- A row that delivers a write confirmation with the right CRC. -/
theorem writeResponse_completes {op : FunctionCode} (hop : op.isRead = false) {i : Instr} {s : State}
    {e1 e2 crc : Word}
    (hi : exec i s = deliverResponse (writeResponse s.expAddr op.code e1 e2 crc) s)
    (hs : StateInv s) (hp : s.phase = .await) (hr : s.rxlen = 0) (hel : s.expLen.toNat ≤ 8)
    (hfc : s.expFc = op.code)
    (hcrc : crc =
      crc16Value [s.expAddr, op.code, hiByte e1, loByte e1, hiByte e2, loByte e2]) :
    ∃ t, exec i s = .next t ∧ t.payload = [hiByte e1, loByte e1] ∧
      t = { s with
        din := hiByte crc
        rxbuf := framed [s.expAddr, op.code, hiByte e1, loByte e1, hiByte e2, loByte e2]
        rxlen := 8, payoff := 2, paylen := 2, ok := true, err := .none, phase := .done } := by
  subst hcrc
  have hlen : op.claimedLength (hiByte e1) = [loByte e1, hiByte e2, loByte e2].length + 5 := by
    rw [FunctionCode.claimedLength, hop]
    rfl
  have hdel := deliverResponse_framed hlen hs hp hr hfc hel
  rw [payloadOffset, payloadLength, hop] at hdel
  exact ⟨_, hi.trans hdel, rfl, rfl⟩

/-- Settles O43: each row delivers the read response of its function code. -/
theorem readResponseFrameCompletes : Obligations.ReadResponseFrameCompletes := by
  intro s data crc hs hp hr hdata hel p hmem
  simp only [List.mem_cons, List.not_mem_nil, or_false] at hmem
  obtain rfl | rfl | rfl | rfl := hmem
  · exact readResponse_completes (op := .rc) rfl rfl hs hp hr hdata hel
  · exact readResponse_completes (op := .rdi) rfl rfl hs hp hr hdata hel
  · exact readResponse_completes (op := .rhr) rfl rfl hs hp hr hdata hel
  · exact readResponse_completes (op := .rir) rfl rfl hs hp hr hdata hel

/-- Settles O44: each row delivers the write confirmation of its function code. -/
theorem writeResponseFrameCompletes : Obligations.WriteResponseFrameCompletes := by
  intro s e1 e2 crc hs hp hr hel p hmem
  simp only [List.mem_cons, List.not_mem_nil, or_false] at hmem
  obtain rfl | rfl | rfl | rfl := hmem
  · exact writeResponse_completes (op := .wsc) rfl rfl hs hp hr hel
  · exact writeResponse_completes (op := .wsr) rfl rfl hs hp hr hel
  · exact writeResponse_completes (op := .wmc) rfl rfl hs hp hr hel
  · exact writeResponse_completes (op := .wmr) rfl rfl hs hp hr hel

end Sys2Proof.Machine
end

section
/-! SUPPORT. The CRC Engine's laws (40_crc.md R131 to R134) and the worked example (R138). -/

namespace Sys2Proof

/-! ### The step algorithm -/

theorem crcShifts_eq_iterate (n : Nat) (acc : Word) : crcShifts n acc = crcShift^[n] acc := by
  induction n generalizing acc with
  | zero => rfl
  | succ n ih => exact ih (crcShift acc)

theorem crc16Value_concat (s : List Byte) (b : Byte) :
    crc16Value (s ++ [b]) = crcStep (crc16Value s) b :=
  crc16Value_append s [b]

/-- Settles O16: `n` iterations are the iterate of one, and the fold takes the last byte last. -/
theorem crcIsComputedAsStated : Obligations.CrcIsComputedAsStated :=
  ⟨fun acc b => crcShifts_eq_iterate 8 (acc ^^^ b.setWidth 16), rfl, crc16Value_concat,
    fun _ => rfl⟩

/-! ### The residue -/

/-- Iterations whose tested bits are all 0 only shift. -/
theorem crcShifts_of_low_bits_zero (n : Nat) (acc : Word)
    (h : ∀ i < n, acc.getLsbD i = false) : crcShifts n acc = acc >>> n := by
  induction n generalizing acc with
  | zero => rfl
  | succ n ih =>
    have hshift : crcShift acc = acc >>> 1 := by
      rw [crcShift, h 0 (Nat.succ_pos n)]
      rfl
    have hrest : ∀ i < n, (acc >>> 1).getLsbD i = false := fun i hi => by
      rw [BitVec.getLsbD_ushiftRight]
      exact h (1 + i) (by omega)
    rw [crcShifts, hshift, ih _ hrest, ← BitVec.shiftRight_add, Nat.add_comm]

/-- The accumulator's own low byte cancels it, so that only the high byte is left. -/
theorem crcStep_loByte (v : Word) : crcStep v (loByte v) = v >>> 8 := by
  have hlow : ∀ i < 8, (v ^^^ (loByte v).setWidth 16).getLsbD i = false := fun i hi => by
    simp [loByte, hi, show i < 16 by omega]
  rw [crcStep, crcShifts_of_low_bits_zero 8 _ hlow]
  ext i hi
  simp [loByte]

/-- An accumulator that the byte cancels stays 0. -/
theorem crcStep_hiByte (v : Word) : crcStep (v >>> 8) (hiByte v) = 0 := by
  have hcancel : (hiByte v).setWidth 16 = v >>> 8 := by
    have hv := v.isLt
    apply BitVec.eq_of_toNat_eq
    rw [BitVec.toNat_setWidth, Machine.hiByte_toNat, BitVec.toNat_ushiftRight,
      Nat.shiftRight_eq_div_pow]
    omega
  rw [crcStep, hcancel, BitVec.xor_self]
  exact crcShifts_of_low_bits_zero 8 0 (by simp)

/-- Clause (d) of R134: the CRC over a sequence and its own CRC is 0. -/
theorem crc16Value_framed (s : List Byte) : crc16Value (s ++ crc16 s) = 0 := by
  rw [crc16Value_append, crc16, le16, List.foldl_cons, List.foldl_cons, List.foldl_nil,
    crcStep_loByte, crcStep_hiByte]

/-! ### Detection of a changed byte -/

/-- A frame in which one byte was changed is rejected, whether a byte of the body or of the CRC. -/
theorem crc16_take_ne_drop_of_set (s : List Byte) (k : Nat) (h : k < (s ++ crc16 s).length)
    (b : Byte) (hb : b ≠ (s ++ crc16 s)[k]) :
    crc16 (((s ++ crc16 s).set k b).take s.length) ≠ ((s ++ crc16 s).set k b).drop s.length := by
  by_cases hk : k < s.length
  · rw [List.getElem_append_left hk] at hb
    rw [List.set_append_left _ _ hk, List.take_left' List.length_set,
      List.drop_left' List.length_set]
    exact fun he => crc16Value_set_ne s k hk b hb (crc16_injective _ _ he)
  · have hle : s.length ≤ k := Nat.le_of_not_lt hk
    rw [List.getElem_append_right hle] at hb
    rw [List.set_append_right _ _ hle, List.take_left, List.drop_left]
    intro he
    have hbyte := List.getElem_set_self (l := crc16 s) (i := k - s.length) (a := b)
      (by rw [List.length_set]; rw [List.length_append] at h; omega)
    simp only [← he] at hbyte
    exact hb hbyte.symm

/-- Inverting a bit changes the byte. -/
theorem xor_bit_ne (b : Byte) (j : Nat) (hj : j < 8) : b ^^^ (1#8 <<< j) ≠ b := by
  intro he
  have hbit := congrArg (fun v : Byte => v.getLsbD j) he
  simp [hj] at hbit

/-- Settles O17: the accumulator's bytes cancel it, and the step is injective in the accumulator and in
the byte, so that one changed byte changes the CRC. -/
theorem crcLaws : Obligations.CrcLaws :=
  ⟨⟨rfl, rfl⟩, fun _ _ => congrArg crc16, crc16Value_append, crc16Value_framed,
    fun s k j h hj => crc16_take_ne_drop_of_set s k h _ (xor_bit_ne _ j hj), by decide, rfl⟩

/-! ### The worked example -/

/-- Settles O18: the steps one by one, and the value of the sequence as those steps in a row. -/
theorem crcTraceOfTheSourceExample : Obligations.CrcTraceOfTheSourceExample := by
  have h1 : crcStep 0xFFFF 0x01 = 0x807E := by decide
  have h2 : crcStep 0x807E 0x03 = 0x2140 := by decide
  have h3 : crcStep 0x2140 0x00 = 0xF020 := by decide
  have h4 : crcStep 0xF020 0x00 = 0xD8F1 := by decide
  have h5 : crcStep 0xD8F1 0x00 = 0x8419 := by decide
  have h6 : crcStep 0x8419 0x01 = 0x0A84 := by decide
  have hvalue : crc16Value [0x01, 0x03, 0x00, 0x00, 0x00, 0x01] = 0x0A84 := by
    simp only [crc16Value, Config.crcInit, List.foldl_cons, List.foldl_nil, h1, h2, h3, h4, h5, h6]
  have hbytes : crc16 [0x01, 0x03, 0x00, 0x00, 0x00, 0x01] = [0x84, 0x0A] := by
    rw [crc16, hvalue]
    rfl
  exact ⟨h1, h2, h3, h4, h5, h6, hvalue, hbytes, by decide⟩

end Sys2Proof
end

section
/-! SUPPORT. The streaming commands compute the CRC of the bytes they are given, and the encoder and the
validator keep apart from the accumulator (40_crc.md R135 to R137). -/

namespace Sys2Proof.Machine

open Sys2Proof

/-! ### The streaming commands -/

theorem crcOf_length (bytes : List Byte) : (Asm.crcOf bytes).length = 1 + 2 * bytes.length := by
  simp [Asm.crcOf, List.length_flatMap]
  omega

/-- `CRC.BYTE` on byte after byte folds them into `CRC` and leaves the last one in `DIN`. -/
theorem serveAll_crcBytes (bytes : List Byte) (s : State) :
    serveAll (bytes.flatMap fun x => [Asm.set (.din x), Asm.cmd .crcByte]) s =
      .next { s with din := bytes.getLastD s.din, crc := bytes.foldl crcStep s.crc } := by
  induction bytes generalizing s with
  | nil => rfl
  | cons b bs ih =>
    rw [List.getLastD_cons]
    exact ih { s with din := b, crc := crcStep s.crc b }

theorem serveAll_crcOf (bytes : List Byte) (s : State) :
    serveAll (Asm.crcOf bytes) s =
      .next { s with din := bytes.getLastD s.din, crc := crc16Value bytes } :=
  serveAll_crcBytes bytes { s with crc := Config.crcInit }

theorem run_crcOf (s : State) (bytes : List Byte) (rest : List HostAccess) :
    core.run (1 + 2 * bytes.length) { s with pending := Asm.crcOf bytes ++ rest } =
      .next { s with pending := rest, din := bytes.getLastD s.din, crc := crc16Value bytes } := by
  rw [← crcOf_length]
  exact (run_queued _ { s with pending := rest }).trans (serveAll_crcOf bytes _)

theorem crcViews_eq_le16 (s : State) : [s.crcLo, s.crcHi] = le16 s.crc := rfl

/-- Settles O19: a run of the queued accesses serves them in order, and `CRC.BYTE` after `CRC.BYTE` is
the fold of R132. -/
theorem crcCommandsStreamTheCrc : Obligations.CrcCommandsStreamTheCrc :=
  ⟨fun _ => rfl, fun _ => rfl, run_crcOf,
    fun s _ h => (crcViews_eq_le16 s).trans (congrArg le16 h)⟩

/-! ### The accumulator plays no part in the codec -/

theorem payloadOf_with_crc (op : FunctionCode) (s : State) (c : Word) :
    op.payloadOf { s with crc := c } = op.payloadOf s := by
  cases op <;> rfl

theorem exec_encodeCommand_with_crc (op : FunctionCode) {s t : State} (c : Word)
    (h : exec op.command s = .next t) :
    exec op.command { s with crc := c } = .next { t with crc := c } := by
  rw [exec_encodeCommand] at h ⊢
  rw [payloadOf_with_crc, ← Host.Outcome.next.inj h]
  rcases buildFrame_cases op (op.payloadOf s) s with ⟨cause, -, hcheck, e⟩ | ⟨a, hcheck, e⟩ <;> rw [e]
  · exact congrArg Host.Outcome.next (buildFrame_of_error _ hcheck)
  · exact congrArg Host.Outcome.next (buildFrame_of_ok _ hcheck)

theorem validateResponse_with_crc {s t : State} (c : Word) (h : validateResponse s = .next t) :
    validateResponse { s with crc := c } = .next { t with crc := c } := by
  rcases validateResponse_cases s with ⟨hp, e⟩ | ⟨hp, off, n, hv, e⟩ | ⟨hp, cause, hv, e⟩ |
    ⟨-, -, e⟩ | ⟨-, -, e⟩ <;> rw [e] at h <;> cases h
  · exact if_neg hp
  · simp only [validateResponse, if_pos hp, hv]
  · simp only [validateResponse, if_pos hp, hv]
    rfl

/-- The instructions of R137: the eight `ENC.*` and `VALIDATE`. -/
theorem mem_codecCommands_iff (i : Instr) :
    i ∈ [Instr.encRc, .encRdi, .encRhr, .encRir, .encWsc, .encWsr, .encWmc, .encWmr, .validate] ↔
      (∃ op : FunctionCode, i = op.command) ∨ i = .validate := by
  rw [← mem_encodeCommands_iff, ← List.mem_singleton, ← List.mem_append]
  rfl

/-- An instruction that carries any other `CRC` through unread also leaves its own in place. -/
theorem crc_eq_of_exec_with_crc {i : Instr} {s t : State} (ht : exec i s = .next t)
    (h : ∀ c : Word, exec i { s with crc := c } = .next { t with crc := c }) : t.crc = s.crc := by
  have hown : exec i s = .next { t with crc := s.crc } := h s.crc
  rw [Host.Outcome.next.inj (ht.symm.trans hown)]

/-- Settles O20: neither the operand checks and payloads nor the checks of a response look at `CRC`, and
no update of theirs touches it. -/
theorem codecNeitherReadsNorWritesCrc : Obligations.CodecNeitherReadsNorWritesCrc := by
  intro i hi s t ht
  have hcarried : ∀ c : Word, exec i { s with crc := c } = .next { t with crc := c } := by
    rcases (mem_codecCommands_iff i).1 hi with ⟨op, rfl⟩ | rfl
    · exact fun c => exec_encodeCommand_with_crc op c ht
    · exact fun c => validateResponse_with_crc c ht
  exact ⟨crc_eq_of_exec_with_crc ht hcarried, hcarried⟩

end Sys2Proof.Machine
end

section
/-! SUPPORT. The eight `ENC.*` commands: the frame each builds or the refusal it gives, what decides
between them, and how long the frame is (41_encode.md R153 to R166). -/

namespace Sys2Proof.Machine

open Sys2Proof

/-! ### Acceptance and refusal -/

/-- With the reference in its range and the quantity within its limit the frame is accepted. -/
theorem exec_encodeCommand_accepted {op : FunctionCode} {s : State} (hlow : op.offset ≤ s.ref.toNat)
    (hhigh : s.ref.toNat ≤ op.offset + 0xFFFF) (hq : quantityTooLarge op s.qty = false) :
    exec op.command s = .next (afterAccept s op.code
      (assemble s.dev op.code (op.payloadOf s (BitVec.ofNat 16 (s.ref.toNat - op.offset))))
      (op.expectedLen s.qty.toNat)) := by
  rw [exec_encodeCommand, buildFrame_of_ok _ (operandCheck_in_range hlow hhigh hq)]
  rfl

theorem exec_encodeCommand_refused {op : FunctionCode} {s : State} {cause : ErrCode}
    (h : operandCheck op s = .error cause) :
    exec op.command s = .next (afterRefusal s cause) := by
  rw [exec_encodeCommand, buildFrame_of_error _ h]
  rfl

theorem exec_encodeCommand_below {op : FunctionCode} {s : State} (h : s.ref.toNat < op.offset) :
    exec op.command s = .next (afterRefusal s .refBelowOffset) :=
  exec_encodeCommand_refused (operandCheck_below h)

theorem exec_encodeCommand_above {op : FunctionCode} {s : State}
    (h : op.offset + 0xFFFF < s.ref.toNat) :
    exec op.command s = .next (afterRefusal s .refAboveRange) :=
  exec_encodeCommand_refused (operandCheck_above h)

theorem exec_encodeCommand_quantity {op : FunctionCode} {s : State} {limit : Nat}
    (hlimit : op.quantityLimit = some limit) (hlow : op.offset ≤ s.ref.toNat)
    (hhigh : s.ref.toNat ≤ op.offset + 0xFFFF) (hq : limit < s.qty.toNat) :
    exec op.command s = .next (afterRefusal s .quantityOutOfRange) :=
  exec_encodeCommand_refused
    (operandCheck_quantity hlow hhigh (quantityTooLarge_of_lt hlimit hq))

/-! ### Reads -/

/-- The command of a read function code: its frame, and its three refusals in order. -/
theorem exec_readCommand {op : FunctionCode} {offset limit : Nat} (s : State)
    (hoffset : op.offset = offset) (hlimit : op.quantityLimit = some limit)
    (hpayload : ∀ a, op.payloadOf s a = plRead a s.qty) :
    let a : Word := BitVec.ofNat 16 (s.ref.toNat - offset)
    (offset ≤ s.ref.toNat → s.ref.toNat ≤ offset + 0xFFFF → s.qty.toNat ≤ limit →
      exec op.command s = .next (afterAccept s op.code
        (framed [s.dev, op.code, hiByte a, loByte a, hiByte s.qty, loByte s.qty])
        (op.expectedLen s.qty.toNat))) ∧
    (s.ref.toNat < offset → exec op.command s = .next (afterRefusal s .refBelowOffset)) ∧
    (offset + 0xFFFF < s.ref.toNat → exec op.command s = .next (afterRefusal s .refAboveRange)) ∧
    (offset ≤ s.ref.toNat → s.ref.toNat ≤ offset + 0xFFFF → limit < s.qty.toNat →
      exec op.command s = .next (afterRefusal s .quantityOutOfRange)) := by
  subst hoffset
  refine ⟨fun hlow hhigh hq => ?_, exec_encodeCommand_below, exec_encodeCommand_above,
    exec_encodeCommand_quantity hlimit⟩
  rw [exec_encodeCommand_accepted hlow hhigh (quantityTooLarge_of_le hlimit hq), hpayload]
  rfl

/-- Settles O21: the bit reads subtract no offset, so no reference lies below it. -/
theorem readBitsRequestIsBuilt : Obligations.ReadBitsRequestIsBuilt := by
  intro p hp s
  simp only [List.mem_cons, List.not_mem_nil, or_false] at hp
  obtain rfl | rfl := hp
  · obtain ⟨haccept, -, habove, hquantity⟩ := exec_readCommand (op := .rc) s rfl rfl fun _ => rfl
    exact ⟨haccept (Nat.zero_le _), habove, hquantity (Nat.zero_le _)⟩
  · obtain ⟨haccept, -, habove, hquantity⟩ := exec_readCommand (op := .rdi) s rfl rfl fun _ => rfl
    exact ⟨haccept (Nat.zero_le _), habove, hquantity (Nat.zero_le _)⟩

/-- Settles O22: each command is the read of its function code. -/
theorem readRegistersRequestIsBuilt : Obligations.ReadRegistersRequestIsBuilt := by
  intro p hp s
  simp only [List.mem_cons, List.not_mem_nil, or_false] at hp
  obtain rfl | rfl := hp
  · exact exec_readCommand (op := .rhr) s rfl rfl fun _ => rfl
  · exact exec_readCommand (op := .rir) s rfl rfl fun _ => rfl

/-! ### Writes -/

/-- The writes, which are the operations without a quantity limit, expect a confirmation of 8 bytes
(41_encode.md R151, R155). -/
theorem expectedLen_of_no_limit {op : FunctionCode} (h : op.quantityLimit = none) (q : Nat) :
    op.expectedLen q = 8 := by
  cases op with
  | rc => cases h
  | rdi => cases h
  | rhr => cases h
  | rir => cases h
  | _ => rfl

/-- The command of a write function code, which has no quantity limit: its frame, and its two refusals
in order. -/
theorem exec_writeCommand {op : FunctionCode} {offset : Nat} {payload : Word → List Byte} (s : State)
    (hoffset : op.offset = offset) (hlimit : op.quantityLimit = none)
    (hpayload : ∀ a, op.payloadOf s a = payload a) :
    (offset ≤ s.ref.toNat → s.ref.toNat ≤ offset + 0xFFFF →
      exec op.command s = .next (afterAccept s op.code
        (framed (s.dev :: op.code :: payload (BitVec.ofNat 16 (s.ref.toNat - offset)))) 8)) ∧
    (s.ref.toNat < offset → exec op.command s = .next (afterRefusal s .refBelowOffset)) ∧
    (offset + 0xFFFF < s.ref.toNat → exec op.command s = .next (afterRefusal s .refAboveRange)) := by
  subst hoffset
  have hq : quantityTooLarge op s.qty = false := by rw [quantityTooLarge, hlimit]
  refine ⟨fun hlow hhigh => ?_, exec_encodeCommand_below, exec_encodeCommand_above⟩
  rw [exec_encodeCommand_accepted hlow hhigh hq, expectedLen_of_no_limit hlimit, hpayload]
  rfl

/-- Settles O23: the coil's value field is one of two, and the register's is `VAL`. -/
theorem singleWriteRequestIsBuilt : Obligations.SingleWriteRequestIsBuilt := by
  intro s
  obtain ⟨haccept, -, habove⟩ := exec_writeCommand (op := .wsc) s rfl rfl
    fun a => congrArg (be16 a ++ ·) (be16_coilField s.bval)
  exact ⟨⟨haccept (Nat.zero_le _), habove⟩, exec_writeCommand (op := .wsr) s rfl rfl fun _ => rfl⟩

/-- In canonical form the request carries all of `WBIT` (41_encode.md R162). -/
theorem payloadOf_wmc {s : State} (h : Memory.wf s) (a : Word) :
    FunctionCode.wmc.payloadOf s a =
      be16 a ++ be16 (BitVec.ofNat 16 s.wbcnt.toNat) ++
        [BitVec.ofNat 8 (ceilDiv s.wbcnt.toNat 8)] ++ pack s.wbit := by
  obtain ⟨⟨-, -, hcount, -⟩, -⟩ := h
  rw [FunctionCode.payloadOf, ← hcount, List.take_length, plWmc]

/-- In canonical form the request carries all of `WREG` (41_encode.md R163). -/
theorem payloadOf_wmr {s : State} (h : Memory.wf s) (a : Word) :
    FunctionCode.wmr.payloadOf s a =
      be16 a ++ be16 (BitVec.ofNat 16 s.wrcnt.toNat) ++
        [BitVec.ofNat 8 (2 * s.wrcnt.toNat)] ++ s.wreg.flatMap be16 := by
  obtain ⟨⟨-, -, -, hcount⟩, -⟩ := h
  rw [FunctionCode.payloadOf, ← hcount, List.take_length, plWmr]

/-- Settles O24: the invariant makes the entries of a buffer as many as its count. -/
theorem multipleWriteRequestIsBuilt : Obligations.MultipleWriteRequestIsBuilt := by
  intro s hs
  obtain ⟨haccept, -, habove⟩ := exec_writeCommand (op := .wmc) s rfl rfl (payloadOf_wmc hs.buffers)
  exact ⟨⟨haccept (Nat.zero_le _), habove⟩,
    exec_writeCommand (op := .wmr) s rfl rfl (payloadOf_wmr hs.buffers)⟩

/-! ### The operands alone decide -/

theorem operandCheck_congr (op : FunctionCode) {s s' : State} (href : s.ref = s'.ref)
    (hqty : s.qty = s'.qty) : operandCheck op s = operandCheck op s' := by
  rw [operandCheck, operandCheck, href, hqty]

theorem payloadOf_congr (op : FunctionCode) {s s' : State} (hqty : s.qty = s'.qty)
    (hval : s.val = s'.val) (hbval : s.bval = s'.bval) (hwbit : s.wbit = s'.wbit)
    (hwbcnt : s.wbcnt = s'.wbcnt) (hwreg : s.wreg = s'.wreg) (hwrcnt : s.wrcnt = s'.wrcnt) :
    op.payloadOf s = op.payloadOf s' := by
  funext a
  cases op <;> simp only [FunctionCode.payloadOf, hqty, hval, hbval, hwbit, hwbcnt, hwreg, hwrcnt]

/-- Building again from the state that a build left gives that state: a build writes no operand. -/
theorem buildFrame_idem (op : FunctionCode) (s : State) :
    let t := buildFrame op (op.payloadOf s) s
    buildFrame op (op.payloadOf t) t = t := by
  intro t
  rcases buildFrame_cases op (op.payloadOf s) s with ⟨c, -, hcheck, e⟩ | ⟨a, hcheck, e⟩
  · have ht : t = raise (.encode c) s := e
    rw [ht]
    exact buildFrame_of_error _ hcheck
  · have ht : t = acceptFrame op (assemble s.dev op.code (op.payloadOf s a))
      (op.expectedLen s.qty.toNat) s := e
    have hpayload : op.payloadOf t = op.payloadOf s := by
      rw [ht]
      exact payloadOf_congr op rfl rfl rfl rfl rfl rfl rfl
    rw [hpayload, ht]
    exact buildFrame_of_ok _ hcheck

/-- Settles O25: the checks and the payload read operands and write-data buffers only, which a build
leaves alone. -/
theorem frameIsAFunctionOfTheOperands : Obligations.FrameIsAFunctionOfTheOperands := by
  intro i hi
  obtain ⟨op, rfl⟩ := (mem_encodeCommands_iff i).1 hi
  simp only [exec_encodeCommand, Host.Outcome.next.injEq]
  refine ⟨?_, ?_⟩
  · rintro s t rfl
    exact buildFrame_idem op s
  · rintro s s' t t' hdev href hqty hval hbval hwbit hwbcnt hwreg hwrcnt rfl rfl
    rw [← payloadOf_congr op hqty hval hbval hwbit hwbcnt hwreg hwrcnt]
    have hsame := operandCheck_congr op href hqty
    rcases buildFrame_cases op (op.payloadOf s) s with ⟨c, -, hcheck, e⟩ | ⟨a, hcheck, e⟩
    · rw [e, buildFrame_of_error _ (hsame ▸ hcheck)]
      exact ⟨rfl, rfl, rfl, rfl, rfl, rfl, rfl⟩
    · rw [e, buildFrame_of_ok _ (hsame ▸ hcheck), ← hdev, ← hqty]
      exact ⟨rfl, rfl, hdev, rfl, rfl, rfl, rfl⟩

/-! ### The length of a frame -/

/-- An accepted frame is four bytes longer than its payload, and `TXLEN` counts them all. -/
theorem exec_encodeCommand_length {op : FunctionCode} {s t : State} (h : Memory.wf s)
    (hp : t.phase = .await) (ht : exec op.command s = .next t) :
    ∃ a, t.txbuf.length = (op.payloadOf s a).length + 4 ∧ t.txlen.toNat = t.txbuf.length := by
  rw [exec_encodeCommand] at ht
  obtain rfl := Host.Outcome.next.inj ht
  rcases buildFrame_cases op (op.payloadOf s) s with ⟨c, -, -, e⟩ | ⟨a, -, e⟩ <;> rw [e] at hp ⊢
  · cases hp
  · refine ⟨a, assemble_length _ _ _, ?_⟩
    have hfits := payloadOf_length_le op h a
    rw [acceptFrame_txlen, acceptFrame_txbuf, assemble_length, BitVec.toNat_ofNat]
    omega

/-- A request with a payload of two fields has eight bytes. -/
theorem exec_encodeCommand_length_eq_eight {op : FunctionCode} {s t : State} (h : Memory.wf s)
    (hp : t.phase = .await) (hpayload : ∀ a, (op.payloadOf s a).length = 4)
    (ht : exec op.command s = .next t) : t.txlen = 8 ∧ t.txbuf.length = 8 := by
  obtain ⟨a, hlen, hcount⟩ := exec_encodeCommand_length h hp ht
  rw [hpayload] at hlen
  exact ⟨BitVec.eq_of_toNat_eq (hcount.trans hlen), hlen⟩

/-- Settles O26: the payloads of the multiple writes are bounded by the capacities of `WBIT` and
`WREG`. -/
theorem requestLengthIsBounded : Obligations.RequestLengthIsBounded := by
  intro s t hs hp
  obtain ⟨⟨-, -, hbits, hregs⟩, -, -, hbitcap, hregcap⟩ := hs.buffers
  simp only [Config.wbCap, Config.wrCap] at hbitcap hregcap
  refine ⟨fun i hi => ?fixed, fun ht => ?coils, fun ht => ?registers⟩
  case fixed =>
    simp only [List.mem_cons, List.not_mem_nil, or_false] at hi
    obtain rfl | rfl | rfl | rfl | rfl | rfl := hi
    · exact exec_encodeCommand_length_eq_eight (op := .rc) hs.buffers hp fun _ => rfl
    · exact exec_encodeCommand_length_eq_eight (op := .rdi) hs.buffers hp fun _ => rfl
    · exact exec_encodeCommand_length_eq_eight (op := .rhr) hs.buffers hp fun _ => rfl
    · exact exec_encodeCommand_length_eq_eight (op := .rir) hs.buffers hp fun _ => rfl
    · exact exec_encodeCommand_length_eq_eight (op := .wsc) hs.buffers hp fun _ => rfl
    · exact exec_encodeCommand_length_eq_eight (op := .wsr) hs.buffers hp fun _ => rfl
  case coils =>
    obtain ⟨a, hlen, hcount⟩ := exec_encodeCommand_length (op := .wmc) hs.buffers hp ht
    rw [FunctionCode.payloadOf, ← hbits, List.take_length, plWmc_length, ceilDiv] at hlen
    omega
  case registers =>
    obtain ⟨a, hlen, hcount⟩ := exec_encodeCommand_length (op := .wmr) hs.buffers hp ht
    rw [FunctionCode.payloadOf, ← hregs, List.take_length, plWmr_length] at hlen
    omega

end Sys2Proof.Machine
end

section
/-! SUPPORT. The four commands of the write-data buffers (41_encode.md R170 to R173). -/

namespace Sys2Proof.Machine

open Sys2Proof

theorem add_one_eq_ofNat {w : Nat} (v : BitVec w) : v + 1 = BitVec.ofNat w (v.toNat + 1) := by
  rw [BitVec.ofNat_add, BitVec.ofNat_toNat, BitVec.setWidth_eq]
  rfl

/-- Settles O29: each clear is one update of the state. -/
theorem clearEmptiesTheWriteBuffer : Obligations.ClearEmptiesTheWriteBuffer :=
  fun _ => ⟨rfl, rfl⟩

/-- In canonical form `WB.PUSH` appends at the end. -/
theorem pushBit_appends {s : State} (h : Memory.wf s) (hroom : s.wbcnt.toNat ≠ 2040) :
    pushBit s =
      { s with wbit := s.wbit ++ [s.bval], wbcnt := BitVec.ofNat 11 (s.wbcnt.toNat + 1) } := by
  obtain ⟨⟨-, -, hcount, -⟩, -⟩ := h
  rw [pushBit_of_room hroom, add_one_eq_ofNat, ← hcount, storeAt_length_self]

/-- In canonical form `WR.PUSH` appends at the end. -/
theorem pushReg_appends {s : State} (h : Memory.wf s) (hroom : s.wrcnt.toNat ≠ 127) :
    pushReg s =
      { s with wreg := s.wreg ++ [s.val], wrcnt := BitVec.ofNat 7 (s.wrcnt.toNat + 1) } := by
  obtain ⟨⟨-, -, -, hcount⟩, -⟩ := h
  rw [pushReg_of_room hroom, add_one_eq_ofNat, ← hcount, storeAt_length_self]

/-- Settles O30: below its capacity a buffer has room, and at it the push is a command error. -/
theorem pushAppendsOneValue : Obligations.PushAppendsOneValue :=
  fun _ hs => ⟨
    fun hroom => congrArg _ (pushBit_appends hs.buffers hroom.ne),
    fun hfull => congrArg _ (pushBit_of_full hfull),
    fun hroom => congrArg _ (pushReg_appends hs.buffers hroom.ne),
    fun hfull => congrArg _ (pushReg_of_full hfull)⟩

end Sys2Proof.Machine
end

section
/-! SUPPORT. Request, response, decode: the reads give back what the responder put in
(95_test_vectors.md E2; 43_host_session_api.md R230, R231). -/

namespace Sys2Proof.Machine

open Sys2Proof

theorem toNat_ofNat_of_lt {w n : Nat} (h : n < 2 ^ w) : (BitVec.ofNat w n).toNat = n := by
  rw [BitVec.toNat_ofNat, Nat.mod_eq_of_lt h]

/-- A sound read response of exactly the expected length, delivered into an empty `RXBUF`, completes the
exchange. `deliverResponse_framed` asks for the whole invariant; the round trips start from any state,
whose write-data buffers need not satisfy it. -/
theorem deliverResponse_read {op : FunctionCode} (hop : op.isRead = true) {s : State}
    {data : List Byte} (hdata : data.length ≤ 255) (hp : s.phase = .await) (hbuf : s.rxbuf = [])
    (hcount : s.rxlen = 0) (hfc : s.expFc = op.code) (hel : s.expLen.toNat = data.length + 5) :
    let body := s.expAddr :: op.code :: BitVec.ofNat 8 data.length :: data
    ∃ u, deliverResponse (framed body) s = .next u ∧
      u.phase = .done ∧ u.expLen = s.expLen ∧ u.rxlen = BitVec.ofNat 16 (data.length + 5) ∧
      u.payload = data := by
  intro body
  have hn : (BitVec.ofNat 8 data.length).toNat = data.length :=
    toNat_ofNat_of_lt (by omega)
  have hrxlen : (BitVec.ofNat 16 (data.length + 5)).toNat = data.length + 5 :=
    toNat_ofNat_of_lt (by omega)
  have hclaimed : op.claimedLength (BitVec.ofNat 8 data.length) = data.length + 5 := by
    rw [FunctionCode.claimedLength, if_pos hop, hn, Nat.add_comm]
  have hcheck := checkResponse_framed hclaimed s.expAddr (el := data.length + 5) (by omega) le_rfl
  have hbytes : (framed body).length = data.length + 5 := framed_length body
  have hreceived := receiveBytes_await (framed body) s hp (by rw [hbuf, hcount]; rfl)
  have hzero : s.rxlen.toNat = 0 := congrArg BitVec.toNat hcount
  rw [hbuf, hzero, List.nil_append, List.take_of_length_le (by omega), hbytes, Nat.zero_add,
    Nat.min_eq_left (by omega)] at hreceived
  have hready : (receiveBytes (framed body) s).rxrdy = true := by
    rw [hreceived]
    exact decide_eq_true ⟨hp, (hel.trans hrxlen.symm).le⟩
  rw [deliverResponse_of_rxrdy hready, hreceived, validateResponse, if_pos hp]
  simp only [hrxlen, hfc, hel, body, hcheck]
  refine ⟨_, rfl, rfl, rfl, rfl, ?_⟩
  simp [State.payload, framed, payloadOffset, payloadLength, hop, hn]

/-- A read request and then the response that carries `data`, of the length the request expects. -/
theorem readExchange_completes {op : FunctionCode} {limit : Nat} (req rsp : Instr) {addr : Byte}
    {first q : Word} {data : List Byte} (hop : op.isRead = true)
    (hlimit : op.quantityLimit = some limit)
    (hreq : ∀ s, exec req s = .next (buildRead op { setTarget op addr first s with qty := q }))
    (hrsp : ∀ s, exec rsp s = deliverResponse
      (framed ([addr, op.code, BitVec.ofNat 8 data.length] ++ data)) s)
    (hq : q.toNat ≤ limit) (hlen : op.expectedLen q.toNat = data.length + 5)
    (s : State) :
    ∃ t u : State, exec req s = .next t ∧ exec rsp t = .next u ∧ u.phase = .done ∧
      u.expLen = u.rxlen.setWidth 9 ∧ u.payload = data := by
  have haccepted : quantityTooLarge op q = false := quantityTooLarge_of_le hlimit hq
  have hbound := (expectedLen_bounds op q haccepted).2
  have hdata : data.length ≤ 255 := by omega
  obtain ⟨u, hdeliver, hdone, hexp, hrxlen, hpayload⟩ := deliverResponse_read hop
    (s := acceptFrame op (assemble addr op.code (plRead first q)) (data.length + 5)
      { s with dev := addr, ref := refOfField op first, qty := q }) hdata rfl rfl rfl rfl
    (toNat_ofNat_of_lt (by omega))
  refine ⟨_, u, ?_, (hrsp _).trans hdeliver, hdone, ?_, hpayload⟩
  · rw [hreq, buildRead_setTarget op addr first q s haccepted, hlen]
  · rw [hexp, hrxlen, acceptFrame_expLen, BitVec.setWidth_ofNat_of_le (by omega)]

/-- Settles O46: the data of the response are the values, high byte first, and the host reads them so. -/
theorem registerReadRoundTrips : Obligations.RegisterReadRoundTrips := by
  intro s addr first vals _ hvals data q crc p hp
  have hqty : q.toNat = vals.length := toNat_ofNat_of_lt (by omega)
  have hlen : 5 + 2 * q.toNat = data.length + 5 := by
    rw [hqty, flatMap_be16_length, Nat.add_comm]
  have hdecode : registerValues data = vals.map BitVec.toInt :=
    congrArg _ (be16Values_flatMap vals)
  have hq : q.toNat ≤ 127 := hqty.trans_le hvals
  simp only [List.mem_cons, List.not_mem_nil, or_false] at hp
  rw [← hdecode]
  obtain rfl | rfl := hp
  · obtain ⟨t, u, hreq, hrsp, hdone, hexp, hpayload⟩ := readExchange_completes (op := .rhr)
      (.reqRhr addr first q) (.rspRhr addr data _) rfl rfl (fun _ => rfl) (fun _ => rfl) hq hlen s
    exact ⟨t, u, hreq, hrsp, hdone, hexp, congrArg _ hpayload⟩
  · obtain ⟨t, u, hreq, hrsp, hdone, hexp, hpayload⟩ := readExchange_completes (op := .rir)
      (.reqRir addr first q) (.rspRir addr data _) rfl rfl (fun _ => rfl) (fun _ => rfl) hq hlen s
    exact ⟨t, u, hreq, hrsp, hdone, hexp, congrArg _ hpayload⟩

/-- The bits that the host unpacks from packed values are the values. -/
theorem unpackBits_pack (bits : List Bool) : unpackBits (pack bits) bits.length = bits.map some := by
  refine List.ext_getElem (by simp [unpackBits]) fun i _ hi => ?_
  rw [List.length_map] at hi
  simp [unpackBits, payloadBit_pack hi]

/-- Settles O47: the data of the response are the packed bits, and the host unpacks them so. -/
theorem bitReadRoundTrips : Obligations.BitReadRoundTrips := by
  intro s addr first bits _ hbits data q crc p hp
  have hqty : q.toNat = bits.length := toNat_ofNat_of_lt (by omega)
  have hlen : 5 + ceilDiv q.toNat 8 = data.length + 5 := by
    rw [hqty, pack_length, Nat.add_comm]
  have hq : q.toNat ≤ 2040 := hqty.trans_le hbits
  simp only [List.mem_cons, List.not_mem_nil, or_false] at hp
  rw [← unpackBits_pack]
  obtain rfl | rfl := hp
  · obtain ⟨t, u, hreq, hrsp, hdone, -, hpayload⟩ := readExchange_completes (op := .rc)
      (.reqRc addr first q) (.rspRc addr data _) rfl rfl (fun _ => rfl) (fun _ => rfl) hq hlen s
    exact ⟨t, u, hreq, hrsp, hdone, congrArg (unpackBits · _) hpayload⟩
  · obtain ⟨t, u, hreq, hrsp, hdone, -, hpayload⟩ := readExchange_completes (op := .rdi)
      (.reqRdi addr first q) (.rspRdi addr data _) rfl rfl (fun _ => rfl) (fun _ => rfl) hq hlen s
    exact ⟨t, u, hreq, hrsp, hdone, congrArg (unpackBits · _) hpayload⟩

end Sys2Proof.Machine
end

section
/-! SUPPORT. What the validator answers on a whole response, check by check (42_validate.md R191 to
R199), and that a flipped bit is never accepted (R204). -/

namespace Sys2Proof.Machine

open Sys2Proof

/-! ### The two families of function codes -/

theorem exists_code_of_known {b : Byte} (h : knownCode b) : ∃ op : FunctionCode, b = op.code := by
  obtain ⟨op, hop⟩ := Option.isSome_iff_exists.1 h
  exact ⟨op, (ofByte_eq_some_iff b op).1 hop⟩

theorem isRead_iff_code_le (op : FunctionCode) : op.isRead = true ↔ op.code.toNat ≤ 4 := by
  cases op <;> decide

theorem readCode_iff (op : FunctionCode) :
    op.code = 0x01 ∨ op.code = 0x02 ∨ op.code = 0x03 ∨ op.code = 0x04 ↔ op.isRead = true := by
  cases op <;> decide

theorem writeCode_iff (op : FunctionCode) :
    op.code = 0x05 ∨ op.code = 0x06 ∨ op.code = 0x0F ∨ op.code = 0x10 ↔ op.isRead = false := by
  cases op <;> decide

/-- The eight numbers of R96 are those of the function codes. -/
theorem listedCode_iff (b : Byte) :
    ((b = 0x01 ∨ b = 0x02 ∨ b = 0x03 ∨ b = 0x04) ∨ (b = 0x05 ∨ b = 0x06 ∨ b = 0x0F ∨ b = 0x10)) ↔
      ∃ op : FunctionCode, b = op.code := by
  constructor
  · rintro ((h | h | h | h) | h | h | h | h)
    exacts [⟨.rc, h⟩, ⟨.rdi, h⟩, ⟨.rhr, h⟩, ⟨.rir, h⟩, ⟨.wsc, h⟩, ⟨.wsr, h⟩, ⟨.wmc, h⟩, ⟨.wmr, h⟩]
  · rintro ⟨op, rfl⟩
    rw [readCode_iff, writeCode_iff]
    exact Bool.eq_false_or_eq_true op.isRead

theorem claimedLength_of_read {op : FunctionCode} (h : op.isRead = true) (b2 : Byte) :
    op.claimedLength b2 = 5 + b2.toNat := if_pos h

theorem claimedLength_of_write {op : FunctionCode} (h : op.isRead = false) (b2 : Byte) :
    op.claimedLength b2 = 8 := if_neg (by rw [h]; nofun)

/-- No response claims more than the 260 bytes of `RXBUF` (R198). -/
theorem claimedLength_le_rxCap (op : FunctionCode) (b2 : Byte) : op.claimedLength b2 ≤ 260 := by
  have hb := b2.isLt
  cases h : op.isRead with
  | true => rw [claimedLength_of_read h]; omega
  | false => rw [claimedLength_of_write h]; omega

/-! ### The answer on a whole response -/

theorem checksumAgrees_length (r : List Byte) :
    checksumAgrees r r.length = decide (crc16 (r.take (r.length - 2)) = r.drop (r.length - 2)) := by
  rw [checksumAgrees, List.take_of_length_le (l := r.drop (r.length - 2))]
  rw [List.length_drop]
  omega

theorem validateAndExtract_of_rejected {r : List Byte} {ea ef : Byte} {el : Nat} {c : ErrCode}
    (h : checkResponse r r.length ea ef el = .rejected c) :
    validateAndExtract r ea ef el = some (.error c) := by
  rw [validateAndExtract, h]

theorem validateAndExtract_of_accepted {r : List Byte} {ea ef : Byte} {el off n : Nat}
    (h : checkResponse r r.length ea ef el = .accepted off n) :
    validateAndExtract r ea ef el = some (.ok ((r.drop off).take n)) := by
  rw [validateAndExtract, h]

/-- R199: no result outside the domain. -/
theorem validateAndExtract_outsideDomain {r : List Byte} {ea ef : Byte} {el : Nat}
    (h : (¬ ∃ op : FunctionCode, ef = op.code) ∨ el < 5) :
    validateAndExtract r ea ef el = none := by
  have hout : checkResponse r r.length ea ef el = .outsideDomain := by
    rw [checkResponse]
    cases hop : FunctionCode.ofByte ef with
    | none => rfl
    | some op =>
      have hknown : ∃ op : FunctionCode, ef = op.code := ⟨op, (ofByte_eq_some_iff ef op).1 hop⟩
      exact if_pos (h.resolve_left (not_not_intro hknown))
  rw [validateAndExtract, hout]

section
variable {op : FunctionCode} {r : List Byte} {ea b0 b1 b2 : Byte} {el : Nat} (hdomain : 5 ≤ el)
include hdomain

/-- Check 1 (R191). -/
theorem validateAndExtract_short (h : r.length < el) :
    validateAndExtract r ea op.code el = some (.error .incompleteResponse) := by
  apply validateAndExtract_of_rejected
  rw [checkResponse_code op r _ ea el hdomain, runChecks, if_pos h]

/-- Checks 2 to 5 on a response that is long enough (R192 to R196). -/
theorem validateAndExtract_header (hreached : el ≤ r.length) (h0 : r[0]? = some b0)
    (h1 : r[1]? = some b1) (h2 : r[2]? = some b2) :
    validateAndExtract r ea op.code el = some (
      if b0 ≠ ea ∨ b1 ≠ op.code then .error .addressOrFunctionMismatch
      else if r.length ≠ op.claimedLength b2 then .error .lengthMismatch
      else if crc16 (r.take (r.length - 2)) ≠ r.drop (r.length - 2) then .error .checksumMismatch
      else .ok ((r.drop (payloadOffset op)).take (payloadLength op b2))) := by
  have hcheck := checkResponse_code op r r.length ea el hdomain
  have hsum := checksumAgrees_length r
  rcases runChecks_cases op r r.length ea el with ⟨hshort, -⟩ | ⟨-, hfew, -⟩ |
    ⟨-, b0', b1', b2', h0', h1', h2', hchecks⟩
  · omega
  · omega
  · cases h0.symm.trans h0'
    cases h1.symm.trans h1'
    cases h2.symm.trans h2'
    rcases hchecks with ⟨hne, e⟩ | ⟨ha, hf, hchecks⟩
    · rw [if_pos hne]
      exact validateAndExtract_of_rejected (hcheck.trans e)
    rw [if_neg (by simp [ha, hf])]
    rcases hchecks with ⟨hne, e⟩ | ⟨hlen, ⟨hfew, -⟩ | ⟨-, hok, e⟩ | ⟨-, hbad, e⟩⟩
    · rw [if_pos hne]
      exact validateAndExtract_of_rejected (hcheck.trans e)
    · omega
    · have hcrc := of_decide_eq_true (hsum.symm.trans hok)
      rw [if_neg (not_not_intro hlen), if_neg (not_not_intro hcrc)]
      exact validateAndExtract_of_accepted (hcheck.trans e)
    · have hcrc := of_decide_eq_false (hsum.symm.trans hbad)
      rw [if_neg (not_not_intro hlen), if_pos hcrc]
      exact validateAndExtract_of_rejected (hcheck.trans e)

/-- Checks 3 to 5, once address and function code match (R193 to R196). -/
theorem validateAndExtract_matching (hreached : el ≤ r.length) (h0 : r[0]? = some ea)
    (h1 : r[1]? = some op.code) (h2 : r[2]? = some b2) :
    validateAndExtract r ea op.code el = some (
      if r.length ≠ op.claimedLength b2 then .error .lengthMismatch
      else if crc16 (r.take (r.length - 2)) ≠ r.drop (r.length - 2) then .error .checksumMismatch
      else .ok ((r.drop (payloadOffset op)).take (payloadLength op b2))) := by
  rw [validateAndExtract_header hdomain hreached h0 h1 h2, if_neg (by simp)]

end

/-! ### The checks in their order -/

/-- What holds of the length that each family asks for holds of the claimed length. -/
theorem claimedLength_family (P : Nat → Prop) (op : FunctionCode) (b2 : Byte) :
    (op.isRead = true ∧ P (5 + b2.toNat)) ∨ (op.isRead = false ∧ P 8) ↔
      P (op.claimedLength b2) := by
  cases h : op.isRead with
  | true => simp [claimedLength_of_read h]
  | false => simp [claimedLength_of_write h]

/-- Settles O31: the eight codes are two families, and each clause selects one branch of the
checks. -/
theorem validatorMakesTheChecksInOrder : Obligations.ValidatorMakesTheChecksInOrder := by
  intro r ea ef el L read write
  refine ⟨fun h => validateAndExtract_outsideDomain (h.imp_left (mt (listedCode_iff ef).2)),
    fun hlisted hdomain => ?_⟩
  obtain ⟨op, rfl⟩ := (listedCode_iff ef).1 hlisted
  have hread : read ↔ op.isRead = true := readCode_iff op
  have hwrite : write ↔ op.isRead = false := writeCode_iff op
  refine ⟨validateAndExtract_short hdomain, fun hreached b0 b1 b2 h0 h1 h2 => ?_⟩
  rw [hread, hwrite, claimedLength_family (L ≠ ·), claimedLength_family (L = ·)]
  refine ⟨fun hne => ?header, ?length, ?checksum, ?read, ?write⟩
  case header => rw [validateAndExtract_header hdomain hreached h0 h1 h2, if_pos hne]
  case length =>
    rintro rfl rfl hlen
    rw [validateAndExtract_matching hdomain hreached h0 h1 h2, if_pos hlen]
  case checksum =>
    rintro rfl rfl hlen hcrc
    rw [validateAndExtract_matching hdomain hreached h0 h1 h2, if_neg (not_not_intro hlen),
      if_pos hcrc]
  case read =>
    rintro rfl rfl hop hlen hcrc
    rw [← claimedLength_of_read hop] at hlen
    rw [validateAndExtract_matching hdomain hreached h0 h1 h2, if_neg (not_not_intro hlen),
      if_neg (not_not_intro hcrc), payloadOffset, payloadLength, if_pos hop, if_pos hop]
  case write =>
    rintro rfl rfl hop hlen hcrc
    rw [← claimedLength_of_write hop b2] at hlen
    rw [validateAndExtract_matching hdomain hreached h0 h1 h2, if_neg (not_not_intro hlen),
      if_neg (not_not_intro hcrc), payloadOffset, payloadLength, hop]
    rfl

/-! ### A flipped bit -/

theorem eq_framed_of_checksum {r : List Byte} {n : Nat} (h : crc16 (r.take n) = r.drop n) :
    r = framed (r.take n) :=
  (List.take_append_drop n r).symm.trans (congrArg (r.take n ++ ·) h.symm)

/-- A response that passes is a body of the length it claims, with its CRC. -/
theorem exists_framed_of_validateAndExtract {r : List Byte} {ea ef : Byte} {el : Nat}
    {data : List Byte} (h : validateAndExtract r ea ef el = some (.ok data)) :
    ∃ (op : FunctionCode) (b2 : Byte) (rest : List Byte), ef = op.code ∧ 5 ≤ el ∧
      el ≤ rest.length + 5 ∧ op.claimedLength b2 = rest.length + 5 ∧
      r = framed (ea :: op.code :: b2 :: rest) := by
  by_cases hout : (¬ ∃ op : FunctionCode, ef = op.code) ∨ el < 5
  · rw [validateAndExtract_outsideDomain hout] at h
    cases h
  push Not at hout
  obtain ⟨⟨op, rfl⟩, hdomain⟩ := hout
  rcases Nat.lt_or_ge r.length el with hshort | hreached
  · rw [validateAndExtract_short hdomain hshort] at h
    cases h
  obtain ⟨b0, b1, b2, tail, rfl⟩ : ∃ b0 b1 b2 tail, r = b0 :: b1 :: b2 :: tail := by
    match r, hdomain.trans hreached with
    | b0 :: b1 :: b2 :: tail, _ => exact ⟨b0, b1, b2, tail, rfl⟩
  rw [validateAndExtract_header hdomain hreached rfl rfl rfl] at h
  split_ifs at h with hne hlen hcrc
  · cases h
  · cases h
  · cases h
  rw [not_or, not_not, not_not] at hne
  rw [not_not] at hlen hcrc
  obtain ⟨rfl, rfl⟩ := hne
  simp only [List.length_cons] at hlen hcrc hreached
  have hbody : (b0 :: op.code :: b2 :: tail).take (tail.length + 3 - 2) =
      b0 :: op.code :: b2 :: tail.take (tail.length - 2) := by
    rw [show tail.length + 3 - 2 = tail.length - 2 + 3 by omega]
    rfl
  have hrest : (tail.take (tail.length - 2)).length = tail.length - 2 := by
    rw [List.length_take]
    omega
  exact ⟨op, b2, tail.take (tail.length - 2), rfl, hdomain, by omega, by omega,
    (eq_framed_of_checksum hcrc).trans (congrArg framed hbody)⟩

/-- No byte of a framed body can change without its CRC failing. -/
theorem crc16_framed_set_ne {body : List Byte} {k : Nat} (hk : k < (framed body).length) {b : Byte}
    (hb : b ≠ (framed body)[k]) :
    crc16 (((framed body).set k b).take (((framed body).set k b).length - 2)) ≠
      ((framed body).set k b).drop (((framed body).set k b).length - 2) := by
  rw [List.length_set, framed_length, Nat.add_sub_cancel]
  exact crc16_take_ne_drop_of_set body k hk b hb

/-- One changed byte makes a response that passes fail; the place of the byte gives the cause. -/
theorem validateAndExtract_framed_set {op : FunctionCode} {ea b2 : Byte} {rest : List Byte}
    {el : Nat} (hdomain : 5 ≤ el) (henough : el ≤ rest.length + 5)
    (hclaimed : op.claimedLength b2 = rest.length + 5) {k : Nat}
    (hk : k < (framed (ea :: op.code :: b2 :: rest)).length) {b : Byte}
    (hb : b ≠ (framed (ea :: op.code :: b2 :: rest))[k]) :
    validateAndExtract ((framed (ea :: op.code :: b2 :: rest)).set k b) ea op.code el =
      some (.error (if k < 2 then .addressOrFunctionMismatch
        else if k = 2 ∧ op.isRead = true then .lengthMismatch else .checksumMismatch)) := by
  have hlen : ((framed (ea :: op.code :: b2 :: rest)).set k b).length = rest.length + 5 := by
    rw [List.length_set, framed_length]
    rfl
  have hreached := henough.trans_eq hlen.symm
  have hcrc := crc16_framed_set_ne hk hb
  match k with
  | 0 => rw [validateAndExtract_header hdomain hreached rfl rfl rfl, if_pos (.inl hb)]; rfl
  | 1 => rw [validateAndExtract_header hdomain hreached rfl rfl rfl, if_pos (.inr hb)]; rfl
  | 2 =>
    rw [validateAndExtract_matching hdomain hreached rfl rfl rfl, hlen]
    cases hop : op.isRead with
    | true =>
      have hother : rest.length + 5 ≠ op.claimedLength b := fun he => hb <| by
        rw [← hclaimed, claimedLength_of_read hop, claimedLength_of_read hop] at he
        exact BitVec.eq_of_toNat_eq (Nat.add_left_cancel he).symm
      rw [if_pos hother]
      rfl
    | false =>
      have hsame : rest.length + 5 = op.claimedLength b := by
        rw [← hclaimed, claimedLength_of_write hop, claimedLength_of_write hop]
      rw [if_neg (not_not_intro hsame), ← hlen, if_pos hcrc]
      rfl
  | k + 3 =>
    rw [validateAndExtract_matching hdomain hreached rfl rfl rfl, hlen,
      if_neg (not_not_intro hclaimed.symm), ← hlen, if_pos hcrc, if_neg (by omega),
      if_neg (by omega)]

/-- Settles O32: what passes is a framed body, and inverting a bit changes its byte. -/
theorem singleBitCorruptionIsRejected : Obligations.SingleBitCorruptionIsRejected := by
  intro r ea ef el data hok k j hk hj
  obtain ⟨op, b2, rest, rfl, hdomain, henough, hclaimed, rfl⟩ :=
    exists_framed_of_validateAndExtract hok
  simp only [← isRead_iff_code_le]
  exact validateAndExtract_framed_set hdomain henough hclaimed hk (xor_bit_ne _ j hj)

end Sys2Proof.Machine
end

section
/-! SUPPORT. The three commands of the response side, and that the bytes stored and the saturating
count tell the validator all it needs (42_validate.md R198 to R202; 92_eei_decisions.md D8). -/

namespace Sys2Proof.Machine

open Sys2Proof

/-! ### `RX.BYTE`, `ABORT` and a frame delivered outside `AWAIT` -/

/-- In canonical form `RX.BYTE` appends at the end. -/
theorem receiveByte_appends {s : State} (h : Memory.wf s) (hp : s.phase = .await)
    (hroom : s.rxlen.toNat < 260) :
    receiveByte s =
      { s with rxbuf := s.rxbuf ++ [s.din], rxlen := BitVec.ofNat 16 (s.rxlen.toNat + 1) } := by
  obtain ⟨⟨-, hcount, -, -⟩, -⟩ := h
  have hlen : s.rxlen.toNat = s.rxbuf.length := (hcount.trans (Nat.min_eq_left hroom.le)).symm
  rw [receiveByte_await s hp, if_pos hroom, if_pos (by omega), ← add_one_eq_ofNat, hlen,
    storeAt_length_self]

/-- From 260 on `RX.BYTE` only counts. -/
theorem receiveByte_counts {s : State} (hp : s.phase = .await) (hfull : 260 ≤ s.rxlen.toNat)
    (hroom : s.rxlen.toNat < 0xFFFF) :
    receiveByte s = { s with rxlen := BitVec.ofNat 16 (s.rxlen.toNat + 1) } := by
  rw [receiveByte_await s hp, if_pos hroom, if_neg hfull.not_gt, ← add_one_eq_ofNat]

theorem receiveByte_saturated {s : State} (hp : s.phase = .await) (hfull : s.rxlen.toNat = 0xFFFF) :
    receiveByte s = s := by
  rw [receiveByte_await s hp, if_neg (by omega), if_neg (by omega)]

/-- Settles O33: room in `RXBUF`, room in the count only, or neither. -/
theorem receivedByteIsAppended : Obligations.ReceivedByteIsAppended :=
  fun s hs => ⟨
    fun hp hroom => congrArg _ (receiveByte_appends hs.buffers hp hroom),
    fun hp hfull hroom => congrArg _ (receiveByte_counts hp hfull hroom),
    fun hp hfull => congrArg _ (receiveByte_saturated hp hfull),
    fun hp => congrArg _ (receiveByte_of_not_await s hp)⟩

/-- Settles O36: admitted in `AWAIT` only. -/
theorem abortRecordsTheTimeout : Obligations.AbortRecordsTheTimeout :=
  fun _ => ⟨fun hp => congrArg _ (abortExchange_await hp),
    fun hp => congrArg _ (abortExchange_of_not_await hp)⟩

/-- Settles O45: no byte is received, so `RXRDY` stays 0 and no `VALIDATE` follows. -/
theorem responseFrameOutsideAwaitIsCommandError :
    Obligations.ResponseFrameOutsideAwaitIsCommandError := by
  intro s i f hi hp
  have hrecv := receiveBytes_not_await f s hp (encode_response_ne_nil hi)
  have hready : (receiveBytes f s).rxrdy = false := by
    rw [hrecv]
    exact decide_eq_false fun h => hp h.1
  rw [exec_response hi, deliverResponse_of_not_rxrdy hready, hrecv]

/-! ### What is stored is enough -/

/-- R198: a response beyond 260 bytes fails by its first two bytes or by its length. -/
theorem checkResponse_too_long {op : FunctionCode} {r : List Byte} {len el : Nat}
    {ea b0 b1 b2 : Byte} (hdomain : 5 ≤ el) (hel : el ≤ 260) (hlong : 260 < len)
    (h0 : r[0]? = some b0) (h1 : r[1]? = some b1) (h2 : r[2]? = some b2) :
    checkResponse r len ea op.code el = .rejected
      (if b0 ≠ ea ∨ b1 ≠ op.code then .addressOrFunctionMismatch else .lengthMismatch) := by
  have hother : len ≠ op.claimedLength b2 :=
    fun he => absurd (claimedLength_le_rxCap op b2) (by omega)
  rw [checkResponse_code op r len ea el hdomain, runChecks, if_neg (by omega)]
  simp only [h0, h1, h2, if_pos hother, apply_ite Verdict.rejected]

section
variable {ef : Byte} {el : Nat} (hknown : knownCode ef) (hdomain : 5 ≤ el) (r : List Byte)
  (ea : Byte)
include hknown hdomain

/-- The first 260 bytes and the saturated count give the verdict on the whole sequence (D8). -/
theorem checkResponse_stored (hel : el ≤ 260) :
    checkResponse (r.take 260) (min r.length 0xFFFF) ea ef el =
      checkResponse r r.length ea ef el := by
  obtain ⟨op, rfl⟩ := exists_code_of_known hknown
  rcases Nat.lt_or_ge 260 r.length with hlong | hshort
  · match r, hlong with
    | b0 :: b1 :: b2 :: tail, hlong =>
      rw [checkResponse_too_long hdomain hel (by omega) rfl rfl rfl,
        checkResponse_too_long hdomain hel hlong rfl rfl rfl]
  · rw [List.take_of_length_le hshort, Nat.min_eq_left (by omega)]

/-- In the domain the checks on a whole response come to a payload or a cause. -/
theorem checkResponse_whole_cases :
    (∃ (op : FunctionCode) (b2 : Byte), ef = op.code ∧
      checkResponse r r.length ea ef el = .accepted (payloadOffset op) (payloadLength op b2)) ∨
    ∃ c, checkResponse r r.length ea ef el = .rejected c := by
  obtain ⟨op, rfl⟩ := exists_code_of_known hknown
  rw [checkResponse_code op r _ ea el hdomain]
  rcases runChecks_cases op r r.length ea el with ⟨-, e⟩ | ⟨hreached, hfew, -⟩ |
    ⟨-, b0, b1, b2, -, -, -, ⟨-, e⟩ | ⟨-, -, ⟨-, e⟩ | ⟨-, ⟨hfew, -⟩ | ⟨-, -, e⟩ | ⟨-, -, e⟩⟩⟩⟩
  · exact .inr ⟨_, e⟩
  · omega
  · exact .inr ⟨_, e⟩
  · exact .inr ⟨_, e⟩
  · omega
  · exact .inl ⟨op, b2, rfl, e⟩
  · exact .inr ⟨_, e⟩

end

/-! ### `VALIDATE` -/

theorem payoff_eq (op : FunctionCode) :
    BitVec.ofNat 2 (payloadOffset op) = if op.code.toNat ≤ 4 then 3 else 2 := by
  cases op <;> rfl

/-- `VALIDATE` records the validator's result on the whole sequence of bytes received, of which
`RXBUF` holds the first 260 and `RXLEN` the saturated count. -/
theorem validateResponse_records {s : State} (hs : StateInv s) (hp : s.phase = .await)
    {r : List Byte} (hbuf : r.take 260 = s.rxbuf) (hlen : s.rxlen.toNat = min r.length 0xFFFF) :
    (∃ data t, validateAndExtract r s.expAddr s.expFc s.expLen.toNat = some (.ok data) ∧
      t.payload = data ∧ validateResponse s = .next t ∧ t = { s with
        payoff := if s.expFc.toNat ≤ 4 then 3 else 2, paylen := BitVec.ofNat 8 data.length
        ok := true, err := .none, phase := .done }) ∨
    ∃ cause, validateAndExtract r s.expAddr s.expFc s.expLen.toNat = some (.error cause) ∧
      validateResponse s = .next (afterFailure s cause) := by
  obtain ⟨hknown, hdomain⟩ := hs.expected (.inl hp)
  have hstored := checkResponse_stored hknown hdomain r s.expAddr hs.expLenBound
  rw [hbuf, ← hlen] at hstored
  rw [validateResponse, if_pos hp]
  rcases checkResponse_whole_cases hknown hdomain r s.expAddr with ⟨op, b2, hfc, e⟩ | ⟨c, e⟩
  · have hcheck := hstored.trans e
    obtain ⟨hwindow, hoff, hn⟩ := checkResponse_accepted e
    obtain ⟨hstoredWindow, -, -⟩ := checkResponse_accepted hcheck
    have hcap : s.rxbuf.length ≤ 260 := hs.buffers.2.2.1
    have hdata : ((r.drop (payloadOffset op)).take (payloadLength op b2)).length =
        payloadLength op b2 := by
      rw [List.length_take, List.length_drop]
      omega
    refine .inl ⟨_, _, validateAndExtract_of_accepted e, ?payload, by rw [hcheck], ?fields⟩
    case payload =>
      rw [State.payload, toNat_ofNat_of_lt hn, toNat_ofNat_of_lt hoff, ← hbuf, List.drop_take,
        List.take_take, Nat.min_eq_left (by omega)]
    case fields => rw [hdata, hfc, payoff_eq]
  · rw [hstored, e]
    exact .inr ⟨c, validateAndExtract_of_rejected e, rfl⟩

/-- Settles O34: a sequence of length `RXLEN` is below saturation. -/
theorem validateRecordsTheResult : Obligations.ValidateRecordsTheResult := by
  refine fun s hs => ⟨fun hp r hlen hbuf => ?_, fun hp => if_neg hp⟩
  have hcount : s.rxlen.toNat = min r.length 0xFFFF := by
    have := s.rxlen.isLt
    omega
  have hexec : exec .validate s = validateResponse s := rfl
  rcases validateResponse_records hs hp hbuf hcount with ⟨data, t, hr, -, hv, rfl⟩ | ⟨c, hr, hv⟩ <;>
    rw [hexec, hr, hv]
  · exact ⟨by rintro _ ⟨⟩; rfl, nofun, nofun⟩
  · exact ⟨nofun, by rintro _ ⟨⟩; rfl, nofun⟩

/-- Settles O35: both families are framed bodies of the length they claim. -/
theorem validateAcceptsASoundResponse : Obligations.ValidateAcceptsASoundResponse := by
  intro s hs hp
  obtain ⟨op, hfc⟩ := exists_code_of_known (hs.expected (.inl hp)).1
  refine ⟨fun data hread hdata hel hrx hrxlen => ?read,
    fun b2 b3 b4 b5 hwrite hel hrx hrxlen => ?write⟩
  case read =>
    rw [hfc] at hread hrx
    have hop := (isRead_iff_code_le op).2 hread
    have hn : (BitVec.ofNat 8 data.length).toNat = data.length := toNat_ofNat_of_lt (by omega)
    have hclaimed : op.claimedLength (BitVec.ofNat 8 data.length) = data.length + 5 := by
      rw [claimedLength_of_read hop, hn, Nat.add_comm]
    have hv := validateResponse_framed hclaimed hs hp hfc (by omega) hrx (by omega)
    rw [payloadOffset, payloadLength, if_pos hop, if_pos hop, hn] at hv
    exact ⟨_, hv, by simp [State.payload, hrx, framed, hn], rfl⟩
  case write =>
    rw [hfc] at hwrite hrx
    have hop : op.isRead = false := Bool.eq_false_iff.2 fun h => by
      have := (isRead_iff_code_le op).1 h
      omega
    have hclaimed : op.claimedLength b2 = [b3, b4, b5].length + 5 := claimedLength_of_write hop b2
    have hv := validateResponse_framed hclaimed hs hp hfc hel hrx hrxlen
    rw [payloadOffset, payloadLength, hop] at hv
    exact ⟨_, hv, by simp [State.payload, hrx, framed], rfl⟩

/-! ### A whole exchange over the finite buffer -/

theorem rxBytes_length (bytes : List Byte) : (Asm.rxBytes bytes).length = 2 * bytes.length := by
  simp [Asm.rxBytes, List.length_flatMap, Nat.mul_comm]

theorem serveAll_singleton (a : HostAccess) (s : State) : serveAll [a] s = serve a s := by
  cases h : serve a s <;> simp [serveAll, h]

/-- `RX.BYTES` served access by access. -/
theorem serveAll_rxBytes (bytes : List Byte) (s : State) :
    serveAll (Asm.rxBytes bytes) s = .next (receiveBytes bytes s) := by
  induction bytes generalizing s with
  | nil => rfl
  | cons b bs ih => exact ih (receiveByte { s with din := b })

/-- `RX.BYTES` and then `VALIDATE`, queued before `rest`. -/
theorem run_rxBytes_validate (bytes : List Byte) (s : State) (rest : List HostAccess) :
    core.run (2 * bytes.length + 1)
        { s with pending := Asm.rxBytes bytes ++ .issue (.cmd 0x41) :: rest } =
      validateResponse (receiveBytes bytes { s with pending := rest }) := by
  have hrun := run_queued (Asm.rxBytes bytes ++ [.issue (.cmd 0x41)]) { s with pending := rest }
  rw [serveAll_append_next (serveAll_rxBytes bytes _), serveAll_singleton, List.length_append,
    rxBytes_length, List.append_assoc] at hrun
  exact hrun

/-- Delivery into an empty `RXBUF`. -/
theorem receiveBytes_empty (bytes : List Byte) {s : State} (h : Memory.wf s) (hp : s.phase = .await)
    (hzero : s.rxlen = 0) :
    receiveBytes bytes s = { s with
      din := bytes.getLastD s.din, rxbuf := bytes.take 260
      rxlen := BitVec.ofNat 16 (min bytes.length 0xFFFF) } := by
  have hempty : s.rxbuf.length = min s.rxlen.toNat 260 := h.1.2.1
  have hcount : s.rxlen.toNat = 0 := congrArg BitVec.toNat hzero
  have hnil : s.rxbuf = [] := List.length_eq_zero_iff.1 (by omega)
  rw [receiveBytes_await bytes s hp hempty, hnil, hcount, List.nil_append, Nat.zero_add]

/-- Settles O37: the bytes pushed leave the first 260 in `RXBUF` and their saturated count in
`RXLEN`. -/
theorem finiteResponseBufferIsExact : Obligations.FiniteResponseBufferIsExact := by
  intro s r rest hs hp hzero
  have hqueued : StateInv { s with pending := rest } := hostFields_inv hs rest s.rdata
  have hinv : StateInv (receiveBytes r { s with pending := rest }) :=
    stateInv_keptByPrimitives.of_receiveBytes r hqueued
  have hrun := run_rxBytes_validate r s rest
  have hlen : (BitVec.ofNat 16 (min r.length 0xFFFF)).toNat = min r.length 0xFFFF :=
    toNat_ofNat_of_lt (by omega)
  rw [receiveBytes_empty r hqueued.buffers hp hzero] at hrun hinv
  rcases validateResponse_records hinv hp rfl hlen with ⟨data, t, hr, hpay, hv, rfl⟩ | ⟨c, hr, hv⟩
  · refine ⟨_, hrun.trans hv, rfl, fun d hd => ?_, fun c hc => absurd (hr.symm.trans hc) nofun⟩
    obtain rfl : data = d := by simpa using hr.symm.trans hd
    exact ⟨rfl, rfl, rfl, hpay⟩
  · refine ⟨_, hrun.trans hv, rfl, fun d hd => absurd (hr.symm.trans hd) nofun, fun c' hc => ?_⟩
    obtain rfl : c = c' := by simpa using hr.symm.trans hc
    exact ⟨rfl, rfl, rfl, rfl⟩

end Sys2Proof.Machine
end

section
/-! SUPPORT. `NOP`, the delivery of a response frame access by access, and the host's reading of a register
payload (43_host_session_api.md R222, R230, R234). -/

namespace Sys2Proof.Machine

open Sys2Proof

/-! ### `NOP` and the response frames -/

/-- Settles O15: `NOP` writes nothing. -/
theorem nopLeavesTheStateUnchanged : Obligations.NopLeavesTheStateUnchanged := fun _ => rfl

theorem receiveBytes_pending (bytes : List Byte) (s : State) :
    (receiveBytes bytes s).pending = s.pending := by
  have hqueue : receiveBytes bytes s = { receiveBytes bytes s with pending := s.pending } :=
    receiveBytes_with_pending bytes s s.pending
  rw [hqueue]

/-- Settles O42: the queued accesses are the delivery of the frame's bytes, after which the frame itself
goes on with `VALIDATE` or ends. -/
theorem responseFrameRefinesItsStatements : Obligations.ResponseFrameRefinesItsStatements := by
  intro s rest i f hi
  have hrun := run_queued (Asm.rxBytes f) { s with pending := rest }
  rw [rxBytes_length, serveAll_rxBytes] at hrun
  exact ⟨_, hrun, receiveBytes_pending f _, exec_response hi _⟩

/-! ### Signed big-endian registers -/

theorem word16_toNat (hi lo : Byte) : (word16 hi lo).toNat = hi.toNat * 256 + lo.toNat := by
  have hhi := hiByte_toNat (word16 hi lo)
  have hlo := loByte_toNat (word16 hi lo)
  rw [hiByte_word16] at hhi
  rw [loByte_word16] at hlo
  omega

/-- Two's complement of 16 bits. -/
theorem word16_toInt (hi lo : Byte) :
    (word16 hi lo).toInt =
      let v : Int := hi.toNat * 256 + lo.toNat
      if v < 32768 then v else v - 65536 := by
  rw [BitVec.toInt_eq_toNat_cond, word16_toNat]
  dsimp only
  split <;> split <;> omega

theorem be16Values_length (p : List Byte) : (be16Values p).length = p.length / 2 := by
  induction p using be16Values.induct with
  | case1 hi lo rest ih =>
    rw [be16Values, List.length_cons, ih, List.length_cons, List.length_cons]
    omega
  | case2 b => simp [be16Values]
  | case3 => rfl

theorem be16Values_getElem? (p : List Byte) (k : Nat) (h : 2 * k + 1 < p.length) :
    (be16Values p)[k]? = some (word16 p[2 * k] p[2 * k + 1]) := by
  induction p using be16Values.induct generalizing k with
  | case1 hi lo rest ih =>
    cases k with
    | zero => rfl
    | succ k => exact ih k (by rw [List.length_cons, List.length_cons] at h; omega)
  | case2 b => exact absurd h (by simp)
  | case3 => exact absurd h (by simp)

/-- Settles O56: value `k` is the word of bytes `2k` and `2k + 1`, read in two's complement. -/
theorem registerPayloadIsSignedBigEndian : Obligations.RegisterPayloadIsSignedBigEndian := by
  refine fun p => ⟨by rw [registerValues, List.length_map, be16Values_length], fun k h => ?_⟩
  rw [registerValues, List.getElem?_map, be16Values_getElem? p k h, Option.map_some, word16_toInt]

end Sys2Proof.Machine
end

section
/-! SUPPORT. How the host's wait ends: in `ABORT` when too few bytes arrive, and otherwise in `VALIDATE`
at the poll that completes `EXP_LEN` (43_host_session_api.md R221 to R225). -/

namespace Sys2Proof.Machine

open Sys2Proof

/-! ### When `RXRDY` becomes 1 -/

theorem receiveByte_rxlen {s : State} (hp : s.phase = .await) :
    (receiveByte s).rxlen.toNat = min (s.rxlen.toNat + 1) 0xFFFF := by
  have hlt := s.rxlen.isLt
  rw [receiveByte_await s hp]
  dsimp only
  split
  · rw [add_one_eq_ofNat, toNat_ofNat_of_lt (by omega)]
    omega
  · omega

/-- Every byte pushed is counted, up to saturation. -/
theorem receiveBytes_rxlen (bytes : List Byte) {s : State} (hp : s.phase = .await) :
    (receiveBytes bytes s).rxlen.toNat = min (s.rxlen.toNat + bytes.length) 0xFFFF := by
  induction bytes generalizing s with
  | nil => exact (Nat.min_eq_left (Nat.le_of_lt_succ s.rxlen.isLt)).symm
  | cons b bs ih =>
    have hfirst : (receiveByte { s with din := b }).rxlen.toNat = min (s.rxlen.toNat + 1) 0xFFFF :=
      receiveByte_rxlen (s := { s with din := b }) hp
    rw [receiveBytes_cons, ih (s := receiveByte { s with din := b }) ((receiveByte_phase _).trans hp),
      hfirst, List.length_cons]
    omega

/-- `EXP_LEN` lies below the value at which the count saturates, so every byte pushed counts. -/
theorem rxrdy_receiveBytes_iff (bytes : List Byte) {s : State} (hp : s.phase = .await) :
    (receiveBytes bytes s).rxrdy = true ↔ s.expLen.toNat ≤ s.rxlen.toNat + bytes.length := by
  obtain ⟨-, -, -, -, hel⟩ := receiveBytes_frame bytes s
  have hphase : (receiveBytes bytes s).phase = .await := (receiveBytes_phase bytes s).trans hp
  have hsmall := s.expLen.isLt
  rw [State.rxrdy, decide_eq_true_iff, hel, receiveBytes_rxlen bytes hp]
  exact ⟨fun ⟨_, h⟩ => by omega, fun h => ⟨hphase, by omega⟩⟩

section
variable {s : State} (hp : s.phase = .await)
include hp

theorem not_rxrdy_receiveBytes {bytes : List Byte}
    (h : s.rxlen.toNat + bytes.length < s.expLen.toNat) : (receiveBytes bytes s).rxrdy = false :=
  Bool.eq_false_iff.2 fun hr => absurd ((rxrdy_receiveBytes_iff bytes hp).1 hr) h.not_ge

/-- No poll among those that stay short of `EXP_LEN` makes `RXRDY` 1. -/
theorem not_rxrdy_of_prefix {polls p q : List (List Byte)}
    (h : s.rxlen.toNat + polls.flatten.length < s.expLen.toNat) (hsplit : polls = p ++ q) :
    (receiveBytes p.flatten s).rxrdy = false := by
  refine not_rxrdy_receiveBytes hp ?_
  rw [hsplit, List.flatten_append, List.length_append] at h
  omega

/-! ### How the wait ends -/

/-- Too few bytes in time: the host aborts. -/
theorem waitLoop_timeout {polls : List (List Byte)}
    (h : s.rxlen.toNat + polls.flatten.length < s.expLen.toNat) :
    waitLoop polls s = .next (raise (.exchange .timeout) (receiveBytes polls.flatten s)) := by
  rw [waitLoop_abort fun _ _ hsplit _ => not_rxrdy_of_prefix hp h hsplit,
    abortExchange_await ((receiveBytes_phase _ _).trans hp)]

/-- The poll `last` completes the expected length: the host validates what it has pushed. -/
theorem waitLoop_complete {before : List (List Byte)} {last : List Byte} (after : List (List Byte))
    (hshort : s.rxlen.toNat + before.flatten.length < s.expLen.toNat)
    (hready : s.expLen.toNat ≤ s.rxlen.toNat + (before.flatten ++ last).length) :
    waitLoop (before ++ last :: after) s =
      validateResponse (receiveBytes (before.flatten ++ last) s) :=
  waitLoop_validate (fun _ _ hsplit _ => not_rxrdy_of_prefix hp hshort hsplit)
    ((rxrdy_receiveBytes_iff _ hp).2 hready)

end

/-- All that the wait can come to, whatever the polls find: after some bytes it aborts, or it validates
with `RXRDY` 1. -/
theorem waitLoop_cases (polls : List (List Byte)) (s : State) :
    ∃ bytes, waitLoop polls s = .next (abortExchange (receiveBytes bytes s)) ∨
      (receiveBytes bytes s).rxrdy = true ∧
        waitLoop polls s = validateResponse (receiveBytes bytes s) := by
  induction polls generalizing s with
  | nil => exact ⟨[], .inl rfl⟩
  | cons bytes rest ih =>
    rw [waitLoop]
    cases hr : (receiveBytes bytes s).rxrdy with
    | true => exact ⟨bytes, .inr ⟨hr, if_pos rfl⟩⟩
    | false =>
      obtain ⟨more, h⟩ := ih (receiveBytes bytes s)
      rw [← receiveBytes_append] at h
      exact ⟨bytes ++ more, h⟩

/-! ### A wait in a state that meets the invariant -/

/-- Some sequence of the counted length begins with the bytes stored. -/
theorem exists_received (s : State) (h : Memory.wf s) :
    ∃ r : List Byte, r.take 260 = s.rxbuf ∧ s.rxlen.toNat = min r.length 0xFFFF := by
  have hcount : s.rxbuf.length = min s.rxlen.toNat 260 := h.1.2.1
  have hlt := s.rxlen.isLt
  refine ⟨s.rxbuf ++ List.replicate (s.rxlen.toNat - s.rxbuf.length) 0, ?_, ?_⟩
  · rcases Nat.lt_or_ge s.rxlen.toNat 260 with hroom | hfull
    · rw [Nat.sub_eq_zero_of_le (by omega), List.replicate_zero, List.append_nil,
        List.take_of_length_le (by omega)]
    · exact List.take_left' (by omega)
  · rw [List.length_append, List.length_replicate]
    omega

/-- A response of at least the expected length fails by a later check. -/
theorem validateAndExtract_ne_incomplete {op : FunctionCode} {r : List Byte} {ea : Byte} {el : Nat}
    (hdomain : 5 ≤ el) (hreached : el ≤ r.length) :
    validateAndExtract r ea op.code el ≠ some (.error .incompleteResponse) := by
  match r, hdomain.trans hreached with
  | b0 :: b1 :: b2 :: tail, _ =>
    rw [validateAndExtract_header hdomain hreached rfl rfl rfl]
    split_ifs <;> simp

theorem validateResponse_complete {s : State} (hs : StateInv s) (hr : s.rxrdy = true) :
    ∃ t, validateResponse s = .next t ∧ t.built = s.built ∧ t.err ≠ .incompleteResponse ∧
      (t.phase = .done ∨ t.phase = .fail) := by
  obtain ⟨hp, hel⟩ := of_decide_eq_true hr
  obtain ⟨hknown, hdomain⟩ := hs.expected (.inl hp)
  obtain ⟨op, hfc⟩ := exists_code_of_known hknown
  obtain ⟨r, hbuf, hcount⟩ := exists_received s hs.buffers
  rcases validateResponse_records hs hp hbuf hcount with ⟨data, t, -, -, hv, rfl⟩ | ⟨c, hverdict, hv⟩
  · exact ⟨_, hv, rfl, nofun, .inl rfl⟩
  · refine ⟨_, hv, rfl, fun hc => ?_, .inr rfl⟩
    obtain rfl : c = .incompleteResponse := hc
    rw [hfc] at hverdict
    exact validateAndExtract_ne_incomplete hdomain (by omega) hverdict

/-- From `AWAIT` the wait ends the exchange, leaves what was built alone and validates no short buffer. -/
theorem waitLoop_ends (polls : List (List Byte)) {s : State} (hs : StateInv s)
    (hp : s.phase = .await) :
    ∃ t, waitLoop polls s = .next t ∧ t.built = s.built ∧ t.err ≠ .incompleteResponse ∧
      (t.phase = .done ∨ t.phase = .fail) := by
  obtain ⟨bytes, e | ⟨hr, e⟩⟩ := waitLoop_cases polls s
  · rw [abortExchange_await ((receiveBytes_phase bytes s).trans hp)] at e
    exact ⟨_, e, built_eq_iff.2 (receiveBytes_frame bytes s), nofun, .inr rfl⟩
  · obtain ⟨t, hv, hbuilt, hend⟩ :=
      validateResponse_complete (stateInv_keptByPrimitives.of_receiveBytes bytes hs) hr
    exact ⟨t, e.trans hv, hbuilt.trans (built_eq_iff.2 (receiveBytes_frame bytes s)), hend⟩

/-! ### The exchange -/

/-- Settles O57: with no byte `RXRDY` stays 0 at every poll. -/
theorem silentTransportEndsInTimeout : Obligations.SilentTransportEndsInTimeout := by
  intro ses n hdev hp hshort
  have hsilent : (List.replicate n ([] : List Byte)).flatten = [] := List.flatten_replicate_nil
  have hwait := waitLoop_timeout (polls := List.replicate n []) hp (by rw [hsilent]; exact hshort)
  rw [hsilent] at hwait
  exact ⟨_, exchange_next hdev hwait, rfl⟩

/-- Settles O58: the wait ends the exchange. -/
theorem sessionNeverValidatesAShortBuffer : Obligations.SessionNeverValidatesAShortBuffer := by
  intro ses polls hs hp hdev
  obtain ⟨t, hwait, -, hend⟩ := waitLoop_ends polls hs hp
  exact ⟨_, exchange_next hdev hwait, hend⟩

/-- Device address 0 is refused before anything is sent. -/
theorem exchange_broadcast (polls : List (List Byte)) {ses : Session} (h : ses.block.expAddr = 0) :
    exchange polls ses = .refused .broadcastExchange := if_pos h

/-- Settles O59: what is sent is `TXBUF`, and the wait leaves it alone. -/
theorem exchangeSendsTheFrameOnce : Obligations.ExchangeSendsTheFrameOnce := by
  refine fun polls ses => ⟨fun hs hp hdev => ?_, exchange_broadcast polls⟩
  obtain ⟨t, hwait, hbuilt, -⟩ := waitLoop_ends polls hs hp
  obtain ⟨htx, -⟩ := built_eq_iff.1 hbuilt
  exact ⟨_, exchange_next hdev hwait, by rw [txFrame_eq hs.buffers], htx⟩

end Sys2Proof.Machine
end

section
/-! SUPPORT. The eight operations: what their statements build, and that the decoding of an operation reads
the outcome of its exchange (43_host_session_api.md R230 to R233). -/

namespace Sys2Proof.Machine

open Sys2Proof

/-! ### What the statements build -/

/-- The function code of an operation (30_encoding.md R96). -/
def Operation.functionCode : Operation → FunctionCode
  | .readCoils .. => .rc
  | .readDiscreteInputs .. => .rdi
  | .readHoldingRegisters .. => .rhr
  | .readInputRegisters .. => .rir
  | .writeSingleCoil .. => .wsc
  | .writeSingleRegister .. => .wsr
  | .writeMultipleCoils .. => .wmc
  | .writeMultipleRegisters .. => .wmr

/-- The state with the operands of an operation written, before its `ENC.*`. -/
def Operation.written (op : Operation) (s : State) : State :=
  match op with
  | .readCoils dev ref qty => { s with dev := dev, ref := ref, qty := qty }
  | .readDiscreteInputs dev ref qty => { s with dev := dev, ref := ref, qty := qty }
  | .readHoldingRegisters dev ref qty => { s with dev := dev, ref := ref, qty := qty }
  | .readInputRegisters dev ref qty => { s with dev := dev, ref := ref, qty := qty }
  | .writeSingleCoil dev ref on => { s with dev := dev, ref := ref, bval := on }
  | .writeSingleRegister dev ref v => { s with dev := dev, ref := ref, val := v }
  | .writeMultipleCoils dev ref bits => { loadBits bits s with dev := dev, ref := ref }
  | .writeMultipleRegisters dev ref vals => { loadRegs vals s with dev := dev, ref := ref }

theorem built_eq_buildFrame (op : Operation) (s : State) :
    op.built s =
      buildFrame op.functionCode (op.functionCode.payloadOf (op.written s)) (op.written s) := by
  cases op <;> rfl

theorem operationTarget_eq (op : Operation) (s : State) :
    operationTarget op = ((op.written s).dev, op.functionCode.code) := by
  cases op <;> rfl

section
variable (op : Operation) {s : State} (hs : StateInv s)
include hs

theorem written_inv : StateInv (op.written s) := by
  cases op with
  | readCoils | readDiscreteInputs | readHoldingRegisters | readInputRegisters | writeSingleCoil
  | writeSingleRegister => exact { hs with }
  | writeMultipleCoils dev ref bits =>
    exact { stateInv_keptByPrimitives.of_loadBits bits hs with }
  | writeMultipleRegisters dev ref vals =>
    exact { stateInv_keptByPrimitives.of_loadRegs vals hs with }

theorem built_inv : StateInv (op.built s) := by
  rw [built_eq_buildFrame]
  exact stateInv_keptByPrimitives.of_buildFrame _ (written_inv op hs)

end

/-- The statements end in a refusal, or await a response from the operation's device to its function
code, with nothing received. -/
theorem built_cases (op : Operation) (s : State) :
    ((op.built s).phase = .fail ∧ (op.built s).ok = false) ∨
    ((op.built s).phase = .await ∧ (op.built s).rxlen = 0 ∧
      ((op.built s).expAddr, (op.built s).expFc) = operationTarget op) := by
  rw [built_eq_buildFrame, operationTarget_eq op s]
  rcases buildFrame_cases op.functionCode (op.functionCode.payloadOf (op.written s)) (op.written s)
    with ⟨c, -, -, e⟩ | ⟨a, -, e⟩ <;> rw [e]
  · exact .inl ⟨rfl, rfl⟩
  · exact .inr ⟨rfl, rfl, rfl⟩

/-! ### Decoding -/

theorem exchangeResult_of_ok {s : State} (h : s.ok = true) : exchangeResult s = .ok s.payload :=
  if_pos h

theorem exchangeResult_of_not_ok {s : State} (h : s.ok = false) : exchangeResult s = .error s.err :=
  if_neg (Bool.eq_false_iff.1 h)

theorem readResult_eq (decodePayload : List Byte → ApiResult) (s : State) :
    readResult decodePayload s = readOutcome decodePayload (exchangeResult s) := by
  rw [readResult]
  cases exchangeResult s <;> rfl

theorem writeSucceeded_eq (s : State) : writeSucceeded s = (exchangeResult s).isOk := by
  cases h : s.ok with
  | true => rw [exchangeResult_of_ok h, writeSucceeded, h]; rfl
  | false => rw [exchangeResult_of_not_ok h, writeSucceeded, h]; rfl

/-- An operation's result is its decoding of the outcome of its exchange. -/
theorem result_eq_operationOutcome (op : Operation) (s : State) :
    op.result s = operationOutcome op (exchangeResult s) := by
  cases op with
  | readCoils | readDiscreteInputs | readHoldingRegisters | readInputRegisters =>
    exact readResult_eq _ s
  | writeSingleCoil | writeSingleRegister | writeMultipleCoils | writeMultipleRegisters =>
    exact congrArg ApiResult.written (writeSucceeded_eq s)

/-- `VALIDATE` after bytes delivered into an empty `RXBUF` leaves the validator's verdict on them as the
outcome of the exchange (D8). -/
theorem validateResponse_received (bytes : List Byte) {s : State} (hs : StateInv s)
    (hp : s.phase = .await) (hzero : s.rxlen = 0) :
    ∃ t v, validateResponse (receiveBytes bytes s) = .next t ∧
      validateAndExtract bytes s.expAddr s.expFc s.expLen.toNat = some v ∧ exchangeResult t = v := by
  have hinv := stateInv_keptByPrimitives.of_receiveBytes bytes hs
  have hlen : (BitVec.ofNat 16 (min bytes.length 0xFFFF)).toNat = min bytes.length 0xFFFF :=
    toNat_ofNat_of_lt (by omega)
  rw [receiveBytes_empty bytes hs.buffers hp hzero] at hinv ⊢
  rcases validateResponse_records hinv hp rfl hlen with ⟨data, t, hr, hpay, hv, rfl⟩ | ⟨c, hr, hv⟩
  · exact ⟨_, _, hv, hr, (exchangeResult_of_ok rfl).trans (congrArg _ hpay)⟩
  · exact ⟨_, _, hv, hr, exchangeResult_of_not_ok rfl⟩

/-! ### The whole operation -/

theorem masterCall_refused (op : Operation) (polls : List (List Byte)) (ses : Session)
    (hp : (op.built ses.block).phase = .fail) (hok : (op.built ses.block).ok = false) :
    masterCall op polls ses = .next ({ ses with block := op.built ses.block },
      operationOutcome op (.error (op.built ses.block).err)) := by
  rw [masterCall_of_fail op polls ses hp, result_eq_operationOutcome, exchangeResult_of_not_ok hok]

theorem masterCall_broadcast (op : Operation) (polls : List (List Byte)) (ses : Session)
    (hp : (op.built ses.block).phase = .await) (hdev : (op.built ses.block).expAddr = 0) :
    masterCall op polls ses = .refused .broadcastExchange := by
  have hexchange := exchange_broadcast polls (ses := { ses with block := op.built ses.block }) hdev
  rw [masterCall, serveAll_statements]
  simp only [hp, reduceCtorEq, if_false, hexchange]

/-- An accepted operation for a device other than 0 whose wait ends in `t`. -/
theorem masterCall_completes (op : Operation) {polls : List (List Byte)} {ses : Session} {t : State}
    (hs : StateInv ses.block) (hp : (op.built ses.block).phase = .await)
    (hdev : (op.built ses.block).expAddr ≠ 0) (hwait : waitLoop polls (op.built ses.block) = .next t) :
    ∃ u : Session, masterCall op polls ses = .next (u, operationOutcome op (exchangeResult t)) ∧
      u.sent = ses.sent ++ [(op.built ses.block).txbuf] := by
  have hexchange := exchange_next (ses := { ses with block := op.built ses.block }) hdev hwait
  have hcall := masterCall_of_accepted op polls ses _ (by rw [hp]; nofun) hexchange
  rw [result_eq_operationOutcome] at hcall
  exact ⟨_, hcall, by rw [txFrame_eq (built_inv op hs).buffers]⟩

/-- Settles O60: the statements build a refusal or a frame, and the wait for its response ends in the
timeout or in the validator's verdict. -/
theorem operationEncodesExchangesDecodes : Obligations.OperationEncodesExchangesDecodes := by
  intro op polls ses hs
  refine ⟨op.built ses.block, serveAll_statements op ses.block, ?_⟩
  rcases built_cases op ses.block with ⟨hp, hok⟩ | ⟨hp, hzero, htarget⟩
  · exact .inl ⟨hp, masterCall_refused op polls ses hp hok⟩
  have hdev : (operationTarget op).1 = (op.built ses.block).expAddr := by rw [← htarget]
  have hcount : (op.built ses.block).rxlen.toNat = 0 := congrArg BitVec.toNat hzero
  rw [hdev]
  refine .inr ⟨hp, htarget, masterCall_broadcast op polls ses hp, fun hne => ⟨fun hshort => ?timeout,
    fun before last after hpolls hshort hready => ?verdict⟩⟩
  case timeout =>
    exact masterCall_completes op hs hp hne (waitLoop_timeout hp (by rwa [hcount, Nat.zero_add]))
  case verdict =>
    obtain ⟨t, v, hvalidate, hverdict, hresult⟩ :=
      validateResponse_received (before.flatten ++ last) (built_inv op hs) hp hzero
    have hwait := (waitLoop_complete hp after (by rwa [hcount, Nat.zero_add])
      (by rwa [hcount, Nat.zero_add])).trans hvalidate
    obtain ⟨u, hcall, hsent⟩ := masterCall_completes op hs hp hne hwait
    rw [← hpolls, hresult] at hcall
    exact ⟨u, v, hverdict, hcall, hsent⟩

end Sys2Proof.Machine
end

section
/-! SUPPORT. Failures do not nest: what a command does to the recorded failure when `PHASE = FAIL`
(60_exceptions.md R264). -/

namespace Sys2Proof.Machine

open Sys2Proof

/-- The operand checks fail with one of the three encode causes (41_encode.md R153). -/
theorem operandCheck_error_mem {op : FunctionCode} {s : State} {c : ErrCode}
    (h : operandCheck op s = .error c) :
    c ∈ [ErrCode.refBelowOffset, .refAboveRange, .quantityOutOfRange] := by
  cases ha : addressField op s.ref with
  | error cause =>
    obtain rfl : cause = c := by simpa [operandCheck, ha] using h
    rcases addressField_error_cases _ _ _ ha with ⟨-, rfl⟩ | ⟨-, -, rfl⟩ <;> simp
  | ok a =>
    cases hq : quantityTooLarge op s.qty with
    | true =>
      obtain rfl : .quantityOutOfRange = c := by simpa [operandCheck, ha, hq] using h
      simp
    | false => simp [operandCheck, ha, hq] at h

/-- From every phase an `ENC.*` either starts an exchange or records its own refusal. -/
theorem exec_encodeCommand_result (op : FunctionCode) {s t : State}
    (ht : exec op.command s = .next t) :
    t.phase = .await ∧ t.err = .none ∨
      t.phase = .fail ∧ t.err ∈ [ErrCode.refBelowOffset, .refAboveRange, .quantityOutOfRange] := by
  obtain rfl := Host.Outcome.next.inj ((exec_encodeCommand op s).symm.trans ht)
  rcases buildFrame_cases op (op.payloadOf s) s with ⟨c, -, hcheck, e⟩ | ⟨a, -, e⟩ <;> rw [e]
  · exact .inr ⟨rfl, operandCheck_error_mem hcheck⟩
  · exact .inl ⟨rfl, rfl⟩

/-- Outside `AWAIT` no exchange can end, so only an `ENC.*` or `RESET` changes the recorded result. -/
theorem commandEffect_result {i : Instr} {s t : State} (e : CommandEffect s i t)
    (hp : s.phase ≠ .await) (henc : ∀ op : FunctionCode, i ≠ op.command) (hreset : i ≠ .reset) :
    t.phase = s.phase ∧ t.err = s.err ∧ t.ok = s.ok ∧ t.payoff = s.payoff ∧
      t.paylen = s.paylen := by
  cases e with
  | accepted op a hop ha => exact absurd hop (henc op)
  | refused op c hop hc => exact absurd hop (henc op)
  | exposed off n hawait hv => exact absurd hawait hp
  | failed c hv hawait hc => exact absurd hawait hp
  | reset => exact absurd rfl hreset
  | _ => exact ⟨rfl, rfl, rfl, rfl, rfl⟩

/-- Settles O49: an `ENC.*` gives its own result, `RESET` ends in `IDLE`, and `FAIL` is not `AWAIT`, so
that every other command leaves the recorded failure. -/
theorem failuresDoNotNest : Obligations.FailuresDoNotNest := by
  intro i s t hc hfail ht
  by_cases henc : i ∈ [Instr.encRc, .encRdi, .encRhr, .encRir, .encWsc, .encWsr, .encWmc, .encWmr]
  · obtain ⟨op, rfl⟩ := (mem_encodeCommands_iff i).1 henc
    exact .inl ⟨henc, exec_encodeCommand_result op ht⟩
  by_cases hreset : i = .reset
  · subst hreset
    exact .inr (.inl ⟨rfl, of_next (P := fun t => t.phase = .idle) ht rfl⟩)
  have hawait : s.phase ≠ .await := by simp [hfail]
  have hkept := commandEffect_result (commandEffect_of_exec hc ht) hawait
    (not_exists.1 (mt (mem_encodeCommands_iff i).2 henc)) hreset
  exact .inr (.inr ⟨henc, hfail ▸ hkept⟩)

end Sys2Proof.Machine
end

section
/-! SUPPORT. The two ways to reset the block (70_reset_and_hazards.md R290, 43_host_session_api.md
R235). -/

namespace Sys2Proof.Machine

open Sys2Proof

theorem exec_reset (s : State) : exec .reset s = .next (resetBlock s) := rfl

theorem step_hardReset {s : State} {rest : List HostAccess} (hp : s.pending = .hardReset :: rest) :
    step s = .next (resetBlock { s with pending := rest }) :=
  step_of_pending hp

/-- Settles O14: the command and the reset input both apply `resetBlock`, the latter once its access
is taken from the queue. -/
theorem resetInputAndResetCommandAgree : Obligations.ResetInputAndResetCommandAgree :=
  fun s _ => ⟨exec_reset s, step_hardReset⟩

end Sys2Proof.Machine
end
